-- ==== Sys2Proof/Word.lean ====
section
/-! DEFINITION. The words of the core: operation words and register values (32 bits), pixel values (16 bits, of which a
configuration uses `PIXEL_BITS`), and the one-bit fields as numbers. -/

namespace Sys2Proof

/-- An operation word (R140) or a register value as `RDREG` returns it (R11). -/
abbrev Word := BitVec 32

/-- A pixel value: at most 16 bits (R9 item (10)); the bound `2 ^ PIXEL_BITS` is an invariant. -/
abbrev Pixel := BitVec 16

end Sys2Proof
end

