-- ==== Sys2Proof/Config.lean ====
section
/-! DEFINITION. The configuration of the core (00_scope R6 to R10, the placement of 20_memory R101 and R108), the
configuration of the spec's examples, and the free values. What is computed from a configuration (its well-formedness R9,
the raster decoder R260) is in Machine/Params.lean. -/

namespace Sys2Proof

/-- The regions of the raster (R14, R260). -/
inductive Region where
  | visible
  | frontPorch
  | sync
  | backPorch
  deriving DecidableEq, Repr

/-- The Frame Timing Table (R7) and the other implementation parameters (R10, R108). Configuration, not state: no
operation reads it as data or writes it (R6). -/
structure Config where
  /-- `PIXEL_DIV`: base-clock ticks per pixel-clock tick. -/
  pixelDiv : Nat
  /-- `H_PERIOD`: base-clock ticks per line. -/
  hPeriod : Nat
  /-- `HSYNC_WIDTH`: ticks of the horizontal-sync active pulse. -/
  hsyncWidth : Nat
  /-- `TRIGGER_OFFSET`: ticks from period start to the secondary trigger. -/
  triggerOffset : Nat
  /-- `VISIBLE_PIXELS`: visible pixel count per line. -/
  visiblePixels : Nat
  /-- `V_VISIBLE`: count of visible lines. -/
  vVisible : Nat
  /-- `V_FRONT`: count of front-porch lines. -/
  vFront : Nat
  /-- `V_SYNC`: count of sync lines. -/
  vSync : Nat
  /-- `V_BACK`: count of back-porch lines. -/
  vBack : Nat
  /-- `VSYNC_ON_LINE`: line index at which vertical sync is asserted. -/
  vsyncOnLine : Nat
  /-- `VSYNC_OFF_LINE`: line index at which vertical sync is deasserted. -/
  vsyncOffLine : Nat
  /-- `INPUT_WIN_START`: first line of the input-sampling window. -/
  inputWinStart : Nat
  /-- `INPUT_WIN_LEN`: number of lines in the input-sampling window. -/
  inputWinLen : Nat
  /-- `PIXEL_BITS`: width of a pixel value and of the output register. -/
  pixelBits : Nat
  /-- `BLANK_VALUE`: the blanking value. -/
  blankValue : Pixel
  /-- `HSYNC_ACTIVE_HIGH`: electrical level of asserted horizontal sync. -/
  hsyncActiveHigh : Bool
  /-- `VSYNC_ACTIVE_HIGH`: electrical level of asserted vertical sync. -/
  vsyncActiveHigh : Bool
  /-- `VSYNC_PIN`: which output pin carries vertical sync. -/
  vsyncPin : Nat
  /-- `DIAG`: whether the diagnostics register `MAXLINE` is present. -/
  diag : Bool
  /-- `REG_BASE`: address of the register window (R108). -/
  regBase : Nat
  /-- `BUF_BASE0`: address of line buffer 0 (R101). -/
  bufBase0 : Nat
  /-- `BUF_BASE1`: address of line buffer 1 (R101). -/
  bufBase1 : Nat
  /-- `BUF_ALIGN`: alignment of the line buffers (R101). -/
  bufAlign : Nat
  /-- `OUT_ADDR`: address of the output register (R108). -/
  outAddr : Nat
  deriving DecidableEq, Repr

/-- CFG-T of 95_test_vectors section 0: the configuration of every example of the spec, and the one `State.reset` runs
(DESIGN CHOICE, log 1). The two polarities, the pin and the placement are not part of CFG-T (DESIGN CHOICE, log 2). -/
def Config.cfgT : Config where
  pixelDiv := 2
  hPeriod := 20
  hsyncWidth := 3
  triggerOffset := 5
  visiblePixels := 4
  vVisible := 3
  vFront := 2
  vSync := 1
  vBack := 2
  vsyncOnLine := 5
  vsyncOffLine := 6
  inputWinStart := 3
  inputWinLen := 1
  pixelBits := 16
  blankValue := 0
  hsyncActiveHigh := true
  vsyncActiveHigh := true
  vsyncPin := 0
  diag := true
  regBase := 0
  bufBase0 := 0
  bufBase1 := 0
  bufAlign := 1
  outAddr := 0

/-- Whose step comes next where both are possible: the one enabled micro-operation of a sequencer, or the next
operation of the host and environment stream (R4). -/
inductive Turn where
  | sequencer
  | stream
  deriving DecidableEq, Repr, Inhabited

/-- The free value of the `n`-th `draw x in S` (R12) that no listed input answers: an UNDEF cell's value (R104), a flag
clear's `c` and `now` (R206, R312), the spurious re-assertion `spur` (R314). No body: nothing can be proved of it (log 3). -/
opaque Config.freeDraw : Nat → BitVec 16

/-- The free choice of whose step comes next (R4) at the `n`-th free value, where no listed turn says (log 4). -/
opaque Config.freeTurn : Nat → Turn

end Sys2Proof
end

