-- ==== Sys2Proof/Syntax.lean ====
section
/-! DEFINITION. The operations of the core: one constructor of `Instr` per row of spec/opcode_table.json, and the
classes and agents of 30_encoding R140 and 00_scope R5. -/

namespace Sys2Proof

/-- The readable registers, numbers 0 to 9 in this order (R79). -/
inductive Reg where
  | ctrl
  | status
  | line
  | frame
  | hcnt
  | fault
  | maxline
  | out
  | cbreq
  | xidx
  deriving DecidableEq, Repr

/-- The callbacks the LFSM requests and the host returns (R68, R148). -/
inductive Callback where
  | produce
  | input
  | audio
  deriving DecidableEq, Repr

/-- Every operation of the core, one constructor per row of the opcode table. -/
inductive Instr where
  | nop
  /-- `TICK n` (R200). -/
  | tick (n : BitVec 16)
  /-- `WRCTRL d` (R341). -/
  | wrctrl (d : BitVec 16)
  /-- `RDREG r` (R342). -/
  | rdreg (r : Reg)
  /-- `BUFW b, i, v` (R343). -/
  | bufw (b : Bool) (i : BitVec 11) (v : BitVec 16)
  /-- `BUFR b, i` (R344). -/
  | bufr (b : Bool) (i : BitVec 11)
  /-- `CBRET k` (R345). -/
  | cbret (k : Callback)
  | lEnter
  | lAck
  | lAdv
  | lSwap
  | lArm
  | lProduce
  | lFrameinc
  | lInput
  | lVsyncOn
  | lVsyncOff
  | lAudio
  | lExit
  | tEnter
  | tBlank
  | tClr
  | tPoll
  | tDis
  | tDiscard
  | tExit
  deriving DecidableEq, Repr

/-- What a word spells (R153): an operation, or `ILLEGAL`. -/
inductive Decoded where
  | operation (i : Instr)
  | illegal
  deriving DecidableEq, Repr

/-- The three classes of operations (R140): host, environment, sequencer. -/
inductive OpClass where
  | host
  | environment
  | sequencer
  deriving DecidableEq, Repr

/-- The agents of R5. -/
inductive Agent where
  | hw
  | lfsm
  | tch
  | host
  deriving DecidableEq, Repr

end Sys2Proof
end

