-- ==== Sys2Proof/WellFormed.lean ====
section
/-! DEFINITION. The operand ranges the encoding admits (30_encoding R143, R145, R150): the operations some word spells. -/

namespace Sys2Proof

/-- An operation that some word spells: `TICK` has `1 ≤ n` (R143), `WRCTRL` has `d[15:3] = 0` (R145); every other operand
type holds exactly the values of its field. -/
def Instr.wellFormed : Instr → Bool
  | .tick n => n != 0
  | .wrctrl d => d.extractLsb' 3 13 == 0
  | .nop | .rdreg _ | .bufw _ _ _ | .bufr _ _ | .cbret _ => true
  | .lEnter | .lAck | .lAdv | .lSwap | .lArm | .lProduce | .lFrameinc | .lInput | .lVsyncOn | .lVsyncOff | .lAudio
  | .lExit => true
  | .tEnter | .tBlank | .tClr | .tPoll | .tDis | .tDiscard | .tExit => true

end Sys2Proof
end

