-- ==== Sys2Proof/Decode.lean ====
section
/-! DEFINITION. The decoder (30_encoding R153): a total function from 32-bit words to an operation or `ILLEGAL`; the
encoder, written from the same formats (R142 to R149); the assembler spelling (R156) and the pseudo-operations (R157); and
the reading of an opcode-table word. -/

namespace Sys2Proof

/-- The agent that performs an operation (R5, R414). -/
def Instr.agent : Instr → Agent
  | .nop | .wrctrl _ | .rdreg _ | .bufw _ _ _ | .bufr _ _ | .cbret _ => .host
  | .tick _ => .hw
  | .lEnter | .lAck | .lAdv | .lSwap | .lArm | .lProduce | .lFrameinc | .lInput | .lVsyncOn | .lVsyncOff | .lAudio
  | .lExit => .lfsm
  | .tEnter | .tBlank | .tClr | .tPoll | .tDis | .tDiscard | .tExit => .tch

/-- The class of an operation (R140). -/
def Instr.opClass (i : Instr) : OpClass :=
  match i.agent with
  | .host => .host
  | .hw => .environment
  | .lfsm | .tch => .sequencer

/-- The register number of R79. -/
def Reg.number : Reg → Nat
  | .ctrl => 0
  | .status => 1
  | .line => 2
  | .frame => 3
  | .hcnt => 4
  | .fault => 5
  | .maxline => 6
  | .out => 7
  | .cbreq => 8
  | .xidx => 9

/-- The code of a callback, in `CBRET` (R148) and in register `CBREQ` (R79). -/
def Callback.code : Callback → Nat
  | .produce => 1
  | .input => 2
  | .audio => 3

/-- `w[hi:lo]` as a natural number: the zero-extended field of R152. -/
def field (w : Word) (hi lo : Nat) : Nat := (w.extractLsb' lo (hi - lo + 1)).toNat

/-- The register a number names (R79); numbers from 10 are reserved. -/
def regOfNumber : Nat → Option Reg
  | 0 => some .ctrl
  | 1 => some .status
  | 2 => some .line
  | 3 => some .frame
  | 4 => some .hcnt
  | 5 => some .fault
  | 6 => some .maxline
  | 7 => some .out
  | 8 => some .cbreq
  | 9 => some .xidx
  | _ => none

/-- The callback a code names (R148). -/
def callbackOfCode : Nat → Option Callback
  | 1 => some .produce
  | 2 => some .input
  | 3 => some .audio
  | _ => none

/-- The LFSM sub-operations (R149, `OPC = 0xE`). -/
def lfsmOfSub : Nat → Option Instr
  | 0x0 => some .lEnter
  | 0x1 => some .lAck
  | 0x2 => some .lAdv
  | 0x3 => some .lSwap
  | 0x4 => some .lArm
  | 0x5 => some .lProduce
  | 0x6 => some .lFrameinc
  | 0x7 => some .lInput
  | 0x8 => some .lVsyncOn
  | 0x9 => some .lVsyncOff
  | 0xA => some .lAudio
  | 0xB => some .lExit
  | _ => none

/-- The TCH sub-operations (R149, `OPC = 0xF`). -/
def tchOfSub : Nat → Option Instr
  | 0x0 => some .tEnter
  | 0x1 => some .tBlank
  | 0x2 => some .tClr
  | 0x3 => some .tPoll
  | 0x4 => some .tDis
  | 0x5 => some .tDiscard
  | 0x6 => some .tExit
  | _ => none

/-- `ILLEGAL` where there is no operation. -/
def spelled : Option Instr → Decoded
  | some i => .operation i
  | none => .illegal

/-- `OPC` 0x0 (R142). -/
def decodeNop (w : Word) : Decoded := if w = 0 then .operation .nop else .illegal

/-- `OPC` 0x1, format N (R143). -/
def decodeTick (w : Word) : Decoded :=
  if field w 27 16 = 0 ∧ field w 15 0 ≠ 0 then .operation (.tick (w.extractLsb' 0 16)) else .illegal

/-- `OPC` 0x2, format C (R144, R145). -/
def decodeWrctrl (w : Word) : Decoded :=
  if field w 27 3 = 0 then .operation (.wrctrl (w.extractLsb' 0 16)) else .illegal

/-- `OPC` 0x3, format R (R146). -/
def decodeRdreg (w : Word) : Decoded :=
  if field w 27 24 = 0 ∧ field w 15 0 = 0 then spelled ((regOfNumber (field w 23 16)).map .rdreg) else .illegal

/-- `OPC` 0x4, format B (R147). -/
def decodeBufw (w : Word) : Decoded :=
  .operation (.bufw (w.getLsbD 27) (w.extractLsb' 16 11) (w.extractLsb' 0 16))

/-- `OPC` 0x5, format B (R147). -/
def decodeBufr (w : Word) : Decoded :=
  if field w 15 0 = 0 then .operation (.bufr (w.getLsbD 27) (w.extractLsb' 16 11)) else .illegal

/-- `OPC` 0x6, format K (R148). -/
def decodeCbret (w : Word) : Decoded :=
  if field w 27 2 = 0 then spelled ((callbackOfCode (field w 1 0)).map .cbret) else .illegal

/-- `OPC` 0xE, format S (R149). -/
def decodeLfsm (w : Word) : Decoded :=
  if field w 23 0 = 0 then spelled (lfsmOfSub (field w 27 24)) else .illegal

/-- `OPC` 0xF, format S (R149). -/
def decodeTch (w : Word) : Decoded :=
  if field w 23 0 = 0 then spelled (tchOfSub (field w 27 24)) else .illegal

/-- The decoder (R153), total on all words; `OPC` 0x7 to 0xD is reserved (R141, R150). -/
def decode (w : Word) : Decoded :=
  match field w 31 28 with
  | 0x0 => decodeNop w
  | 0x1 => decodeTick w
  | 0x2 => decodeWrctrl w
  | 0x3 => decodeRdreg w
  | 0x4 => decodeBufw w
  | 0x5 => decodeBufr w
  | 0x6 => decodeCbret w
  | 0xE => decodeLfsm w
  | 0xF => decodeTch w
  | _ => .illegal

/-- A format S word: `OPC`, `SUB`, zeros (R149). -/
def encodeMicro (opc sub : BitVec 4) : Word := opc ++ sub ++ (0 : BitVec 24)

/-- The word of an operation (R142 to R149); of an ill-formed operation, a word that spells nothing. -/
def encode : Instr → Word
  | .nop => 0
  | .tick n => (0x1 : BitVec 4) ++ (0 : BitVec 12) ++ n
  | .wrctrl d => (0x2 : BitVec 4) ++ (0 : BitVec 12) ++ d
  | .rdreg r => (0x3 : BitVec 4) ++ (0 : BitVec 4) ++ BitVec.ofNat 8 r.number ++ (0 : BitVec 16)
  | .bufw b i v => (0x4 : BitVec 4) ++ BitVec.ofBool b ++ i ++ v
  | .bufr b i => (0x5 : BitVec 4) ++ BitVec.ofBool b ++ i ++ (0 : BitVec 16)
  | .cbret k => (0x6 : BitVec 4) ++ (0 : BitVec 26) ++ BitVec.ofNat 2 k.code
  | .lEnter => encodeMicro 0xE 0x0
  | .lAck => encodeMicro 0xE 0x1
  | .lAdv => encodeMicro 0xE 0x2
  | .lSwap => encodeMicro 0xE 0x3
  | .lArm => encodeMicro 0xE 0x4
  | .lProduce => encodeMicro 0xE 0x5
  | .lFrameinc => encodeMicro 0xE 0x6
  | .lInput => encodeMicro 0xE 0x7
  | .lVsyncOn => encodeMicro 0xE 0x8
  | .lVsyncOff => encodeMicro 0xE 0x9
  | .lAudio => encodeMicro 0xE 0xA
  | .lExit => encodeMicro 0xE 0xB
  | .tEnter => encodeMicro 0xF 0x0
  | .tBlank => encodeMicro 0xF 0x1
  | .tClr => encodeMicro 0xF 0x2
  | .tPoll => encodeMicro 0xF 0x3
  | .tDis => encodeMicro 0xF 0x4
  | .tDiscard => encodeMicro 0xF 0x5
  | .tExit => encodeMicro 0xF 0x6

/-- The register's name in the assembler syntax (R156). -/
def Reg.name : Reg → String
  | .ctrl => "CTRL"
  | .status => "STATUS"
  | .line => "LINE"
  | .frame => "FRAME"
  | .hcnt => "HCNT"
  | .fault => "FAULT"
  | .maxline => "MAXLINE"
  | .out => "OUT"
  | .cbreq => "CBREQ"
  | .xidx => "XIDX"

/-- The callback's name in the assembler syntax (R156). -/
def Callback.name : Callback → String
  | .produce => "PRODUCE"
  | .input => "INPUT"
  | .audio => "AUDIO"

/-- An operation in the assembler syntax of R156. -/
def Instr.assembly : Instr → String
  | .nop => "NOP"
  | .tick n => "TICK " ++ toString n.toNat
  | .wrctrl d => "WRCTRL " ++ toString d.toNat
  | .rdreg r => "RDREG " ++ r.name
  | .bufw b i v => "BUFW " ++ toString b.toNat ++ ", " ++ toString i.toNat ++ ", " ++ toString v.toNat
  | .bufr b i => "BUFR " ++ toString b.toNat ++ ", " ++ toString i.toNat
  | .cbret k => "CBRET " ++ k.name
  | .lEnter => "L.ENTER"
  | .lAck => "L.ACK"
  | .lAdv => "L.ADV"
  | .lSwap => "L.SWAP"
  | .lArm => "L.ARM"
  | .lProduce => "L.PRODUCE"
  | .lFrameinc => "L.FRAMEINC"
  | .lInput => "L.INPUT"
  | .lVsyncOn => "L.VSYNC_ON"
  | .lVsyncOff => "L.VSYNC_OFF"
  | .lAudio => "L.AUDIO"
  | .lExit => "L.EXIT"
  | .tEnter => "T.ENTER"
  | .tBlank => "T.BLANK"
  | .tClr => "T.CLR"
  | .tPoll => "T.POLL"
  | .tDis => "T.DIS"
  | .tDiscard => "T.DISCARD"
  | .tExit => "T.EXIT"

/-- The pseudo-operation `START` (R157). -/
def Instr.start : List Instr := [.wrctrl 7]

/-- The pseudo-operation `WAIT n` (R157). -/
def Instr.wait (n : BitVec 16) : List Instr := [.tick n]

/-- The pseudo-operation `FILL b, v` (R157): one `BUFW` per visible pixel, from cell 0 up. -/
def Instr.fill (c : Config) (b : Bool) (v : BitVec 16) : List Instr :=
  (List.range c.visiblePixels).map fun i => .bufw b (BitVec.ofNat 11 i) v

/-- The pseudo-operations `RET.P`, `RET.I`, `RET.A` (R157). -/
def Instr.ret (k : Callback) : List Instr := [.cbret k]

/-- The operation a decoded word is, if any. -/
def decodedInstr : Decoded → Option Instr
  | .operation i => some i
  | .illegal => none

/-- The operation this decoder reads from an opcode-table row's bits: every operation is one 32-bit word (R155), its bits
numbered as the table numbers them. -/
def decodeTableWord (_nbits w : Nat) : Option Instr := decodedInstr (decode (BitVec.ofNat 32 w))

end Sys2Proof
end

