-- ==== Sys2Proof/Machine/State.lean ====
section
/-! DEFINITION. The state of the core (10_state R40 to R72, the buffers of 20_memory R100), the reasons a step stops, and
the state after reset (R78, R102, R450). -/

namespace Sys2Proof.Machine

/-- HardwareArmState (R52). -/
inductive ArmState where
  | idle
  | armed
  | streaming
  deriving DecidableEq, Repr

/-- The steps of the LFSM's step pointer (R60); `NONE` is the absence of one. -/
inductive LStep where
  | ack
  | adv
  | swap
  | arm
  | produce
  | frameinc
  | input
  | vsyncOn
  | vsyncOff
  | audio
  | exit
  deriving DecidableEq, Repr

/-- The steps of the TCH's step pointer (R62); `NONE` is the absence of one. -/
inductive TStep where
  | blank
  | clr
  | poll
  | dis
  | discard
  | exit
  deriving DecidableEq, Repr

/-- The fault codes of R402, in the order of their bits. -/
inductive FaultCode where
  | deadlineMiss
  | lateArm
  | armNotIdle
  | swapWhileStreaming
  | triggerWhileStreaming
  | ownership
  deriving DecidableEq, Repr

/-- The written pixel cells of the two line buffers, by cell key, strictly rising (R100). A cell not listed reads as
`unlistedCell` says: UNDEF, or `BLANK_VALUE` for the trailing cell (R102; log 12). -/
abbrev Memory := List (Nat × Pixel)

/-- The state of the core, and what a deterministic step needs beside it: the configuration, the host's stream and the
free inputs. -/
structure State where
  /-- The configuration (R6): never written (log 1). -/
  cfg : Config
  /-- The HTG is running (R43). -/
  run : Bool
  /-- The line interrupt is enabled (R44). -/
  lineIe : Bool
  /-- The transfer-complete interrupt is enabled (R45). -/
  tcIe : Bool
  /-- The line-period counter (R46). -/
  hcnt : BitVec 16
  /-- RasterPosition (R47). -/
  line : BitVec 16
  /-- FrameCounter (R48). -/
  frame : BitVec 32
  /-- VSyncLevel (R49). -/
  vsync : Bool
  /-- The index of the display buffer (R50): `false` is buffer 0. -/
  display : Bool
  /-- The two line buffers (R51, R100). -/
  mem : Memory
  /-- HardwareArmState (R52). -/
  arm : ArmState
  /-- The buffer index latched as the transfer's source (R53). -/
  src : Bool
  /-- The index of the next pixel cell the transfer moves (R54). -/
  xidx : BitVec 12
  /-- The transfer engine is enabled (R55). -/
  xferEn : Bool
  /-- The gated pixel clock is running (R56). -/
  pclkRun : Bool
  /-- The pixel-clock divider count (R57; the spec gives it no width). -/
  pdiv : Nat
  /-- The output register (R58). -/
  out : Pixel
  /-- The LFSM is running a line (R59). -/
  lfsmActive : Bool
  /-- The LFSM step pointer (R60). -/
  lpc : Option LStep
  /-- The TCH is running (R61). -/
  tchActive : Bool
  /-- The TCH step pointer (R62). -/
  tpc : Option TStep
  /-- The HTG's period interrupt flag (R63). -/
  lineFlag : Bool
  /-- The line interrupt is pending (R64). -/
  linePend : Bool
  /-- The transfer-complete flag (R65). -/
  tcFlag : Bool
  /-- The TC interrupt is pending (R66). -/
  tcPend : Bool
  /-- A written clear of the flag has not yet taken effect (R67). -/
  tcClrPend : Bool
  /-- The callback requested and not yet returned (R68). -/
  cbreq : Option Callback
  /-- The sticky fault record (R69, R82). -/
  fault : BitVec 6
  /-- The model mark of a refused run (R70): set by `refuse`, read by no operation (log 6). -/
  refused : Bool
  /-- The worst observed per-line duration (R71). -/
  maxline : BitVec 32
  /-- Ticks since the current `L_ENTER` (R72). -/
  lineTicks : BitVec 32
  /-- The model's own: the host stream still to be consumed (R158; log 7). -/
  stream : List Word
  /-- The model's own: ticks of the current `TICK n` still to come (R13; log 10). -/
  ticksLeft : BitVec 16
  /-- The model's own: whose turn it is, where both may step, oldest first (R4; log 4). -/
  turns : List Turn
  /-- The model's own: the free inputs `draw x in S` takes, oldest first (R12; log 3). -/
  draws : List (BitVec 16)
  /-- The model's own: how many free values of `Config` have been taken (log 3, log 4). -/
  drawn : Nat
  /-- The model's own: the results returned to the host, newest first (R342, R344; log 11). -/
  replies : List Word
  deriving DecidableEq, Repr

/-- Why the machine stops with a fault. -/
inductive Fault where
  /-- Raised by `step` and by every operation in a state whose fault record is not 0: no agent has a step (R404). The
  step that raised the fault answered a next state with its bit set (R403; log 5). Safe: nothing happens after a fault. -/
  | quiescent (record : BitVec 6)
  deriving DecidableEq, Repr

/-- The reasons of `refuse(reason)`. Every one is safe: the run ends and proves nothing (R405). -/
inductive Reason where
  /-- `ILLEGAL` (R150): raised by the fetch of a word that spells no operation, and by `TICK 0` and a `WRCTRL` with
  `d[15:3] ≠ 0`, which no word spells. Safe. -/
  | illegal
  /-- `SEQ_WORD` (R151): raised by the fetch of a class S word from the host stream. Safe. -/
  | seqWord
  /-- `WRCTRL_AFTER_START` (R341): raised by `WRCTRL` once `run = 1`. Safe. -/
  | wrctrlAfterStart
  /-- `BUFW_INDEX` (R343): raised by `BUFW` with `i ≥ VISIBLE_PIXELS`. Safe. -/
  | bufwIndex
  /-- `BUFW_VALUE` (R343): raised by `BUFW` with a value wider than a pixel. Safe. -/
  | bufwValue
  /-- `BUFR_INDEX` (R344): raised by `BUFR` with `i > VISIBLE_PIXELS`. Safe. -/
  | bufrIndex
  /-- `CBRET_MISMATCH` (R345): raised by `CBRET` of a callback not requested. Safe. -/
  | cbretMismatch
  /-- `BAD_CONFIG` (R9, R451): raised by `step` and every operation in a configuration that is not well formed. Safe. -/
  | badConfig
  /-- Raised by a micro-operation whose enabling condition (R262, R317) does not hold; `step` never runs one (log 16). Safe. -/
  | notEnabled
  /-- Raised by an LFSM micro-operation that is no step of the current line (R261), in states no run reaches (log 15). Safe. -/
  | outOfSequence
  /-- Raised by a pixel edge whose cell lies outside the buffer (R104, R107), in states no run reaches (log 14). Safe. -/
  | noCell
  deriving DecidableEq, Repr

/-- How a step ends without a meaning. -/
inductive Refusal where
  /-- Raised by `refuse(reason)` (R405): why, and the state the run ended in, its mark `refused` set (R70; log 6). Safe:
  the run proves nothing. -/
  | refuse (reason : Reason) (ended : State)
  /-- Raised by `step` in a state whose mark is set: no agent steps further (R405; log 6). Safe. -/
  | runRefused
  /-- Raised by an arm of `exec` whose instruction has no meaning yet. No arm raises it. Safe. -/
  | notModelled (mnemonic : String)
  deriving DecidableEq, Repr

/-- The outcome of one operation or step. -/
abbrev Result := Host.Outcome State Fault Refusal

/-- The state right after reset in a given configuration (R78, R102, R450): the HTG stopped, nothing enabled, pending or
running, the output blank, every pixel cell but the trailing ones UNDEF (none is listed). -/
def State.resetWith (c : Config) : State where
  cfg := c
  run := false
  lineIe := false
  tcIe := false
  hcnt := 0
  line := 0
  frame := 0
  vsync := false
  display := false
  mem := []
  arm := .idle
  src := false
  xidx := 0
  xferEn := false
  pclkRun := false
  pdiv := 0
  out := c.blankValue
  lfsmActive := false
  lpc := none
  tchActive := false
  tpc := none
  lineFlag := false
  linePend := false
  tcFlag := false
  tcPend := false
  tcClrPend := false
  cbreq := none
  fault := 0
  refused := false
  maxline := 0
  lineTicks := 0
  stream := []
  ticksLeft := 0
  turns := []
  draws := []
  drawn := 0
  replies := []

/-- The machine right after reset, in the configuration of the spec's examples (DESIGN CHOICE, log 1). -/
def State.reset : State := State.resetWith Config.cfgT

end Sys2Proof.Machine
end

