-- ==== Sys2Proof/Machine/Params.lean ====
section
/-! DEFINITION. What is computed from the configuration: the derived parameters (00_scope R8), well-formedness (R9), the
placement (20_memory R101, R108, R110), the raster decoder and the input window (42_lfsm R260), and the steps of one line
(R261). -/

namespace Sys2Proof.Machine

/-- `LEN = VISIBLE_PIXELS + 1`, the transfer length (R8). -/
def len (c : Config) : Nat := c.visiblePixels + 1

/-- `TOTAL`, the lines of a frame (R8). -/
def total (c : Config) : Nat := c.vVisible + c.vFront + c.vSync + c.vBack

/-- R9 item (1). -/
abbrev PeriodOk (c : Config) : Prop := 2 ≤ c.hPeriod ∧ c.hPeriod ≤ 65536
/-- R9 item (2). -/
abbrev HsyncOk (c : Config) : Prop := 1 ≤ c.hsyncWidth ∧ c.hsyncWidth < c.hPeriod
/-- R9 item (3). -/
abbrev TriggerOk (c : Config) : Prop := 1 ≤ c.triggerOffset ∧ c.triggerOffset < c.hPeriod
/-- R9 item (4). -/
abbrev PixelDivOk (c : Config) : Prop := 1 ≤ c.pixelDiv
/-- R9 item (5). -/
abbrev LengthOk (c : Config) : Prop := 1 ≤ c.visiblePixels ∧ len c ≤ 2048
/-- R9 item (6): the whole transfer ends inside the period that triggered it. -/
abbrev TransferFits (c : Config) : Prop := c.triggerOffset + len c * c.pixelDiv < c.hPeriod
/-- R9 item (7). -/
abbrev LineCountsOk (c : Config) : Prop :=
  1 ≤ c.vVisible ∧ 1 ≤ c.vFront ∧ 1 ≤ c.vSync ∧ 1 ≤ c.vBack ∧ total c ≤ 65536
/-- R9 item (8): the two indices bound the SYNC region the counts define (90_conflicts C15). -/
abbrev VsyncLinesOk (c : Config) : Prop :=
  c.vsyncOnLine = c.vVisible + c.vFront ∧ c.vsyncOffLine = c.vsyncOnLine + c.vSync
/-- R9 item (9): the input window is a sub-range of the front porch. -/
abbrev InputWindowOk (c : Config) : Prop :=
  1 ≤ c.inputWinLen ∧ c.vVisible ≤ c.inputWinStart ∧ c.inputWinStart + c.inputWinLen ≤ c.vsyncOnLine
/-- R9 item (10). -/
abbrev PixelOk (c : Config) : Prop := 1 ≤ c.pixelBits ∧ c.pixelBits ≤ 16 ∧ c.blankValue.toNat < 2 ^ c.pixelBits
/-- The buffers stand at multiples of `BUF_ALIGN`, "checked before start" (R101, R110; log 17). -/
abbrev PlacementOk (c : Config) : Prop := c.bufBase0 % c.bufAlign = 0 ∧ c.bufBase1 % c.bufAlign = 0

/-- A well-formed configuration: R9 items (1) to (10), and the placement. A model refuses to start from any other
(`BAD_CONFIG`, R405). -/
def configOk (c : Config) : Bool :=
  decide (PeriodOk c) && decide (HsyncOk c) && decide (TriggerOk c) && decide (PixelDivOk c) && decide (LengthOk c) &&
    decide (TransferFits c) && decide (LineCountsOk c) && decide (VsyncLinesOk c) && decide (InputWindowOk c) &&
    decide (PixelOk c) && decide (PlacementOk c)

/-- `region(l)`: a pure function of the raster position (R260). -/
def region (c : Config) (l : Nat) : Region :=
  if l < c.vVisible then .visible
  else if l < c.vsyncOnLine then .frontPorch
  else if l < c.vsyncOffLine then .sync
  else .backPorch

/-- `inwin(l)`: the line lies in the input-sampling window (R260). -/
abbrev InWindow (c : Config) (l : Nat) : Prop := c.inputWinStart ≤ l ∧ l < c.inputWinStart + c.inputWinLen

/-- `seq(l)`: the steps the LFSM performs, in order, once `L_ADV` has set the line to `l` (R261). -/
def lineSteps (c : Config) (l : Nat) : List LStep :=
  (if l < c.vVisible then [.swap, .arm, .produce] else []) ++
  (if l = c.vVisible then [.frameinc] else []) ++
  (if InWindow c l then [.input] else []) ++
  (if l = c.vsyncOnLine then [.vsyncOn] else []) ++
  (if l = c.vsyncOffLine then [.vsyncOff] else []) ++
  [.audio, .exit]

/-- The element after `x` in a list of steps: `next(x)` of R261. -/
def stepAfter (x : LStep) : List LStep → Option LStep
  | [] => none
  | a :: rest => if a = x then rest.head? else stepAfter x rest

/-- The address of register number `r` in the register window (R108). No operation uses it. -/
def regAddr (c : Config) (r : Nat) : Nat := c.regBase + 4 * r

/-- The address of line buffer 0 (`false`) or 1 (`true`) (R101). No operation uses it. -/
def bufBase (c : Config) (b : Bool) : Nat := if b then c.bufBase1 else c.bufBase0

end Sys2Proof.Machine
end

