-- ==== Sys2Proof/Machine/Ops.lean ====
section
/-! DEFINITION. The shared operations: the guard every operation runs under, the fault record, the free draws, the pixel
cells (20_memory R104, R105), the entry to and the return from an interrupt (60_exceptions R410, R411), and the enabling of
the micro-operations (42_lfsm R262, 43_tch R317). -/

namespace Sys2Proof.Machine

/-- `refuse(reason)` (R12, R405): sets the mark `refused` and ends the run, with no next state. -/
def refuse {α : Type} (reason : Reason) (s : State) : Host.Outcome α Fault Refusal :=
  .refused (.refuse reason { s with refused := true })

/-- The guard of every operation and of every step: a configuration that is not well formed is refused (R9, R451), a
faulted state is quiescent (R404). -/
def live {α : Type} (s : State) (k : Host.Outcome α Fault Refusal) : Host.Outcome α Fault Refusal :=
  if configOk s.cfg then (if s.fault = 0 then k else .fault (.quiescent s.fault)) else refuse .badConfig s

/-! ### Faults (R402, R403) -/

/-- The bit of a fault code in the fault record (R402, R82). -/
def faultBit : FaultCode → BitVec 6
  | .deadlineMiss => 0b000001
  | .lateArm => 0b000010
  | .armNotIdle => 0b000100
  | .swapWhileStreaming => 0b001000
  | .triggerWhileStreaming => 0b010000
  | .ownership => 0b100000

/-- `raise Fault(F)` (R403): sets the code's bit; what the step wrote before it is in `s`, and the step ends here. -/
def raiseFault (f : FaultCode) (s : State) : State := { s with fault := s.fault ||| faultBit f }

/-! ### Free inputs (`draw x in S`, R12) -/

/-- Takes the next free input: the oldest listed one, else a free value of `Config` (log 3). -/
def drawWord (s : State) : BitVec 16 × State :=
  match s.draws with
  | v :: rest => (v, { s with draws := rest })
  | [] => (Config.freeDraw s.drawn, { s with drawn := s.drawn + 1 })

/-- `draw x in {0, 1}`: bit 0 of the next free input. -/
def drawBit (s : State) : Bool × State := ((drawWord s).1.getLsbD 0, (drawWord s).2)

/-- `draw v in [0, 2^PIXEL_BITS)`: the low `PIXEL_BITS` bits of the next free input. -/
def drawPixel (s : State) : Pixel × State :=
  (BitVec.ofNat 16 ((drawWord s).1.toNat % 2 ^ s.cfg.pixelBits), (drawWord s).2)

/-- Whose step comes next, where both may step (R4): the oldest listed turn, else a free value of `Config` (log 4). -/
def drawTurn (s : State) : Turn × State :=
  match s.turns with
  | t :: rest => (t, { s with turns := rest })
  | [] => (Config.freeTurn s.drawn, { s with drawn := s.drawn + 1 })

/-! ### Pixel cells (R100 to R107) -/

/-- The key of cell `(b, i)`: the operand bits `B` and `IDX` of a format B word read as one number (R147). Every existing
cell has `i < 2048` (R9 item (5)), so no two cells share a key. -/
def cellKey (b : Bool) (i : Nat) : Nat := (if b then 2048 else 0) + i

/-- What a cell that nothing has written holds (R102, R103): the trailing cell `BLANK_VALUE`, every other UNDEF. -/
def unlistedCell (c : Config) (i : Nat) : Option Pixel := if i = c.visiblePixels then some c.blankValue else none

/-- The listed value under a key, if any. -/
def memFind (k : Nat) : Memory → Option Pixel
  | [] => none
  | (k', v) :: rest => if k = k' then some v else memFind k rest

/-- Writes one key, keeping the keys strictly rising. -/
def memInsert (k : Nat) (v : Pixel) : Memory → Memory
  | [] => [(k, v)]
  | (k', v') :: rest =>
    if k < k' then (k, v) :: (k', v') :: rest
    else if k = k' then (k, v) :: rest
    else (k', v') :: memInsert k v rest

/-- The content of cell `buf[b][i]`: a pixel value, or none for UNDEF (R100). -/
def cell (s : State) (b : Bool) (i : Nat) : Option Pixel :=
  match memFind (cellKey b i) s.mem with
  | some v => some v
  | none => unlistedCell s.cfg i

/-- `MemRead(b, i)` (R104): the cell's value; for UNDEF a fresh draw, and the cell stays UNDEF. -/
def memRead (b : Bool) (i : Nat) (s : State) : Pixel × State :=
  match cell s b i with
  | some v => (v, s)
  | none => drawPixel s

/-- `MemWrite(b, i, v)` (R105), for `i < VISIBLE_PIXELS`. -/
def memWrite (b : Bool) (i : Nat) (v : Pixel) (s : State) : State := { s with mem := memInsert (cellKey b i) v s.mem }

/-- A listed cell: an existing cell below the trailing one, whose value is a pixel value. Such a cell, unlisted, is UNDEF,
so no listed entry equals what an unlisted one reads as (R102). -/
abbrev ListedOk (c : Config) (e : Nat × Pixel) : Prop :=
  e.1 < 4096 ∧ e.1 % 2048 < c.visiblePixels ∧ e.2.toNat < 2 ^ c.pixelBits

/-- The canonical form of the memory: keys strictly rising, every entry a listed cell. -/
abbrev Memory.wf (c : Config) (m : Memory) : Prop := m.Pairwise (fun a b => a.1 < b.1) ∧ ∀ e ∈ m, ListedOk c e

/-! ### Entry to and return from an interrupt (R401, R410, R411) -/

/-- The two interrupt sources (R401). -/
inductive IrqSource where
  | line
  | tc
  deriving DecidableEq, Repr

/-- Taking an interrupt (R410): the pending bit is cleared, the sequencer is active and points at its first step; nothing
is saved. -/
def takeInterrupt : IrqSource → State → State
  | .line, s => { s with linePend := false, lfsmActive := true, lpc := some .ack }
  | .tc, s => { s with tcPend := false, tchActive := true, tpc := some .blank }

/-- Returning from an interrupt (R411): the sequencer is no longer active; nothing is restored. -/
def returnInterrupt : IrqSource → State → State
  | .line, s => { s with lfsmActive := false, lpc := none }
  | .tc, s => { s with tchActive := false, tpc := none }

/-! ### Enabling of the micro-operations (R262, R317) -/

/-- The TCH leaves the LFSM room (R262): it is not running, and TC is not both pending and enabled. -/
abbrev LfsmFree (s : State) : Prop := s.tchActive = false ∧ ¬(s.tcPend = true ∧ s.tcIe = true)

/-- `L_ENTER` is enabled, in a state that is not faulted (R262). -/
abbrev LEnterEnabled (s : State) : Prop :=
  s.lfsmActive = false ∧ s.linePend = true ∧ s.lineIe = true ∧ LfsmFree s

/-- The LFSM micro-operation of step `x` is enabled, in a state that is not faulted (R262). -/
abbrev LfsmEnabled (x : LStep) (s : State) : Prop :=
  s.lfsmActive = true ∧ s.lpc = some x ∧ s.cbreq = none ∧ LfsmFree s

/-- `T_ENTER` is enabled, in a state that is not faulted (R317). -/
abbrev TEnterEnabled (s : State) : Prop := s.tchActive = false ∧ s.tcPend = true ∧ s.tcIe = true

/-- The TCH micro-operation of step `x` is enabled, in a state that is not faulted (R317). -/
abbrev TchEnabled (x : TStep) (s : State) : Prop := s.tchActive = true ∧ s.tpc = some x

/-- The LFSM performs step `x` on the current line: the first two steps on every line, any other where `seq(line)` lists it
(R261). -/
abbrev Performs (x : LStep) (s : State) : Prop :=
  x = .ack ∨ x = .adv ∨ x ∈ lineSteps s.cfg s.line.toNat

/-- `next(x)` on the current line (R261). -/
def nextLStep (x : LStep) (s : State) : Option LStep := stepAfter x (lineSteps s.cfg s.line.toNat)

/-- An LFSM micro-operation: under the guard, when enabled (R262), where the line performs it (R261). -/
def lfsmOp (x : LStep) (s : State) (k : Result) : Result :=
  live s (if LfsmEnabled x s then (if Performs x s then k else refuse .outOfSequence s) else refuse .notEnabled s)

/-- A TCH micro-operation: under the guard, when enabled (R317). -/
def tchOp (x : TStep) (s : State) (k : Result) : Result :=
  live s (if TchEnabled x s then k else refuse .notEnabled s)

/-- The outcome of an operation with its state changed: the next state, or the one a refused run ended in. -/
def mapState (f : State → State) : Result → Result
  | .next s => .next (f s)
  | .fault r => .fault r
  | .refused (.refuse reason s) => .refused (.refuse reason (f s))
  | .refused r => .refused r

end Sys2Proof.Machine
end

