-- ==== Sys2Proof/Machine/Operands.lean ====
section
/-! DEFINITION. The register view (10_state R79 to R82), the derived outputs (R73, R74, R49), and the result a host read
returns (44_host R342, R344). -/

namespace Sys2Proof.Machine

/-- `hsync_asserted` (R73). -/
def hsyncAsserted (s : State) : Bool := s.run && decide (s.hcnt.toNat < s.cfg.hsyncWidth)

/-- The electrical level of the horizontal-sync pin: asserted XNOR active-high (R73). -/
def hsyncLevel (s : State) : Bool := hsyncAsserted s == s.cfg.hsyncActiveHigh

/-- The vertical-sync pin and its electrical level: `vsync` XNOR active-high (R49). -/
def vsyncOutput (s : State) : Nat × Bool := (s.cfg.vsyncPin, s.vsync == s.cfg.vsyncActiveHigh)

/-- The pixel port shows the output register (R58, R111). -/
def pixelPort (s : State) : Pixel := s.out

/-- The draw buffer (R74). -/
def drawBuffer (s : State) : Bool := !s.display

/-- Register `CTRL` (R80). -/
def ctrlReg (s : State) : Word :=
  (0 : BitVec 29) ++ BitVec.ofBool s.tcIe ++ BitVec.ofBool s.lineIe ++ BitVec.ofBool s.run

/-- The `ARM` field of `STATUS` (R81). -/
def armCode : ArmState → BitVec 2
  | .idle => 0
  | .armed => 1
  | .streaming => 2

/-- Register `STATUS` (R81), from bit 12 down. -/
def statusReg (s : State) : Word :=
  (0 : BitVec 19) ++ BitVec.ofBool s.pclkRun ++ BitVec.ofBool s.xferEn ++ BitVec.ofBool s.tcPend ++
    BitVec.ofBool s.linePend ++ BitVec.ofBool s.tchActive ++ BitVec.ofBool s.lfsmActive ++ BitVec.ofBool s.display ++
    BitVec.ofBool (hsyncAsserted s) ++ BitVec.ofBool s.vsync ++ armCode s.arm ++ BitVec.ofBool s.tcFlag ++
    BitVec.ofBool s.lineFlag

/-- The code of the outstanding callback: NONE 0 (R79, R345). -/
def cbreqCode : Option Callback → Nat
  | none => 0
  | some k => k.code

/-- The value `RDREG` reads from a register (R79), zero-extended to 32 bits (R11). -/
def readReg (r : Reg) (s : State) : Word :=
  match r with
  | .ctrl => ctrlReg s
  | .status => statusReg s
  | .line => s.line.setWidth 32
  | .frame => s.frame
  | .hcnt => s.hcnt.setWidth 32
  | .fault => s.fault.setWidth 32
  | .maxline => if s.cfg.diag then s.maxline else 0
  | .out => s.out.setWidth 32
  | .cbreq => BitVec.ofNat 32 (cbreqCode s.cbreq)
  | .xidx => s.xidx.setWidth 32

/-- The result of a host read goes back to the host (R342, R344; log 11). -/
def answer (w : Word) (s : State) : State := { s with replies := w :: s.replies }

/-- The cell index operand of format B (R147, R152). -/
def indexOperand (i : BitVec 11) : Nat := i.toNat

end Sys2Proof.Machine
end

