-- ==== Sys2Proof/Machine/HostOps.lean ====
section
/-! DEFINITION. The host operations (44_host). -/

namespace Sys2Proof.Machine

/-- `NOP` (R340). -/
def execNop (s : State) : Result := live s (.next s)

/-- `WRCTRL d` (R341). A `d` with `d[15:3] ≠ 0` spells no operation (R145). -/
def execWrctrl (d : BitVec 16) (s : State) : Result :=
  live s
    (if d.extractLsb' 3 13 ≠ 0 then refuse .illegal s
     else if s.run then refuse .wrctrlAfterStart s
     else .next { s with lineIe := d.getLsbD 1, tcIe := d.getLsbD 2, run := d.getLsbD 0 })

/-- `RDREG r` (R342). -/
def execRdreg (r : Reg) (s : State) : Result := live s (.next (answer (readReg r s) s))

/-- `BUFW b, i, v` (R343), its checks in this order (R409). -/
def execBufw (b : Bool) (i : BitVec 11) (v : BitVec 16) (s : State) : Result :=
  live s
    (if s.cfg.visiblePixels ≤ indexOperand i then refuse .bufwIndex s
     else if 2 ^ s.cfg.pixelBits ≤ v.toNat then refuse .bufwValue s
     else if s.run = true ∧ b = s.display then .next (raiseFault .ownership s)
     else .next (memWrite b (indexOperand i) v s))

/-- `BUFR b, i` (R344). -/
def execBufr (b : Bool) (i : BitVec 11) (s : State) : Result :=
  live s
    (if s.cfg.visiblePixels < indexOperand i then refuse .bufrIndex s
     else
      let r := memRead b (indexOperand i) s
      .next (answer (r.1.setWidth 32) r.2))

/-- `CBRET k` (R345). -/
def execCbret (k : Callback) (s : State) : Result :=
  live s (if s.cbreq = some k then .next { s with cbreq := none } else refuse .cbretMismatch s)

end Sys2Proof.Machine
end

