-- ==== Sys2Proof/Machine/Flags.lean ====
section
/-! DEFINITION. The flags and pending bits (10_state R63 to R67): every way one is set or cleared (60_exceptions R406). -/

namespace Sys2Proof.Machine

/-- The HTG latches its per-period interrupt (R203): the flag, and the pending bit if the interrupt is enabled. -/
def latchLine (s : State) : State :=
  { s with lineFlag := true, linePend := if s.lineIe then true else s.linePend }

/-- The line flag is cleared, with immediate effect (R63, R264). -/
def ackLine (s : State) : State := { s with lineFlag := false }

/-- The engine reports completion (R235): the flag, and the pending bit if the interrupt is enabled. -/
def latchTc (s : State) : State := { s with tcFlag := true, tcPend := if s.tcIe then true else s.tcPend }

/-- A clear of the completion flag takes effect (R206, R312). -/
def clearTc (s : State) : State := { s with tcFlag := false, tcClrPend := false }

/-- The flag-clear sub-step of a tick (R206): while a clear is pending, a draw says whether it takes effect now. -/
def flagClearTick (s : State) : State :=
  if s.tcClrPend then
    (if (drawBit s).1 then clearTc (drawBit s).2 else (drawBit s).2)
  else s

/-- The write of a clear of the completion flag (R312): nothing to clear leaves none pending; else a draw says whether it
takes effect at the write or later. -/
def writeTcClear (s : State) : State :=
  if s.tcFlag then
    (if (drawBit s).1 then clearTc (drawBit s).2 else { (drawBit s).2 with tcClrPend := true })
  else { s with tcClrPend := false }

/-- Disabling the engine can re-assert the completion interrupt (R314): a draw says whether it does. -/
def spuriousTc (s : State) : State :=
  if (drawBit s).1 then { (drawBit s).2 with tcPend := true } else (drawBit s).2

end Sys2Proof.Machine
end

