-- ==== Sys2Proof/Machine/Pse.lean ====
section
/-! DEFINITION. The pixel streaming engine (41_pse): the trigger, pixel-clock and transfer parts of one tick. -/

namespace Sys2Proof.Machine

/-- `complete(s)` (R235): the engine disables its transfer and reports completion; it stays STREAMING. -/
def complete (s : State) : State := latchTc { s with xferEn := false }

/-- One pixel moves to the output register (R234), and after the `LEN`-th the transfer completes. -/
def movePixel (s : State) : State :=
  let r := memRead s.src s.xidx.toNat s
  let t := { r.2 with out := r.1, xidx := r.2.xidx + 1 }
  if t.xidx.toNat = len t.cfg then complete t else t

/-- `pse_edge(s)` (R234, R236): one pixel edge. A cell outside the buffer is no cell (R104; log 14). -/
def pseEdge (s : State) : Result :=
  if s.xferEn then
    (if s.xidx.toNat ≤ s.cfg.visiblePixels then .next (movePixel s) else refuse .noCell s)
  else .next s

/-- `pse_clock(s)` (R233): the gated pixel clock, one edge every `PIXEL_DIV` ticks. -/
def pseClock (s : State) : Result :=
  if s.pclkRun then
    (if s.pdiv + 1 < s.cfg.pixelDiv then .next { s with pdiv := s.pdiv + 1 } else pseEdge { s with pdiv := 0 })
  else .next s

/-- The trigger of an armed engine starts the pixel clock (R232). -/
def startStreaming (s : State) : State := { s with arm := .streaming, pclkRun := true, pdiv := 0 }

end Sys2Proof.Machine
end

