-- ==== Sys2Proof/Machine/Htg.lean ====
section
/-! DEFINITION. The horizontal timing generator and `TICK` (40_htg). -/

namespace Sys2Proof.Machine

/-- The value the line-period counter takes at the next tick (R202). -/
def nextHcnt (s : State) : Nat := (s.hcnt.toNat + 1) % s.cfg.hPeriod

/-- The line deadline is missed at a period start: the LFSM still runs the previous line, or has not acknowledged it
(R203). -/
abbrev DeadlineMissed (s : State) : Prop := s.lfsmActive = true ∨ s.lineFlag = true

/-- The diagnostics count of a tick (R207): saturating, while the LFSM runs. -/
def countLineTick (s : State) : State :=
  if s.lfsmActive then { s with lineTicks := if s.lineTicks = BitVec.allOnes 32 then s.lineTicks else s.lineTicks + 1 }
  else s

/-- The end of a tick: the flag clear, then the diagnostics count (R200). -/
def tickEnd (s : State) : State := countLineTick (flagClearTick s)

/-- The trigger sub-step (R232) of a tick, and what follows it; a fault ends the tick (R200). -/
def pseTrigger (s : State) : Result :=
  match s.arm with
  | .idle => .next (tickEnd s)
  | .armed => .next (tickEnd (startStreaming s))
  | .streaming => .next (raiseFault .triggerWhileStreaming s)

/-- The sub-steps of a tick from the pixel clock on, at count `h` (R200). -/
def tickEngine (h : Nat) (s : State) : Result :=
  match pseClock s with
  | .next t => if h = t.cfg.triggerOffset then pseTrigger t else .next (tickEnd t)
  | .fault r => .fault r
  | .refused r => .refused r

/-- One base-clock tick of a running generator (R200, R202, R203), from the counter on. -/
def tickRunning (s : State) : Result :=
  let h := nextHcnt s
  let t := { s with hcnt := BitVec.ofNat 16 h }
  if h = 0 then
    (if DeadlineMissed t then .next (raiseFault .deadlineMiss t) else tickEngine h (latchLine t))
  else tickEngine h t

/-- `tick1(s)` (R200): one base-clock tick; before start it changes nothing (R201). -/
def tick1 (s : State) : Result := if s.run then tickRunning s else .next s

/-- `TICK n` (R200): its first tick; the other `n - 1` are still to come, with other agents' steps allowed between them
(R13; log 10). `TICK 0` spells no operation (R150). -/
def execTick (n : BitVec 16) (s : State) : Result :=
  live s (if n = 0 then refuse .illegal s else mapState (fun t => { t with ticksLeft := n - 1 }) (tick1 s))

end Sys2Proof.Machine
end

