-- ==== Sys2Proof/Machine/Lfsm.lean ====
section
/-! DEFINITION. The line/frame state machine (42_lfsm): the twelve micro-operations. -/

namespace Sys2Proof.Machine

/-- The LFSM goes on to the next step of the line (R261). -/
def advanceLpc (x : LStep) (s : State) : State := { s with lpc := nextLStep x s }

/-- The LFSM requests a callback and waits on the host (R68, R262). -/
def requestCallback (k : Callback) (s : State) : State := { s with cbreq := some k }

/-- The line after `l` (R265). -/
def lineAfter (c : Config) (l : Nat) : Nat := if l + 1 = total c then 0 else l + 1

/-- `L_ENTER` (R263). -/
def execLEnter (s : State) : Result :=
  live s (if LEnterEnabled s then .next { takeInterrupt .line s with lineTicks := 0 } else refuse .notEnabled s)

/-- `L_ACK` (R264). -/
def execLAck (s : State) : Result :=
  lfsmOp .ack s (.next { ackLine s with out := s.cfg.blankValue, lpc := some .adv })

/-- `L_ADV` (R265). -/
def execLAdv (s : State) : Result :=
  lfsmOp .adv s
    (let l := lineAfter s.cfg s.line.toNat
     .next { s with line := BitVec.ofNat 16 l, lpc := (lineSteps s.cfg l).head? })

/-- `L_SWAP` (R266). -/
def execLSwap (s : State) : Result :=
  lfsmOp .swap s
    (if s.arm = .streaming then .next (raiseFault .swapWhileStreaming s)
     else .next { s with display := !s.display, lpc := some .arm })

/-- `L_ARM` (R267). -/
def execLArm (s : State) : Result :=
  lfsmOp .arm s
    (if s.arm ≠ .idle then .next (raiseFault .armNotIdle s)
     else if s.cfg.triggerOffset ≤ s.hcnt.toNat then .next (raiseFault .lateArm s)
     else .next { s with src := s.display, xidx := 0, xferEn := true, pdiv := 0, arm := .armed, lpc := some .produce })

/-- `L_PRODUCE` (R268). -/
def execLProduce (s : State) : Result := lfsmOp .produce s (.next (advanceLpc .produce (requestCallback .produce s)))

/-- `L_FRAMEINC` (R269). -/
def execLFrameinc (s : State) : Result :=
  lfsmOp .frameinc s (.next (advanceLpc .frameinc { s with frame := s.frame + 1 }))

/-- `L_INPUT` (R270). -/
def execLInput (s : State) : Result := lfsmOp .input s (.next (advanceLpc .input (requestCallback .input s)))

/-- `L_VSYNC_ON` (R271). -/
def execLVsyncOn (s : State) : Result := lfsmOp .vsyncOn s (.next (advanceLpc .vsyncOn { s with vsync := true }))

/-- `L_VSYNC_OFF` (R272). -/
def execLVsyncOff (s : State) : Result := lfsmOp .vsyncOff s (.next (advanceLpc .vsyncOff { s with vsync := false }))

/-- `L_AUDIO` (R273). -/
def execLAudio (s : State) : Result := lfsmOp .audio s (.next { requestCallback .audio s with lpc := some .exit })

/-- The diagnostics maximum (R71, R274). -/
def recordLine (s : State) : State :=
  if s.cfg.diag then { s with maxline := if s.maxline < s.lineTicks then s.lineTicks else s.maxline } else s

/-- `L_EXIT` (R274). -/
def execLExit (s : State) : Result := lfsmOp .exit s (.next (recordLine (returnInterrupt .line s)))

end Sys2Proof.Machine
end

