-- ==== Sys2Proof/Machine/Tch.lean ====
section
/-! DEFINITION. The transfer-complete handler (43_tch): the seven micro-operations. -/

namespace Sys2Proof.Machine

/-- `T_ENTER` (R310). -/
def execTEnter (s : State) : Result :=
  live s (if TEnterEnabled s then .next (takeInterrupt .tc s) else refuse .notEnabled s)

/-- `T_BLANK` (R311). -/
def execTBlank (s : State) : Result := tchOp .blank s (.next { s with out := s.cfg.blankValue, tpc := some .clr })

/-- `T_CLR` (R312). -/
def execTClr (s : State) : Result := tchOp .clr s (.next { writeTcClear s with tpc := some .poll })

/-- `T_POLL` (R313). -/
def execTPoll (s : State) : Result := tchOp .poll s (.next { s with tpc := some (if s.tcFlag then .clr else .dis) })

/-- The pixel clock and the transfer engine are disabled, and the engine is IDLE (R314). -/
def disableEngine (s : State) : State := { s with pclkRun := false, xferEn := false, pdiv := 0, arm := .idle }

/-- `T_DIS` (R314). -/
def execTDis (s : State) : Result := tchOp .dis s (.next { spuriousTc (disableEngine s) with tpc := some .discard })

/-- `T_DISCARD` (R315). -/
def execTDiscard (s : State) : Result := tchOp .discard s (.next { s with tcPend := false, tpc := some .exit })

/-- `T_EXIT` (R316). -/
def execTExit (s : State) : Result := tchOp .exit s (.next (returnInterrupt .tc s))

end Sys2Proof.Machine
end

