-- ==== Sys2Proof/Machine/Dispatch.lean ====
section
/-! DEFINITION. The dispatch: one arm per constructor of `Instr`, each a call of its meaning. -/

namespace Sys2Proof.Machine

def exec (i : Instr) (s : State) : Host.Outcome State Fault Refusal :=
  match i with
  | .nop => Sys2Proof.Machine.execNop s
  | .tick n => Sys2Proof.Machine.execTick n s
  | .wrctrl d => Sys2Proof.Machine.execWrctrl d s
  | .rdreg r => Sys2Proof.Machine.execRdreg r s
  | .bufw b j v => Sys2Proof.Machine.execBufw b j v s
  | .bufr b j => Sys2Proof.Machine.execBufr b j s
  | .cbret k => Sys2Proof.Machine.execCbret k s
  | .lEnter => Sys2Proof.Machine.execLEnter s
  | .lAck => Sys2Proof.Machine.execLAck s
  | .lAdv => Sys2Proof.Machine.execLAdv s
  | .lSwap => Sys2Proof.Machine.execLSwap s
  | .lArm => Sys2Proof.Machine.execLArm s
  | .lProduce => Sys2Proof.Machine.execLProduce s
  | .lFrameinc => Sys2Proof.Machine.execLFrameinc s
  | .lInput => Sys2Proof.Machine.execLInput s
  | .lVsyncOn => Sys2Proof.Machine.execLVsyncOn s
  | .lVsyncOff => Sys2Proof.Machine.execLVsyncOff s
  | .lAudio => Sys2Proof.Machine.execLAudio s
  | .lExit => Sys2Proof.Machine.execLExit s
  | .tEnter => Sys2Proof.Machine.execTEnter s
  | .tBlank => Sys2Proof.Machine.execTBlank s
  | .tClr => Sys2Proof.Machine.execTClr s
  | .tPoll => Sys2Proof.Machine.execTPoll s
  | .tDis => Sys2Proof.Machine.execTDis s
  | .tDiscard => Sys2Proof.Machine.execTDiscard s
  | .tExit => Sys2Proof.Machine.execTExit s

end Sys2Proof.Machine
end

