-- ==== Sys2Proof/Machine/Fetch.lean ====
section
/-! DEFINITION. What a step performs next: the enabled micro-operation of a sequencer (42_lfsm R262, 43_tch R317), or the
next operation of the host and environment stream (30_encoding R140, R150, R151, R158); and how a word is placed so that it
is what the next step performs. -/

namespace Sys2Proof.Machine

/-- The micro-operation of an LFSM step (R149). -/
def lfsmInstr : LStep → Instr
  | .ack => .lAck
  | .adv => .lAdv
  | .swap => .lSwap
  | .arm => .lArm
  | .produce => .lProduce
  | .frameinc => .lFrameinc
  | .input => .lInput
  | .vsyncOn => .lVsyncOn
  | .vsyncOff => .lVsyncOff
  | .audio => .lAudio
  | .exit => .lExit

/-- The micro-operation of a TCH step (R149). -/
def tchInstr : TStep → Instr
  | .blank => .tBlank
  | .clr => .tClr
  | .poll => .tPoll
  | .dis => .tDis
  | .discard => .tDiscard
  | .exit => .tExit

/-- The one micro-operation enabled in a state that is not faulted, if any: the TCH's first (R317, R407), else the LFSM's,
which waits while a callback is out (R262). -/
def sequencerOp (s : State) : Option Instr :=
  if s.tchActive then s.tpc.map tchInstr
  else if s.tcPend && s.tcIe then some .tEnter
  else if s.lfsmActive then (if s.cbreq = none then s.lpc.map lfsmInstr else none)
  else if s.linePend && s.lineIe then some .lEnter
  else none

/-- The stream has a step to make: ticks still to come, or a word. -/
def streamBusy (s : State) : Bool := s.ticksLeft != 0 || !s.stream.isEmpty

/-- The stream's next operation, and the state with its word consumed: first the ticks still to come of the last `TICK`
(R13), then the next word. A word that spells no operation, and a class S word, are refused (R150, R151). An empty stream
has none: the machine rests (log 9). -/
def fetchStream (s : State) : Host.Outcome (Option Instr × State) Fault Refusal :=
  if s.ticksLeft ≠ 0 then .next (some (.tick s.ticksLeft), s)
  else
    match s.stream with
    | [] => .next (none, s)
    | w :: rest =>
      match decode w with
      | .illegal => refuse .illegal s
      | .operation i => if i.opClass = .sequencer then refuse .seqWord s else .next (some i, { s with stream := rest })

/-- Where both may step, a turn says whose step it is (R4). -/
def chooseOp (i : Instr) (s : State) : Host.Outcome (Option Instr × State) Fault Refusal :=
  match drawTurn s with
  | (.sequencer, t) => .next (some i, t)
  | (.stream, t) => fetchStream t

/-- What the next step performs, and the state it performs it in. In a refused run no agent steps (R405): the mark is read
here, and by no operation (R70). -/
def nextOp (s : State) : Host.Outcome (Option Instr × State) Fault Refusal :=
  live s
    (if s.refused then .refused .runRefused
     else
      match sequencerOp s with
      | none => fetchStream s
      | some i => if streamBusy s then chooseOp i s else .next (some i, s))

/-! ### Placing a word -/

/-- The turn is listed where a choice would be drawn: both a micro-operation and the stream can step. -/
def withTurn (t : Turn) (s : State) : State :=
  if (sequencerOp s).isSome && streamBusy s then { s with turns := t :: s.turns } else s

/-- A word in front of the host stream, and no tick before it (log 7). -/
def placeStreamWord (w : Word) (s : State) : State :=
  withTurn .stream { s with stream := w :: s.stream, ticksLeft := 0 }

/-- A line on which the LFSM performs a step (R261). -/
def lineOfStep (x : LStep) (s : State) : BitVec 16 :=
  if Performs x s then s.line
  else
    BitVec.ofNat 16
      (match x with
       | .frameinc => s.cfg.vVisible
       | .input => s.cfg.inputWinStart
       | .vsyncOn => s.cfg.vsyncOnLine
       | .vsyncOff => s.cfg.vsyncOffLine
       | _ => 0)

/-- The LFSM points at a step and is free to perform it (log 8). -/
def placeLfsm (x : LStep) (s : State) : State :=
  withTurn .sequencer
    { s with lfsmActive := true, lpc := some x, cbreq := none, tchActive := false, tcPend := false, line := lineOfStep x s }

/-- The TCH points at a step (log 8). -/
def placeTch (x : TStep) (s : State) : State := withTurn .sequencer { s with tchActive := true, tpc := some x }

/-- The state in which a word's operation is what the next step performs: a sequencer's micro-operation is reached through
its pending interrupt or its step pointer (log 8), every other word through the stream. -/
def placeWord (w : Word) (s : State) : State :=
  match decode w with
  | .operation .lEnter =>
    withTurn .sequencer
      { s with lfsmActive := false, linePend := true, lineIe := true, tchActive := false, tcPend := false }
  | .operation .lAck => placeLfsm .ack s
  | .operation .lAdv => placeLfsm .adv s
  | .operation .lSwap => placeLfsm .swap s
  | .operation .lArm => placeLfsm .arm s
  | .operation .lProduce => placeLfsm .produce s
  | .operation .lFrameinc => placeLfsm .frameinc s
  | .operation .lInput => placeLfsm .input s
  | .operation .lVsyncOn => placeLfsm .vsyncOn s
  | .operation .lVsyncOff => placeLfsm .vsyncOff s
  | .operation .lAudio => placeLfsm .audio s
  | .operation .lExit => placeLfsm .exit s
  | .operation .tEnter => withTurn .sequencer { s with tchActive := false, tcPend := true, tcIe := true }
  | .operation .tBlank => placeTch .blank s
  | .operation .tClr => placeTch .clr s
  | .operation .tPoll => placeTch .poll s
  | .operation .tDis => placeTch .dis s
  | .operation .tDiscard => placeTch .discard s
  | .operation .tExit => placeTch .exit s
  | _ => placeStreamWord w s

end Sys2Proof.Machine
end

