-- ==== Sys2Proof/Machine/Step.lean ====
section
/-! DEFINITION. One step of the machine: one atomic step of one agent (00_scope R4, R5, R13). -/

namespace Sys2Proof.Machine

/-- One step: the operation `nextOp` finds is performed; where there is none, the machine rests. -/
def step (s : State) : Host.Outcome State Fault Refusal :=
  match nextOp s with
  | .next (some i, t) => exec i t
  | .next (none, t) => .next t
  | .fault r => .fault r
  | .refused r => .refused r

/-- `s` with one operation word placed where the next step takes its operation from (R155: every word has 32 bits). -/
def State.withFetchWord (s : State) (_nbits w : Nat) : State := placeWord (BitVec.ofNat 32 w) s

end Sys2Proof.Machine
end

