-- ==== Sys2Proof/Safety.lean ====
section
/-! DEFINITION. What claims about the machine are stated in: the invariant of its states, the real-time premises of
70_reset_and_hazards (R455 to R457, R461, R462), runs, and consecutive ticks. -/

namespace Sys2Proof.Safety

open Sys2Proof.Machine

/-- The guard of every operation holds: a well-formed configuration, and no fault (R9, R404). -/
abbrev Live (s : State) : Prop := configOk s.cfg = true ∧ s.fault = 0

/-- Agents have steps: the guard holds, and the run is not refused (R405). -/
abbrev CanStep (s : State) : Prop := Live s ∧ s.refused = false

/-- The values of the counters and of the output register lie in their ranges (R46, R47, R54, R57, R58). -/
abbrev InRange (s : State) : Prop :=
  s.hcnt.toNat < s.cfg.hPeriod ∧ s.line.toNat < total s.cfg ∧ s.xidx.toNat ≤ len s.cfg ∧
    s.pdiv < s.cfg.pixelDiv ∧ s.out.toNat < 2 ^ s.cfg.pixelBits

/-- Before start nothing has happened but host writes (R201, R450). -/
abbrev StoppedIdle (s : State) : Prop :=
  s.run = false → s.hcnt = 0 ∧ s.arm = .idle ∧ s.lfsmActive = false ∧ s.tchActive = false ∧ s.lineFlag = false ∧
    s.linePend = false ∧ s.tcFlag = false ∧ s.tcPend = false

/-- A step pointer is NONE exactly while its sequencer is not active (R60, R62), and points at a step of the current line
(R261). -/
abbrev PointersFit (s : State) : Prop :=
  (s.lfsmActive = true ↔ s.lpc ≠ none) ∧ (s.tchActive = true ↔ s.tpc ≠ none) ∧ (∀ x ∈ s.lpc, Performs x s)

/-- A callback is out only while the LFSM waits before the step that follows it (R68, R268, R270, R273). -/
abbrev CallbackFits (s : State) : Prop :=
  (s.cbreq = some .produce → s.lpc = some .audio) ∧ (s.cbreq = some .input → s.lpc = some .audio) ∧
    (s.cbreq = some .audio → s.lpc = some .exit)

/-- The line interrupt (R63, R64, R406): pending only while enabled and flagged, and not while the LFSM runs; while the LFSM
runs the flag is set exactly until `L_ACK`. -/
abbrev LineIrqFits (s : State) : Prop :=
  (s.linePend = true → s.lineIe = true ∧ s.lineFlag = true ∧ s.lfsmActive = false) ∧
    (s.lfsmActive = true → (s.lineFlag = true ↔ s.lpc = some .ack))

/-- The engine (R52 to R57, R230 to R236): the pixel clock runs exactly while STREAMING; an enabled transfer has cells to
move; armed means enabled from cell 0, before the trigger point, with this period's line interrupt served past `L_ARM`; a
streaming engine whose transfer has ended moved all `LEN` cells and left the port black. -/
abbrev EngineFits (s : State) : Prop :=
  (s.pclkRun = true ↔ s.arm = .streaming) ∧
    (s.xferEn = true → s.arm ≠ .idle ∧ s.xidx.toNat < len s.cfg) ∧
    (s.arm ≠ .idle → s.src = s.display) ∧
    (s.arm = .armed → s.xferEn = true ∧ s.xidx = 0 ∧ s.pdiv = 0 ∧ s.hcnt.toNat < s.cfg.triggerOffset ∧
      s.lineFlag = false ∧ s.linePend = false ∧ s.lpc ≠ some .ack ∧ s.lpc ≠ some .adv ∧ s.lpc ≠ some .swap) ∧
    (s.lpc = some .arm → s.arm = .idle) ∧
    (s.arm = .streaming → s.xferEn = false → s.xidx.toNat = len s.cfg ∧ s.out = s.cfg.blankValue)

/-- The completion flag and the TC interrupt (R65 to R67, R312, R317, R406): a flag only after a whole transfer, a pending
clear only inside the TCH's poll loop, a pending interrupt only while enabled. -/
abbrev TcIrqFits (s : State) : Prop :=
  (s.tcFlag = true → s.arm = .streaming ∧ s.xferEn = false) ∧
    (s.tcClrPend = true → s.tcFlag = true ∧ (s.tpc = some .clr ∨ s.tpc = some .poll)) ∧
    (s.tcPend = true → s.tcIe = true) ∧
    (s.tcPend = true → s.tchActive = false → s.tcFlag = true) ∧
    (s.arm = .streaming → s.xferEn = false → s.tchActive = false → s.tcFlag = true ∧ s.tcPend = s.tcIe)

/-- The TCH's steps (R310 to R316): it runs on a streaming engine whose transfer has ended, up to `T_DIS`, which finds the
flag clear, and on an idle one after it. -/
abbrev TchFits (s : State) : Prop :=
  (s.tchActive = true → s.tcIe = true) ∧
    (s.tpc = some .blank ∨ s.tpc = some .clr ∨ s.tpc = some .poll ∨ s.tpc = some .dis →
      s.arm = .streaming ∧ s.xferEn = false ∧ s.tcPend = false) ∧
    (s.tpc = some .dis → s.tcFlag = false) ∧
    (s.tpc = some .discard ∨ s.tpc = some .exit → s.arm = .idle ∧ s.out = s.cfg.blankValue) ∧
    (s.tpc = some .exit → s.tcPend = false)

/-- Vertical sync (R277): asserted exactly in the SYNC region, but between `L_ADV` and the `L_VSYNC` step of the two lines
where the region changes. -/
abbrev VsyncFits (s : State) : Prop :=
  if s.lpc = some .vsyncOn then s.vsync = false
  else if s.lpc = some .vsyncOff then s.vsync = true
  else (s.vsync = true ↔ region s.cfg s.line.toNat = .sync)

/-- The invariant of the machine: every state a run reaches meets it. -/
structure MachineInv (s : State) : Prop where
  config : configOk s.cfg = true
  range : InRange s
  memory : Memory.wf s.cfg s.mem
  stopped : StoppedIdle s
  pointers : PointersFit s
  callback : CallbackFits s
  lineIrq : LineIrqFits s
  engine : EngineFits s
  tcIrq : TcIrqFits s
  tch : TchFits s
  vsync : VsyncFits s

/-- An operation meets the real-time obligations (R455, R456, R457) and the ownership rule (R106) in a state. -/
def OnTime (i : Instr) (s : State) : Prop :=
  match i with
  | .tick _ =>
    s.run = true →
      (nextHcnt s = 0 → ¬DeadlineMissed s) ∧ (nextHcnt s = s.cfg.triggerOffset → s.arm ≠ .streaming)
  | .lArm => s.hcnt.toNat < s.cfg.triggerOffset
  | .lSwap => s.arm ≠ .streaming
  | .bufw b _ _ => s.run = true → b ≠ s.display
  | .nop | .wrctrl _ | .rdreg _ | .bufr _ _ | .cbret _ => True
  | .lEnter | .lAck | .lAdv | .lProduce | .lFrameinc | .lInput | .lVsyncOn | .lVsyncOff | .lAudio | .lExit => True
  | .tEnter | .tBlank | .tClr | .tPoll | .tDis | .tDiscard | .tExit => True

/-- `MeetsDeadlines` (R462) at one state: what the step performs next is on time. -/
def MeetsDeadlines (s : State) : Prop := ∀ i t, nextOp s = .next (some i, t) → OnTime i t

/-- A run without end: every state steps to the next. -/
def IsRun (r : Nat → State) : Prop := ∀ n, step (r n) = .next (r (n + 1))

/-- `FAIR_TC_CLEAR` (R461): whenever a clear is pending, some later step makes it take effect. -/
def FairTcClear (r : Nat → State) : Prop :=
  ∀ n, (r n).tcClrPend = true → ∃ m, n ≤ m ∧ (r m).tcClrPend = true ∧ (r (m + 1)).tcClrPend = false

/-- The next step is a tick. -/
def isTickStep (s : State) : Bool :=
  match nextOp s with
  | .next (some (.tick _), _) => true
  | _ => false

/-- The ticks among `k` steps of a run from step `n` on. -/
def ticksWithin (r : Nat → State) (n k : Nat) : Nat := ((List.range k).filter fun j => isTickStep (r (n + j))).length

/-- The parameter `TC_CLEAR_MAX` of R461: a pending clear takes effect within that many ticks, so fewer than that many leave
it pending. -/
def TcClearMax (maxTicks : Nat) (r : Nat → State) : Prop :=
  ∀ n k, (∀ j, j ≤ k → (r (n + j)).tcClrPend = true) → ticksWithin r n k < maxTicks

/-- `k` consecutive ticks with no other agent's step between them (R202, R465). -/
def ticks : Nat → State → Result
  | 0, s => .next s
  | k + 1, s =>
    match tick1 s with
    | .next t => ticks k t
    | .fault r => .fault r
    | .refused r => .refused r

/-- A tick that goes past its period start: the generator runs, the line deadline is met (R203), and an enabled transfer
has a cell to move (R54). -/
abbrev TickRuns (s : State) : Prop :=
  s.run = true ∧ (nextHcnt s = 0 → ¬DeadlineMissed s) ∧ (s.xferEn = true → s.xidx.toNat ≤ s.cfg.visiblePixels)

/-- A tick that raises no fault: it also finds no streaming engine at its trigger point (R232). -/
abbrev TickClear (s : State) : Prop := TickRuns s ∧ (nextHcnt s = s.cfg.triggerOffset → s.arm ≠ .streaming)

/-- The generator runs and nothing else does: the engine is idle, and no interrupt is flagged, pending or served. -/
abbrev OnlyCounting (s : State) : Prop :=
  s.run = true ∧ s.arm = .idle ∧ s.pclkRun = false ∧ s.lfsmActive = false ∧ s.lineFlag = false ∧ s.linePend = false

/-- Operations performed one after the other with no other step between them. -/
def performAll : List Instr → State → Result
  | [], s => .next s
  | i :: rest, s =>
    match exec i s with
    | .next t => performAll rest t
    | .fault r => .fault r
    | .refused r => .refused r

/-- The micro-operation of a step, with the host's return of the callback it requests (R345). -/
def stepAndReturn (x : LStep) : List Instr :=
  match x with
  | .produce => [.lProduce, .cbret .produce]
  | .input => [.lInput, .cbret .input]
  | .audio => [.lAudio, .cbret .audio]
  | .ack | .adv | .swap | .arm | .frameinc | .vsyncOn | .vsyncOff | .exit => [lfsmInstr x]

/-- The full line `l` (R261): `L_ENTER, L_ACK, L_ADV`, then the steps of the line, each callback returned at once. -/
def lineProgram (c : Config) (l : Nat) : List Instr :=
  [.lEnter, .lAck, .lAdv] ++ (lineSteps c l).flatMap stepAndReturn

end Sys2Proof.Safety
end

