-- ==== Sys2Proof/Certificates/Slice0/Obligations.lean ====
section
/-! DEFINITION. The statements for the provers. A state `s` is any state unless a premise says otherwise; `Live s` is the
guard every operation runs under (R9, R404), `CanStep s` the guard of every step (R405). `refuse reason s` is the outcome of
`refuse(reason)`: no next state, and in the state the run ended in the mark `refused` is set (log 6). A whole next state written as an update of `s` is also the frame: what
the update does not name is unchanged. -/

section

open Sys2Proof Sys2Proof.Machine Sys2Proof.Safety

/-! ### Words (30_encoding) -/

/-- R142 to R149, R153: decoding the word of any operation that a word spells gives that operation back. -/
def Obligations.DecodeOfEncodeIsTheOperation : Prop :=
  ∀ i : Instr, i.wellFormed = true → decode (encode i) = .operation i

/-- R142 to R149, R153: a word that spells an operation is that operation's only word. -/
def Obligations.EncodeOfDecodeIsTheWord : Prop :=
  ∀ (w : Word) (i : Instr), decode w = .operation i → i.wellFormed = true ∧ encode i = w

/-- 95_test_vectors 2.1: words of every format decode as the spec writes them. -/
def Obligations.SpecWordsDecodeAsWritten : Prop :=
  decode 0x00000000 = .operation .nop ∧ decode 0x00000001 = .illegal ∧
  decode 0x1000FFFF = .operation (.tick 65535) ∧ decode 0x10000000 = .illegal ∧
  decode 0x20000007 = .operation (.wrctrl 7) ∧ decode 0x20000008 = .illegal ∧
  decode 0x30090000 = .operation (.rdreg .xidx) ∧ decode 0x300A0000 = .illegal ∧
  decode 0x48031234 = .operation (.bufw true 3 0x1234) ∧ decode 0x58020000 = .operation (.bufr true 2) ∧
  decode 0x50040001 = .illegal ∧ decode 0x60000002 = .operation (.cbret .input) ∧ decode 0x60000004 = .illegal ∧
  decode 0xEB000000 = .operation .lExit ∧ decode 0xEC000000 = .illegal ∧
  decode 0xF6000000 = .operation .tExit ∧ decode 0xF7000000 = .illegal

/-- R150: exactly the listed words are `ILLEGAL`, and a host or environment step given one refuses. -/
def Obligations.IllegalWordsAreTheListedOnesAndRefuse : Prop :=
  (∀ w : Word, decode w = .illegal ↔
    (0x7 ≤ field w 31 28 ∧ field w 31 28 ≤ 0xD) ∨
    (field w 31 28 = 0x0 ∧ field w 27 0 ≠ 0) ∨
    (field w 31 28 = 0x1 ∧ (field w 27 16 ≠ 0 ∨ field w 15 0 = 0)) ∨
    (field w 31 28 = 0x2 ∧ (field w 27 16 ≠ 0 ∨ field w 15 3 ≠ 0)) ∨
    (field w 31 28 = 0x3 ∧ (field w 27 24 ≠ 0 ∨ field w 15 0 ≠ 0 ∨ 9 < field w 23 16)) ∨
    (field w 31 28 = 0x5 ∧ field w 15 0 ≠ 0) ∨
    (field w 31 28 = 0x6 ∧ (field w 27 2 ≠ 0 ∨ field w 1 0 = 0)) ∨
    (field w 31 28 = 0xE ∧ (field w 23 0 ≠ 0 ∨ 0xB < field w 27 24)) ∨
    (field w 31 28 = 0xF ∧ (field w 23 0 ≠ 0 ∨ 0x6 < field w 27 24))) ∧
  (∀ (s : State) (w : Word) (rest : List Word),
    CanStep s → s.ticksLeft = 0 → s.stream = w :: rest → decode w = .illegal →
    (sequencerOp s = none → step s = refuse .illegal s) ∧
    (∀ u, sequencerOp s ≠ none → drawTurn s = (.stream, u) → step s = refuse .illegal u))

/-! ### What a step performs -/

/-- R13, R158, R262, R317: a step performs the operation whose turn it is: the enabled micro-operation of a sequencer; or the
operation the stream's next word spells, on the state with the word consumed; or the next tick of a `TICK` whose ticks are not
all done. Where both may step, the drawn turn says which (log 4). -/
def Obligations.StepRunsTheOperationWhoseTurnItIs : Prop :=
  (∀ s u : State, CanStep s →
    (sequencerOp s = none ∧ u = s) ∨ (sequencerOp s ≠ none ∧ streamBusy s = true ∧ drawTurn s = (.stream, u)) →
    (s.ticksLeft ≠ 0 → step s = exec (.tick s.ticksLeft) u) ∧
    (∀ w rest i, s.ticksLeft = 0 → s.stream = w :: rest → decode w = .operation i → i.opClass ≠ .sequencer →
      step s = exec i { u with stream := rest })) ∧
  ∀ (s : State) (i : Instr), CanStep s → sequencerOp s = some i →
    (streamBusy s = false → step s = exec i s) ∧
    (∀ u, streamBusy s = true → drawTurn s = (.sequencer, u) → step s = exec i u)

/-- R262, R317: with nothing in the stream, a micro-operation is what the step performs exactly when the state is not faulted
and its enabling condition holds. An enabled one may be delayed by a tick (R4): the model's choice is that a drawn turn decides
(log 4), and that a `TICK` with ticks to come then performs one of them (log 10); drawing the turn disables nothing, so before
that tick the same micro-operation is still the enabled one. What the tick itself enables or disables is not said here. -/
def Obligations.MicroOperationsEnabledExactlyWhen : Prop :=
  (∀ (s : State) (i : Instr), configOk s.cfg = true → s.refused = false → streamBusy s = false →
    (nextOp s = .next (some i, s) ↔
      s.fault = 0 ∧
        ((i = .lEnter ∧ s.lfsmActive = false ∧ s.linePend = true ∧ s.lineIe = true ∧ s.tchActive = false ∧
            ¬(s.tcPend = true ∧ s.tcIe = true)) ∨
          (∃ x, i = lfsmInstr x ∧ s.lfsmActive = true ∧ s.lpc = some x ∧ s.cbreq = none ∧ s.tchActive = false ∧
            ¬(s.tcPend = true ∧ s.tcIe = true)) ∨
          (i = .tEnter ∧ s.tchActive = false ∧ s.tcPend = true ∧ s.tcIe = true) ∨
          (∃ x, i = tchInstr x ∧ s.tchActive = true ∧ s.tpc = some x)))) ∧
  (∀ s u : State, CanStep s → sequencerOp s ≠ none → s.ticksLeft ≠ 0 → drawTurn s = (.stream, u) →
    step s = exec (.tick s.ticksLeft) u ∧ sequencerOp u = sequencerOp s)

/-- R151: a class S word that the host presents is refused. -/
def Obligations.SequencerWordFromTheHostIsRefused : Prop :=
  ∀ (s : State) (w : Word) (rest : List Word) (i : Instr),
    CanStep s → s.ticksLeft = 0 → s.stream = w :: rest → decode w = .operation i → i.opClass = .sequencer →
    (sequencerOp s = none → step s = refuse .seqWord s) ∧
    (∀ u, sequencerOp s ≠ none → drawTurn s = (.stream, u) → step s = refuse .seqWord u)

/-- The model's own choices: with no micro-operation enabled and an empty stream the machine stays as it is (log 9), and so
does the machine after reset; a micro-operation performed when it is not enabled is refused (log 16). -/
def Obligations.NothingEnabledMeansNothingDone : Prop :=
  (∀ s : State, CanStep s → sequencerOp s = none → s.stream = [] → s.ticksLeft = 0 → step s = .next s) ∧
    step State.reset = .next State.reset ∧
    ∀ (s : State) (i : Instr), Live s → i.opClass = .sequencer → sequencerOp s ≠ some i → exec i s = refuse .notEnabled s

/-- R404: in a faulted state no agent has a step, not even `TICK`; the outcome names the fault record (log 5). -/
def Obligations.FaultedStateIsQuiescent : Prop :=
  ∀ s : State, configOk s.cfg = true → s.fault ≠ 0 →
    step s = .fault (.quiescent s.fault) ∧ ∀ i : Instr, exec i s = .fault (.quiescent s.fault)

/-- R9: a configuration that breaks any of the items (1) to (10) is refused. R9 refuses to start from it; that every step and
every operation refuses, and before any other check, is the model's choice (log 18, log 19). -/
def Obligations.IllFormedConfigurationIsRefused : Prop :=
  ∀ s : State,
    ¬((2 ≤ s.cfg.hPeriod ∧ s.cfg.hPeriod ≤ 65536) ∧
      (1 ≤ s.cfg.hsyncWidth ∧ s.cfg.hsyncWidth < s.cfg.hPeriod) ∧
      (1 ≤ s.cfg.triggerOffset ∧ s.cfg.triggerOffset < s.cfg.hPeriod) ∧
      1 ≤ s.cfg.pixelDiv ∧
      (1 ≤ s.cfg.visiblePixels ∧ s.cfg.visiblePixels + 1 ≤ 2048) ∧
      s.cfg.triggerOffset + (s.cfg.visiblePixels + 1) * s.cfg.pixelDiv < s.cfg.hPeriod ∧
      (1 ≤ s.cfg.vVisible ∧ 1 ≤ s.cfg.vFront ∧ 1 ≤ s.cfg.vSync ∧ 1 ≤ s.cfg.vBack ∧
        s.cfg.vVisible + s.cfg.vFront + s.cfg.vSync + s.cfg.vBack ≤ 65536) ∧
      (s.cfg.vsyncOnLine = s.cfg.vVisible + s.cfg.vFront ∧
        s.cfg.vsyncOffLine = s.cfg.vsyncOnLine + s.cfg.vSync) ∧
      (1 ≤ s.cfg.inputWinLen ∧ s.cfg.vVisible ≤ s.cfg.inputWinStart ∧
        s.cfg.inputWinStart + s.cfg.inputWinLen ≤ s.cfg.vsyncOnLine) ∧
      (1 ≤ s.cfg.pixelBits ∧ s.cfg.pixelBits ≤ 16 ∧ s.cfg.blankValue.toNat < 2 ^ s.cfg.pixelBits)) →
    step s = refuse .badConfig s ∧ ∀ i : Instr, exec i s = refuse .badConfig s

/-- R70, R405: a refusal sets the mark `refused` and ends the run: the outcome carries no next state, but the state the run
ended in (log 6), and from a state whose mark is set no step answers a next state. No operation reads the mark: with the other
value of it an operation does the same. -/
def Obligations.RefusalSetsTheMarkAndEndsTheRun : Prop :=
  (∀ (s : State) (r : Refusal), s.refused = false → step s = .refused r →
    ∃ why t, r = .refuse why t ∧ t.refused = true ∧ ∀ u, step t ≠ .next u) ∧
  (∀ (i : Instr) (s : State) (r : Refusal), exec i s = .refused r → ∃ why t, r = .refuse why t ∧ t.refused = true) ∧
  (∀ s t : State, s.refused = true → step s ≠ .next t) ∧
  ∀ (i : Instr) (s t : State) (b : Bool), exec i s = .next t →
    exec i { s with refused := b } = .next { t with refused := b }

/-! ### Reset -/

/-- R78, in every configuration: what every field and every cell holds after reset. -/
def Obligations.ResetHoldsTheTableValues : Prop :=
  ∀ (c : Config) (s : State), s = State.resetWith c →
    (s.run = false ∧ s.lineIe = false ∧ s.tcIe = false) ∧ s.hcnt = 0 ∧ s.line = 0 ∧ s.frame = 0 ∧ s.vsync = false ∧
    s.display = false ∧ s.arm = .idle ∧
    (s.src = false ∧ s.xidx = 0 ∧ s.xferEn = false ∧ s.pclkRun = false ∧ s.pdiv = 0) ∧ s.out = c.blankValue ∧
    (s.lfsmActive = false ∧ s.lpc = none) ∧ (s.tchActive = false ∧ s.tpc = none) ∧
    (s.lineFlag = false ∧ s.linePend = false) ∧ (s.tcFlag = false ∧ s.tcPend = false ∧ s.tcClrPend = false) ∧
    s.cbreq = none ∧ (s.fault = 0 ∧ s.refused = false) ∧ (s.maxline = 0 ∧ s.lineTicks = 0) ∧
    (∀ b i, i < c.visiblePixels → cell s b i = none) ∧ (∀ b, cell s b c.visiblePixels = some c.blankValue)

/-- The invariant holds after reset, in every well-formed configuration, and in that of `State.reset` (log 1). -/
def Obligations.InvariantHoldsAtReset : Prop :=
  MachineInv State.reset ∧ ∀ c : Config, configOk c = true → MachineInv (State.resetWith c)

/-! ### Host operations (44_host) -/

/-- R340: `NOP` changes no state. -/
def Obligations.NopChangesNothing : Prop :=
  ∀ s : State, Live s → exec .nop s = .next s

/-- R341: `WRCTRL` before start writes the two enables and `run`, and nothing else; after start it is refused. -/
def Obligations.WrctrlWritesControl : Prop :=
  ∀ (s : State) (d : BitVec 16), Live s → (∀ k, 3 ≤ k → d.getLsbD k = false) →
    (s.run = false →
      exec (.wrctrl d) s =
        .next { s with lineIe := d.getLsbD 1, tcIe := d.getLsbD 2, run := d.getLsbD 0 }) ∧
    (s.run = true → exec (.wrctrl d) s = refuse .wrctrlAfterStart s)

/-- R342, R79 to R82: `RDREG` returns the register's value to the host, in the model's own list `replies` (log 11), and changes nothing else; every bit of `CTRL` and of
`STATUS`, and the value of `STATUS` after reset. -/
def Obligations.RdregReturnsTheRegister : Prop :=
  (∀ (s : State) (r : Reg), Live s →
    ∃ w : Word, exec (.rdreg r) s = .next { s with replies := w :: s.replies } ∧
      match r with
      | .ctrl =>
        w.getLsbD 0 = s.run ∧ w.getLsbD 1 = s.lineIe ∧ w.getLsbD 2 = s.tcIe ∧ ∀ k, 3 ≤ k → w.getLsbD k = false
      | .status =>
        w.getLsbD 0 = s.lineFlag ∧ w.getLsbD 1 = s.tcFlag ∧
        (w.extractLsb' 2 2).toNat =
          (match s.arm with
            | .idle => 0
            | .armed => 1
            | .streaming => 2) ∧
        w.getLsbD 4 = s.vsync ∧ (w.getLsbD 5 = true ↔ s.run = true ∧ s.hcnt.toNat < s.cfg.hsyncWidth) ∧
        w.getLsbD 6 = s.display ∧ w.getLsbD 7 = s.lfsmActive ∧ w.getLsbD 8 = s.tchActive ∧ w.getLsbD 9 = s.linePend ∧
        w.getLsbD 10 = s.tcPend ∧ w.getLsbD 11 = s.xferEn ∧ w.getLsbD 12 = s.pclkRun ∧
        ∀ k, 13 ≤ k → w.getLsbD k = false
      | .line => w.toNat = s.line.toNat
      | .frame => w = s.frame
      | .hcnt => w.toNat = s.hcnt.toNat
      | .fault => w.toNat = s.fault.toNat
      | .maxline => w = if s.cfg.diag = true then s.maxline else 0
      | .out => w.toNat = s.out.toNat
      | .cbreq =>
        w = match s.cbreq with
          | none => 0
          | some .produce => 1
          | some .input => 2
          | some .audio => 3
      | .xidx => w.toNat = s.xidx.toNat) ∧
  ∀ c : Config, readReg .status (State.resetWith c) = 0

/-- R73, R49, R74, R111: horizontal sync and its pin level, the vertical-sync pin and its level, the draw buffer, the port. -/
def Obligations.DerivedOutputsOfTheState : Prop :=
  ∀ s : State,
    (hsyncAsserted s = true ↔ s.run = true ∧ s.hcnt.toNat < s.cfg.hsyncWidth) ∧
    (hsyncLevel s = true ↔ (hsyncAsserted s = true ↔ s.cfg.hsyncActiveHigh = true)) ∧
    (vsyncOutput s).1 = s.cfg.vsyncPin ∧
    ((vsyncOutput s).2 = true ↔ (s.vsync = true ↔ s.cfg.vsyncActiveHigh = true)) ∧
    (drawBuffer s).toNat = 1 - s.display.toNat ∧ pixelPort s = s.out

/-- R343, R105, in the order of R409: `BUFW` refuses an index or a value out of range, faults on the display buffer while
running, and else writes exactly its one cell. -/
def Obligations.BufwWritesOneCell : Prop :=
  ∀ (s : State) (b : Bool) (i : BitVec 11) (v : BitVec 16), Live s →
    (s.cfg.visiblePixels ≤ i.toNat → exec (.bufw b i v) s = refuse .bufwIndex s) ∧
    (i.toNat < s.cfg.visiblePixels →
      (2 ^ s.cfg.pixelBits ≤ v.toNat → exec (.bufw b i v) s = refuse .bufwValue s) ∧
      (v.toNat < 2 ^ s.cfg.pixelBits →
        (s.run = true ∧ b = s.display → exec (.bufw b i v) s = .next { s with fault := 0b100000 }) ∧
        (¬(s.run = true ∧ b = s.display) →
          ∃ t, exec (.bufw b i v) s = .next t ∧ t = { s with mem := t.mem } ∧ cell t b i.toNat = some v ∧
            ∀ b' j, j ≤ s.cfg.visiblePixels → ¬(b' = b ∧ j = i.toNat) → cell t b' j = cell s b' j)))

/-- R344, R104: `BUFR` refuses an index beyond the trailing cell; else it returns the cell's value, or for an UNDEF cell a
fresh draw below `2^PIXEL_BITS`, and no cell changes. Where a free input is listed, the draw is that input (log 3); the result
goes to the model's own list `replies` (log 11). -/
def Obligations.BufrReturnsTheCell : Prop :=
  ∀ (s : State) (b : Bool) (i : BitVec 11), Live s →
    (s.cfg.visiblePixels < i.toNat → exec (.bufr b i) s = refuse .bufrIndex s) ∧
    (i.toNat ≤ s.cfg.visiblePixels →
      (∀ v, cell s b i.toNat = some v →
        exec (.bufr b i) s = .next { s with replies := v.setWidth 32 :: s.replies }) ∧
      (cell s b i.toNat = none →
        ∃ (w : Word) (d : List (BitVec 16)) (n : Nat),
          exec (.bufr b i) s = .next { s with replies := w :: s.replies, draws := d, drawn := n } ∧
          w.toNat < 2 ^ s.cfg.pixelBits ∧
          ∀ x rest, s.draws = x :: rest → w.toNat = x.toNat % 2 ^ s.cfg.pixelBits ∧ d = rest ∧ n = s.drawn))

/-- R345: `CBRET` returns the requested callback, and refuses any other. -/
def Obligations.CbretReturnsTheRequestedCallback : Prop :=
  ∀ (s : State) (k : Callback), Live s →
    (s.cbreq = some k → exec (.cbret k) s = .next { s with cbreq := none }) ∧
    (s.cbreq ≠ some k → exec (.cbret k) s = refuse .cbretMismatch s)

/-! ### `TICK`: the timing generator (40_htg) and the pixel engine (41_pse) -/

/-- R201: before start a tick changes nothing but the count of ticks still to come (log 10); and no transfer is in flight
then, in a machine that meets the invariant. -/
def Obligations.TickBeforeStartChangesNothing : Prop :=
  ∀ (s : State) (n : BitVec 16), Live s → n ≠ 0 → s.run = false →
    exec (.tick n) s = .next { s with ticksLeft := n - 1 } ∧
      (MachineInv s → s.arm = .idle ∧ s.xferEn = false ∧ s.pclkRun = false)

/-- R202: every tick of a running generator advances the counter by one modulo `H_PERIOD`; no other operation moves the
counter or stops the generator. That the tick leaves `n - 1` ticks to come is the model's choice (log 10). -/
def Obligations.TickCountsModuloThePeriod : Prop :=
  (∀ (s t : State) (n : BitVec 16), s.run = true → exec (.tick n) s = .next t →
    t.hcnt.toNat = (s.hcnt.toNat + 1) % s.cfg.hPeriod ∧ t.ticksLeft = n - 1) ∧
  ∀ (i : Instr) (s t : State), exec i s = .next t →
    ((∀ n, i ≠ .tick n) → t.hcnt = s.hcnt) ∧ (s.run = true → t.run = true)

/-- R200, R207: a running tick that finds no missed deadline and no streaming engine at the trigger point completes with no
fault raised, and counts the LFSM's time while it runs, up to `2^32 - 1`. That it leaves `n - 1` ticks to come is the model's
choice (log 10). -/
def Obligations.TickCompletesAndCountsTheLineDuration : Prop :=
  ∀ (s : State) (n : BitVec 16), Live s → n ≠ 0 → TickClear s →
    ∃ t, exec (.tick n) s = .next t ∧ t.fault = 0 ∧ t.hcnt.toNat = nextHcnt s ∧ t.ticksLeft = n - 1 ∧
      (s.lfsmActive = true → t.lineTicks.toNat = min (s.lineTicks.toNat + 1) (2 ^ 32 - 1)) ∧
      (s.lfsmActive = false → t.lineTicks = s.lineTicks)

/-- R203: at a period start a missed deadline is a fault that ends the tick; else the flag is latched, and the interrupt made
pending if enabled. That the tick leaves `n - 1` ticks to come is the model's choice (log 10). -/
def Obligations.PeriodStartLatchesOrFaults : Prop :=
  ∀ (s : State) (n : BitVec 16), Live s → n ≠ 0 → s.run = true → nextHcnt s = 0 →
    (s.lfsmActive = true ∨ s.lineFlag = true →
      exec (.tick n) s = .next { s with hcnt := 0, fault := 0b000001, ticksLeft := n - 1 }) ∧
    (TickRuns s →
      ∃ t, exec (.tick n) s = .next t ∧ t.hcnt = 0 ∧ t.lineFlag = true ∧
        (s.lineIe = true → t.linePend = true) ∧ (s.lineIe = false → t.linePend = s.linePend))

/-- R232: what the trigger does in each state of the engine; in a streaming engine it is a fault that ends the tick (R200). -/
def Obligations.TriggerStartsAnArmedEngine : Prop :=
  ∀ (s : State) (n : BitVec 16), Live s → n ≠ 0 → TickRuns s → nextHcnt s = s.cfg.triggerOffset →
    ∃ t, exec (.tick n) s = .next t ∧ t.hcnt.toNat = s.cfg.triggerOffset ∧
      (s.arm = .idle → t.arm = .idle ∧ t.pclkRun = s.pclkRun ∧ t.fault = 0 ∧
        (s.pclkRun = false → t.pdiv = s.pdiv ∧ t.out = s.out)) ∧
      (s.arm = .armed → t.arm = .streaming ∧ t.pclkRun = true ∧ t.pdiv = 0 ∧ t.fault = 0 ∧
        (s.pclkRun = false → t.out = s.out ∧ t.xidx = s.xidx ∧ t.xferEn = s.xferEn)) ∧
      (s.arm = .streaming → t.arm = .streaming ∧ t.fault = 0b010000 ∧ t.tcClrPend = s.tcClrPend ∧
        t.lineTicks = s.lineTicks)

/-- R233, R236: the gated pixel clock counts to `PIXEL_DIV`; a stopped clock, a tick between two edges, and an edge with the
transfer disabled move no pixel. An armed engine's trigger clears the divider in the same tick (R232). -/
def Obligations.PixelClockDividesTheBaseClock : Prop :=
  ∀ (s : State) (n : BitVec 16), Live s → n ≠ 0 → TickRuns s →
    ¬(nextHcnt s = s.cfg.triggerOffset ∧ s.arm = .armed) →
    ∃ t, exec (.tick n) s = .next t ∧ t.pclkRun = s.pclkRun ∧
      t.pdiv =
        (if s.pclkRun = false then s.pdiv else if s.pdiv + 1 < s.cfg.pixelDiv then s.pdiv + 1 else 0) ∧
      (s.pclkRun = false ∨ s.pdiv + 1 < s.cfg.pixelDiv ∨ s.xferEn = false →
        t.out = s.out ∧ t.xidx = s.xidx ∧ t.xferEn = s.xferEn ∧ t.tcPend = s.tcPend ∧
          (s.tcClrPend = false → t.tcFlag = s.tcFlag))

/-- R234, R235: an edge of an enabled transfer puts the next cell of the latched buffer on the port, and after the `LEN`-th
the transfer completes. For an UNDEF cell the port shows a fresh draw (R104; log 3). -/
def Obligations.PixelEdgeMovesOneCell : Prop :=
  ∀ (s : State) (n : BitVec 16), Live s → n ≠ 0 → TickRuns s →
    s.pclkRun = true → s.cfg.pixelDiv ≤ s.pdiv + 1 → s.xferEn = true →
    ∃ t, exec (.tick n) s = .next t ∧ t.xidx.toNat = s.xidx.toNat + 1 ∧
      (∀ v, cell s s.src s.xidx.toNat = some v → t.out = v) ∧
      (cell s s.src s.xidx.toNat = none →
        t.out.toNat < 2 ^ s.cfg.pixelBits ∧
          ∀ x rest, s.draws = x :: rest → t.out.toNat = x.toNat % 2 ^ s.cfg.pixelBits) ∧
      (s.xidx.toNat + 1 = s.cfg.visiblePixels + 1 →
        t.xferEn = false ∧ (s.tcClrPend = false → t.tcFlag = true) ∧
          (s.tcIe = true → t.tcPend = true) ∧ (s.tcIe = false → t.tcPend = s.tcPend) ∧
          (s.arm = .streaming → t.arm = .streaming ∧ t.pclkRun = true)) ∧
      (s.xidx.toNat + 1 ≠ s.cfg.visiblePixels + 1 →
        t.xferEn = true ∧ t.tcPend = s.tcPend ∧ (s.tcClrPend = false → t.tcFlag = s.tcFlag))

/-- R206: while a clear of the completion flag is pending, each tick draws whether it takes effect, and when it does both the
flag and the pending clear are cleared; with no clear pending no tick clears the flag. Where no transfer is enabled (always so
while a clear is pending, R312) the draw is the tick's first, and nothing else writes the flag. -/
def Obligations.PendingClearTakesEffectAtADraw : Prop :=
  ∀ (s : State) (n : BitVec 16), Live s → n ≠ 0 → TickClear s →
    ∃ t, exec (.tick n) s = .next t ∧
      (s.tcClrPend = false →
        t.tcClrPend = false ∧ (s.tcFlag = true → t.tcFlag = true) ∧
          (s.xferEn = false → t.tcFlag = s.tcFlag ∧ t.draws = s.draws ∧ t.drawn = s.drawn)) ∧
      (s.tcClrPend = true →
        ∃ c : Bool, (c = true → t.tcFlag = false ∧ t.tcClrPend = false) ∧
          (c = false → t.tcClrPend = true ∧ (s.tcFlag = true → t.tcFlag = true)) ∧
          (s.xferEn = false →
            (c = false → t.tcFlag = s.tcFlag) ∧
              ∀ x rest, s.draws = x :: rest → c = x.getLsbD 0 ∧ t.draws = rest ∧ t.drawn = s.drawn))

/-- R200, R238: the fields a tick may write; every other field, and every cell, is unchanged. -/
def Obligations.TickFrame : Prop :=
  ∀ (s t : State) (n : BitVec 16), exec (.tick n) s = .next t →
    t = { s with
      hcnt := t.hcnt, lineFlag := t.lineFlag, linePend := t.linePend, out := t.out, xidx := t.xidx
      xferEn := t.xferEn, tcFlag := t.tcFlag, tcPend := t.tcPend, tcClrPend := t.tcClrPend, pdiv := t.pdiv
      arm := t.arm, pclkRun := t.pclkRun, lineTicks := t.lineTicks, fault := t.fault
      ticksLeft := t.ticksLeft, draws := t.draws, drawn := t.drawn } ∧
    (nextHcnt s ≠ 0 → t.lineFlag = s.lineFlag ∧ t.linePend = s.linePend) ∧
    (nextHcnt s ≠ s.cfg.triggerOffset → t.arm = s.arm ∧ t.pclkRun = s.pclkRun) ∧
    ∀ b j, cell t b j = cell s b j

/-- R237: from an armed engine one tick before the trigger point, with no other step between the ticks: pixel `i` is on the
port from tick `T + (i + 1) * PIXEL_DIV`, where `T` is the trigger's, until the next edge; the transfer completes at tick
`T + LEN * PIXEL_DIV`, in the same period. -/
def Obligations.OutputTimelineOfALine : Prop :=
  ∀ (s : State) (k : Nat), Live s → s.run = true → s.arm = .armed → s.pclkRun = false → s.xferEn = true → s.xidx = 0 →
    s.hcnt.toNat + 1 = s.cfg.triggerOffset → s.tcFlag = false → s.tcClrPend = false →
    k ≤ len s.cfg * s.cfg.pixelDiv →
    ∃ t, ticks (k + 1) s = .next t ∧ t.fault = 0 ∧ t.arm = .streaming ∧
      t.hcnt.toNat = s.cfg.triggerOffset + k ∧ s.cfg.triggerOffset + k < s.cfg.hPeriod ∧
      t.xidx.toNat = k / s.cfg.pixelDiv ∧
      (k < s.cfg.pixelDiv → t.out = s.out) ∧
      (∀ i v, i + 1 = k / s.cfg.pixelDiv → cell s s.src i = some v → t.out = v) ∧
      (∀ t', k % s.cfg.pixelDiv ≠ 0 → ticks k s = .next t' → t.out = t'.out) ∧
      (t.tcFlag = true ↔ k = len s.cfg * s.cfg.pixelDiv) ∧
      (t.xferEn = true ↔ k < len s.cfg * s.cfg.pixelDiv)

/-- R208, R465: the first period after start raises no line interrupt; the first one comes at the `H_PERIOD`-th tick. -/
def Obligations.FirstLineInterruptAfterStart : Prop :=
  ∀ (s : State) (k : Nat), Live s → OnlyCounting s → s.hcnt = 0 → s.lineIe = true → k ≤ s.cfg.hPeriod →
    ∃ t, ticks k s = .next t ∧ t.fault = 0 ∧ t.hcnt.toNat = k % s.cfg.hPeriod ∧ t.arm = .idle ∧ t.out = s.out ∧
      t.line = s.line ∧ (t.lineFlag = true ↔ k = s.cfg.hPeriod) ∧ (t.linePend = true ↔ k = s.cfg.hPeriod)

/-- R452, R203: with the line interrupt disabled nothing clears the flag of the first period start, no micro-operation is
enabled, and the second period start raises `DEADLINE_MISS`. -/
def Obligations.RunWithoutLineInterruptFaults : Prop :=
  ∀ s : State, Live s → OnlyCounting s → s.hcnt = 0 → s.lineIe = false → s.tchActive = false → s.tcPend = false →
    (∀ k t, k < 2 * s.cfg.hPeriod → ticks k s = .next t → t.fault = 0 ∧ sequencerOp t = none) ∧
    ∃ t, ticks (2 * s.cfg.hPeriod) s = .next t ∧ t.fault = 0b000001

/-! ### The line/frame state machine (42_lfsm) -/

/-- R260: the regions, as intervals of the line counts, and the input window. -/
def Obligations.RegionsAreTheLineCountsIntervals : Prop :=
  ∀ (c : Config) (l : Nat), configOk c = true → l < total c →
    (region c l = .visible ↔ l < c.vVisible) ∧
    (region c l = .frontPorch ↔ c.vVisible ≤ l ∧ l < c.vVisible + c.vFront) ∧
    (region c l = .sync ↔ c.vsyncOnLine ≤ l ∧ l < c.vsyncOffLine) ∧
    (region c l = .backPorch ↔ c.vsyncOffLine ≤ l ∧ l < total c) ∧
    (InWindow c l ↔ c.inputWinStart ≤ l ∧ l < c.inputWinStart + c.inputWinLen) ∧
    (InWindow c l → region c l = .frontPorch)

/-- R263, R264, R410: taking the line interrupt; the acknowledge, which clears the flag at once and forces the port to the
blanking value. -/
def Obligations.LineInterruptIsTakenAndAcknowledged : Prop :=
  ∀ s : State, Live s →
    (LEnterEnabled s →
      exec .lEnter s =
        .next { s with linePend := false, lfsmActive := true, lpc := some .ack, lineTicks := 0 }) ∧
    (LfsmEnabled .ack s →
      exec .lAck s = .next { s with lineFlag := false, out := s.cfg.blankValue, lpc := some .adv })

/-- R265, R261: the line advances by one modulo `TOTAL`, and the pointer goes to the first step of the new line. -/
def Obligations.LAdvAdvancesTheLine : Prop :=
  ∀ s : State, Live s → LfsmEnabled .adv s → s.line.toNat < total s.cfg →
    ∃ t, exec .lAdv s = .next t ∧ t = { s with line := t.line, lpc := t.lpc } ∧
      t.line.toNat = (s.line.toNat + 1) % total s.cfg ∧
      t.lpc = some
        (if t.line.toNat < s.cfg.vVisible then .swap
        else if t.line.toNat = s.cfg.vVisible then .frameinc
        else if InWindow s.cfg t.line.toNat then .input
        else if t.line.toNat = s.cfg.vsyncOnLine then .vsyncOn
        else if t.line.toNat = s.cfg.vsyncOffLine then .vsyncOff
        else .audio)

/-- R266: on a visible line the swap flips the display buffer; of a streaming engine it is a fault, and nothing else changes. -/
def Obligations.LSwapFlipsTheDisplayBuffer : Prop :=
  ∀ s : State, Live s → LfsmEnabled .swap s → region s.cfg s.line.toNat = .visible →
    (s.arm = .streaming → exec .lSwap s = .next { s with fault := 0b001000 }) ∧
    (s.arm ≠ .streaming → exec .lSwap s = .next { s with display := !s.display, lpc := some .arm })

/-- R267: arming an idle engine before the trigger point; else a fault, `ARM_NOT_IDLE` before `LATE_ARM` (R409), and nothing
else changes. -/
def Obligations.LArmArmsAnIdleEngineInTime : Prop :=
  ∀ s : State, Live s → LfsmEnabled .arm s → region s.cfg s.line.toNat = .visible →
    (s.arm ≠ .idle → exec .lArm s = .next { s with fault := 0b000100 }) ∧
    (s.arm = .idle → s.cfg.triggerOffset ≤ s.hcnt.toNat → exec .lArm s = .next { s with fault := 0b000010 }) ∧
    (s.arm = .idle → s.hcnt.toNat < s.cfg.triggerOffset →
      exec .lArm s =
        .next { s with
          src := s.display, xidx := 0, xferEn := true, pdiv := 0, arm := .armed, lpc := some .produce })

/-- R268, R270, R273: the three callbacks are requested on the lines that have them, and the pointer goes on; while a callback
is out the LFSM has no step. -/
def Obligations.CallbacksAreRequestedAndWaitedFor : Prop :=
  (∀ s : State, Live s →
    (LfsmEnabled .produce s → region s.cfg s.line.toNat = .visible →
      exec .lProduce s = .next { s with cbreq := some .produce, lpc := some .audio }) ∧
    (LfsmEnabled .input s → InWindow s.cfg s.line.toNat →
      exec .lInput s = .next { s with cbreq := some .input, lpc := some .audio }) ∧
    (LfsmEnabled .audio s → exec .lAudio s = .next { s with cbreq := some .audio, lpc := some .exit })) ∧
  ∀ (s : State) (k : Callback) (x : LStep), s.cbreq = some k → sequencerOp s ≠ some (lfsmInstr x)

/-- R269: the frame counter counts at the first line after the visible ones, modulo `2^32`. -/
def Obligations.LFrameincCountsTheFrame : Prop :=
  ∀ s : State, Live s → LfsmEnabled .frameinc s → s.line.toNat = s.cfg.vVisible →
    ∃ t, exec .lFrameinc s = .next t ∧ t = { s with frame := t.frame, lpc := t.lpc } ∧
      t.frame.toNat = (s.frame.toNat + 1) % 2 ^ 32 ∧
      t.lpc = some (if InWindow s.cfg s.line.toNat then .input else .audio)

/-- R271, R272: vertical sync is asserted at `VSYNC_ON_LINE` and deasserted at `VSYNC_OFF_LINE`. -/
def Obligations.VsyncIsToggledAtItsTwoLines : Prop :=
  ∀ s : State, Live s →
    (LfsmEnabled .vsyncOn s → s.line.toNat = s.cfg.vsyncOnLine →
      exec .lVsyncOn s = .next { s with vsync := true, lpc := some .audio }) ∧
    (LfsmEnabled .vsyncOff s → s.line.toNat = s.cfg.vsyncOffLine →
      exec .lVsyncOff s = .next { s with vsync := false, lpc := some .audio })

/-- R274: the LFSM returns, and with diagnostics the longest line is recorded. -/
def Obligations.LExitReturnsAndRecords : Prop :=
  ∀ s : State, Live s → LfsmEnabled .exit s →
    ∃ t, exec .lExit s = .next t ∧
      t = { s with lfsmActive := false, lpc := none, maxline := t.maxline } ∧
      (s.cfg.diag = true → t.maxline.toNat = max s.maxline.toNat s.lineTicks.toNat) ∧
      (s.cfg.diag = false → t.maxline = s.maxline)

/-- R261, R275, R276, R278: from an enabled `L_ENTER`, a whole line runs to its end: `L_ENTER, L_ACK, L_ADV`, the steps of the
new line in order, each callback returned at once. The line advances by one, the frame counter counts at `V_VISIBLE` only, and
a visible line is swapped in and armed. -/
def Obligations.WholeLineRunsToItsEnd : Prop :=
  ∀ (s : State) (l : Nat), Live s → LEnterEnabled s → s.cbreq = none → s.line.toNat < total s.cfg →
    l = (s.line.toNat + 1) % total s.cfg →
    (region s.cfg l = .visible → s.arm = .idle ∧ s.hcnt.toNat < s.cfg.triggerOffset) →
    ∃ t, performAll (lineProgram s.cfg l) s = .next t ∧ t.fault = 0 ∧ t.lfsmActive = false ∧ t.lpc = none ∧
      t.cbreq = none ∧ t.lineFlag = false ∧ t.line.toNat = l ∧
      t.frame = (if l = s.cfg.vVisible then s.frame + 1 else s.frame) ∧
      t.display = (if region s.cfg l = .visible then !s.display else s.display) ∧
      t.arm = (if region s.cfg l = .visible then .armed else s.arm) ∧
      t.vsync = (if l = s.cfg.vsyncOnLine then true else if l = s.cfg.vsyncOffLine then false else s.vsync) ∧
      t.mem = s.mem

/-! ### The transfer-complete handler (43_tch) -/

/-- R310, R311, R313, R315, R316, R410, R411: the micro-operations of the TCH that draw nothing. -/
def Obligations.TchStepsWithoutADraw : Prop :=
  ∀ s : State, Live s →
    (TEnterEnabled s → exec .tEnter s = .next { s with tcPend := false, tchActive := true, tpc := some .blank }) ∧
    (TchEnabled .blank s → exec .tBlank s = .next { s with out := s.cfg.blankValue, tpc := some .clr }) ∧
    (TchEnabled .poll s → exec .tPoll s = .next { s with tpc := if s.tcFlag = true then some .clr else some .dis }) ∧
    (TchEnabled .discard s → exec .tDiscard s = .next { s with tcPend := false, tpc := some .exit }) ∧
    (TchEnabled .exit s → exec .tExit s = .next { s with tchActive := false, tpc := none })

/-- R312: the written clear takes effect at once or stays pending, by a draw; with the flag already clear nothing stays
pending. -/
def Obligations.TClrWritesTheClear : Prop :=
  ∀ s : State, Live s → TchEnabled .clr s →
    (s.tcFlag = false → exec .tClr s = .next { s with tcClrPend := false, tpc := some .poll }) ∧
    (s.tcFlag = true →
      ∃ (now : Bool) (d : List (BitVec 16)) (n : Nat),
        exec .tClr s =
          .next
            (if now = true then { s with tcFlag := false, tcClrPend := false, tpc := some .poll, draws := d, drawn := n }
            else { s with tcClrPend := true, tpc := some .poll, draws := d, drawn := n }) ∧
        ∀ x rest, s.draws = x :: rest → now = x.getLsbD 0 ∧ d = rest ∧ n = s.drawn)

/-- R314: the pixel clock and the engine are disabled, the engine is IDLE, and a draw says whether the completion interrupt is
re-asserted. -/
def Obligations.TDisReturnsTheEngineToIdle : Prop :=
  ∀ s : State, Live s → TchEnabled .dis s →
    ∃ (spur : Bool) (d : List (BitVec 16)) (n : Nat),
      exec .tDis s =
        .next { s with
          pclkRun := false, xferEn := false, pdiv := 0, arm := .idle
          tcPend := if spur = true then true else s.tcPend
          tpc := some .discard, draws := d, drawn := n } ∧
      ∀ x rest, s.draws = x :: rest → spur = x.getLsbD 0 ∧ d = rest ∧ n = s.drawn

/-- R320: the fields the TCH may write, beside the model's free inputs; and no cell of the line buffers is read: with other
contents of the buffers the TCH does the same. -/
def Obligations.TchFrame : Prop :=
  ∀ (i : Instr) (s : State), i.agent = .tch →
    (∀ t, exec i s = .next t →
      t = { s with
        out := t.out, tcFlag := t.tcFlag, tcClrPend := t.tcClrPend, tcPend := t.tcPend, pclkRun := t.pclkRun
        xferEn := t.xferEn, pdiv := t.pdiv, arm := t.arm, tchActive := t.tchActive, tpc := t.tpc
        draws := t.draws, drawn := t.drawn }) ∧
    ∀ m : Memory, exec i { s with mem := m } = mapState (fun t => { t with mem := m }) (exec i s)

/-- R318, R319: where the clear takes effect at the write, the TCH runs `T_ENTER, T_BLANK, T_CLR, T_POLL, T_DIS, T_DISCARD,
T_EXIT` to its clean state, whatever `T_DIS` draws. -/
def Obligations.TchRunsToItsCleanState : Prop :=
  ∀ (s : State) (now spur : BitVec 16) (rest : List (BitVec 16)), Live s → TEnterEnabled s → s.tcFlag = true →
    s.draws = now :: spur :: rest → now.getLsbD 0 = true →
    ∃ t, performAll [.tEnter, .tBlank, .tClr, .tPoll, .tDis, .tDiscard, .tExit] s = .next t ∧ t.fault = 0 ∧
      t.arm = .idle ∧ t.tcFlag = false ∧ t.tcClrPend = false ∧ t.tcPend = false ∧ t.xferEn = false ∧
      t.pclkRun = false ∧ t.out = s.cfg.blankValue ∧ t.tchActive = false ∧ t.lpc = s.lpc ∧ t.cbreq = s.cbreq

/-- R422: a flag whose clear never takes effect is no fault: `T_CLR` and `T_POLL` alternate as often as one likes. -/
def Obligations.FlagThatNeverClearsLoopsForEver : Prop :=
  ∀ (s : State) (k : Nat) (rest : List (BitVec 16)), Live s → TchEnabled .clr s → s.tcFlag = true →
    s.draws = List.replicate k 0 ++ rest →
    ∃ t, performAll ((List.replicate k [Instr.tClr, Instr.tPoll]).flatten) s = .next t ∧ t.fault = 0 ∧
      t.tchActive = true ∧ t.tpc = some .clr ∧ t.tcFlag = true ∧ t.arm = s.arm

/-! ### The whole machine -/

/-- The invariant is kept by every step, from every state that meets it. -/
def Obligations.EveryStepKeepsTheInvariant : Prop :=
  ∀ s t : State, MachineInv s → step s = .next t → MachineInv t

/-- R462: under `MeetsDeadlines` no step raises a fault. -/
def Obligations.DeadlinesMetMeansNoFault : Prop :=
  ∀ s t : State, MachineInv s → s.fault = 0 → MeetsDeadlines s → step s = .next t → MachineInv t ∧ t.fault = 0

/-- Only the host's own errors end a run: in a state that can step and meets the invariant, a step answers a next state, or refuses a
word for one of the reasons of R405; the sequencers and the clock always go on. -/
def Obligations.OnlyTheHostsWordsAreRefused : Prop :=
  ∀ s : State, MachineInv s → CanStep s →
    (∃ t, step s = .next t) ∨
      ∃ why t, step s = .refused (.refuse why t) ∧ s.stream ≠ [] ∧
        why ∈ [Reason.illegal, .seqWord, .wrctrlAfterStart, .bufwIndex, .bufwValue, .bufrIndex, .cbretMismatch]

/-- R402: what raises each fault code, and when; no other operation raises one. -/
def Obligations.FaultsAreRaisedByTheirCauses : Prop :=
  ∀ (i : Instr) (s t : State), Live s → exec i s = .next t →
    (t.fault = 0 ∧
      ¬(((∃ n, i = .tick n) ∧ s.run = true ∧ nextHcnt s = 0 ∧ (s.lfsmActive = true ∨ s.lineFlag = true)) ∨
        (i = .lArm ∧ (s.arm ≠ .idle ∨ s.cfg.triggerOffset ≤ s.hcnt.toNat)) ∨
        (i = .lSwap ∧ s.arm = .streaming) ∨
        ((∃ n, i = .tick n) ∧ s.run = true ∧ nextHcnt s = s.cfg.triggerOffset ∧ s.arm = .streaming) ∨
        ∃ b j v, i = .bufw b j v ∧ s.run = true ∧ b = s.display)) ∨
    (t.fault = 0b000001 ∧ (∃ n, i = .tick n) ∧ s.run = true ∧ nextHcnt s = 0 ∧
      (s.lfsmActive = true ∨ s.lineFlag = true)) ∨
    (t.fault = 0b000010 ∧ i = .lArm ∧ s.arm = .idle ∧ s.cfg.triggerOffset ≤ s.hcnt.toNat) ∨
    (t.fault = 0b000100 ∧ i = .lArm ∧ s.arm ≠ .idle) ∨
    (t.fault = 0b001000 ∧ i = .lSwap ∧ s.arm = .streaming) ∨
    (t.fault = 0b010000 ∧ (∃ n, i = .tick n) ∧ s.run = true ∧ nextHcnt s = s.cfg.triggerOffset ∧ s.arm = .streaming) ∨
    (t.fault = 0b100000 ∧ (∃ b j v, i = .bufw b j v ∧ b = s.display) ∧ s.run = true)

/-- R43 to R72, and the model's own fields (log 3, log 4, log 7, log 10, log 11): which operations may change each field; the
configuration, the refusal mark, the stream and the turns are changed by none that answers a next state. -/
def Obligations.EveryFieldHasItsWriters : Prop :=
  ∀ (i : Instr) (s t : State), exec i s = .next t →
    t.cfg = s.cfg ∧ t.refused = s.refused ∧ t.stream = s.stream ∧ t.turns = s.turns ∧
    (t.run ≠ s.run ∨ t.lineIe ≠ s.lineIe ∨ t.tcIe ≠ s.tcIe → ∃ d, i = .wrctrl d) ∧
    (t.hcnt ≠ s.hcnt ∨ t.ticksLeft ≠ s.ticksLeft → ∃ n, i = .tick n) ∧
    (t.line ≠ s.line → i = .lAdv) ∧
    (t.frame ≠ s.frame → i = .lFrameinc) ∧
    (t.vsync ≠ s.vsync → i = .lVsyncOn ∨ i = .lVsyncOff) ∧
    (t.display ≠ s.display → i = .lSwap) ∧
    (t.mem ≠ s.mem → ∃ b j v, i = .bufw b j v) ∧
    (t.arm ≠ s.arm → i = .lArm ∨ i = .tDis ∨ ∃ n, i = .tick n) ∧
    (t.src ≠ s.src → i = .lArm) ∧
    (t.xidx ≠ s.xidx → i = .lArm ∨ ∃ n, i = .tick n) ∧
    (t.xferEn ≠ s.xferEn ∨ t.pdiv ≠ s.pdiv → i = .lArm ∨ i = .tDis ∨ ∃ n, i = .tick n) ∧
    (t.pclkRun ≠ s.pclkRun → i = .tDis ∨ ∃ n, i = .tick n) ∧
    (t.out ≠ s.out → i = .lAck ∨ i = .tBlank ∨ ∃ n, i = .tick n) ∧
    (t.lfsmActive ≠ s.lfsmActive → i = .lEnter ∨ i = .lExit) ∧
    (t.lpc ≠ s.lpc → i.agent = .lfsm) ∧
    (t.tchActive ≠ s.tchActive → i = .tEnter ∨ i = .tExit) ∧
    (t.tpc ≠ s.tpc → i.agent = .tch) ∧
    (t.lineFlag ≠ s.lineFlag → i = .lAck ∨ ∃ n, i = .tick n) ∧
    (t.linePend ≠ s.linePend → i = .lEnter ∨ ∃ n, i = .tick n) ∧
    (t.tcFlag ≠ s.tcFlag ∨ t.tcClrPend ≠ s.tcClrPend → i = .tClr ∨ ∃ n, i = .tick n) ∧
    (t.tcPend ≠ s.tcPend → i = .tEnter ∨ i = .tDis ∨ i = .tDiscard ∨ ∃ n, i = .tick n) ∧
    (t.cbreq ≠ s.cbreq → i = .lProduce ∨ i = .lInput ∨ i = .lAudio ∨ ∃ k, i = .cbret k) ∧
    (t.maxline ≠ s.maxline → i = .lExit ∧ s.cfg.diag = true) ∧
    (t.lineTicks ≠ s.lineTicks → i = .lEnter ∨ ∃ n, i = .tick n) ∧
    (t.fault ≠ s.fault → i = .lArm ∨ i = .lSwap ∨ (∃ n, i = .tick n) ∨ ∃ b j v, i = .bufw b j v) ∧
    (t.draws ≠ s.draws ∨ t.drawn ≠ s.drawn → i = .tClr ∨ i = .tDis ∨ (∃ n, i = .tick n) ∨ ∃ b j, i = .bufr b j) ∧
    (t.replies ≠ s.replies → (∃ r, i = .rdreg r) ∨ ∃ b j, i = .bufr b j)

/-- R230: the engine's transitions, in a machine that meets the invariant: no operation but these three changes the engine's
state, and the transfer runs only while STREAMING and enabled. -/
def Obligations.EngineTransitions : Prop :=
  ∀ (i : Instr) (s t : State), MachineInv s → exec i s = .next t →
    (t.arm = s.arm ∨
      (i = .lArm ∧ s.arm = .idle ∧ t.arm = .armed) ∨
      ((∃ n, i = .tick n) ∧ nextHcnt s = s.cfg.triggerOffset ∧ s.arm = .armed ∧ t.arm = .streaming) ∨
      (i = .tDis ∧ s.arm = .streaming ∧ t.arm = .idle)) ∧
    ((∃ n, i = .tick n) → t.xidx ≠ s.xidx → s.arm = .streaming ∧ s.xferEn = true) ∧
    (s.arm = .streaming → i ≠ .tDis → t.arm = .streaming) ∧
    (s.arm = .streaming → s.xferEn = false → t.arm = .streaming → t.xferEn = false)

/-- R277, which the spec derives from R261, R265, R271, R272 and R78: vertical sync is asserted exactly on the lines of the
SYNC region, after reset, and after every step that leaves the LFSM not running. -/
def Obligations.VsyncExactlyInTheSyncRegion : Prop :=
  (∀ c : Config, configOk c = true →
    MachineInv (State.resetWith c) ∧
      ((State.resetWith c).vsync = true ↔ region c (State.resetWith c).line.toNat = .sync)) ∧
  ∀ s t : State, MachineInv s → step s = .next t → t.lfsmActive = false →
    (t.vsync = true ↔ region t.cfg t.line.toNat = .sync)

/-- R319: after `T_EXIT` the engine is clean, and the completion flag is set only by a transfer that only `L_ARM` enables. -/
def Obligations.TExitLeavesACleanEngine : Prop :=
  (∀ s t : State, MachineInv s → exec .tExit s = .next t →
    t.arm = .idle ∧ t.tcFlag = false ∧ t.tcClrPend = false ∧ t.tcPend = false ∧ t.xferEn = false ∧
      t.pclkRun = false ∧ t.out = t.cfg.blankValue) ∧
  ∀ (i : Instr) (s t : State), exec i s = .next t →
    (s.tcFlag = false → t.tcFlag = true → s.xferEn = true) ∧ (s.xferEn = false → t.xferEn = true → i = .lArm)

/-- R103: the trailing cell of both buffers holds `BLANK_VALUE` in every state whose memory is canonical, and no operation
changes it. -/
def Obligations.TrailingCellIsAlwaysBlank : Prop :=
  (∀ (s : State) (b : Bool), configOk s.cfg = true → Memory.wf s.cfg s.mem →
    cell s b s.cfg.visiblePixels = some s.cfg.blankValue) ∧
  ∀ (i : Instr) (s t : State) (b : Bool), exec i s = .next t →
    cell t b s.cfg.visiblePixels = cell s b s.cfg.visiblePixels

/-- R106: while the generator runs no operation writes a cell of the display buffer; so nothing writes a buffer that an armed
or streaming transfer reads. -/
def Obligations.NothingWritesTheDisplayBuffer : Prop :=
  ∀ (i : Instr) (s t : State) (j : Nat), exec i s = .next t → j ≤ s.cfg.visiblePixels →
    (s.run = true → cell t s.display j = cell s s.display j) ∧
    (MachineInv s → s.arm ≠ .idle → cell t s.src j = cell s s.src j)

/-- R106, R238: a tick reads no cell but the display buffer's: with other contents of the draw buffer it does the same. -/
def Obligations.TickReadsOnlyTheDisplayBuffer : Prop :=
  ∀ (s : State) (m : Memory) (n : BitVec 16), MachineInv s →
    (∀ j, j ≤ s.cfg.visiblePixels → cell { s with mem := m } s.display j = cell s s.display j) →
    exec (.tick n) { s with mem := m } = mapState (fun t => { t with mem := m }) (exec (.tick n) s)

/-- R461: in a run that meets `FAIR_TC_CLEAR`, a pending clear is followed by a state in which the flag is clear. -/
def Obligations.FairClearClearsTheFlag : Prop :=
  ∀ r : Nat → State, IsRun r → FairTcClear r → ∀ n, (r n).tcClrPend = true → ∃ m, n ≤ m ∧ (r m).tcFlag = false

end
end

