-- ==== Sys2Proof/Laws/State.lean ====
section
/-! SUPPORT. For every named update of the state, what it leaves in every field (true by rfl): the simp set that keeps later
proofs from unfolding a record update. Then the same for the updates that draw a free input. -/

namespace Sys2Proof.Machine

/-! ### raiseFault f s -/

@[simp] theorem raiseFault_cfg (f : FaultCode) (s : State) : (raiseFault f s).cfg = s.cfg := rfl
@[simp] theorem raiseFault_run (f : FaultCode) (s : State) : (raiseFault f s).run = s.run := rfl
@[simp] theorem raiseFault_lineIe (f : FaultCode) (s : State) : (raiseFault f s).lineIe = s.lineIe := rfl
@[simp] theorem raiseFault_tcIe (f : FaultCode) (s : State) : (raiseFault f s).tcIe = s.tcIe := rfl
@[simp] theorem raiseFault_hcnt (f : FaultCode) (s : State) : (raiseFault f s).hcnt = s.hcnt := rfl
@[simp] theorem raiseFault_line (f : FaultCode) (s : State) : (raiseFault f s).line = s.line := rfl
@[simp] theorem raiseFault_frame (f : FaultCode) (s : State) : (raiseFault f s).frame = s.frame := rfl
@[simp] theorem raiseFault_vsync (f : FaultCode) (s : State) : (raiseFault f s).vsync = s.vsync := rfl
@[simp] theorem raiseFault_display (f : FaultCode) (s : State) : (raiseFault f s).display = s.display := rfl
@[simp] theorem raiseFault_mem (f : FaultCode) (s : State) : (raiseFault f s).mem = s.mem := rfl
@[simp] theorem raiseFault_arm (f : FaultCode) (s : State) : (raiseFault f s).arm = s.arm := rfl
@[simp] theorem raiseFault_src (f : FaultCode) (s : State) : (raiseFault f s).src = s.src := rfl
@[simp] theorem raiseFault_xidx (f : FaultCode) (s : State) : (raiseFault f s).xidx = s.xidx := rfl
@[simp] theorem raiseFault_xferEn (f : FaultCode) (s : State) : (raiseFault f s).xferEn = s.xferEn := rfl
@[simp] theorem raiseFault_pclkRun (f : FaultCode) (s : State) : (raiseFault f s).pclkRun = s.pclkRun := rfl
@[simp] theorem raiseFault_pdiv (f : FaultCode) (s : State) : (raiseFault f s).pdiv = s.pdiv := rfl
@[simp] theorem raiseFault_out (f : FaultCode) (s : State) : (raiseFault f s).out = s.out := rfl
@[simp] theorem raiseFault_lfsmActive (f : FaultCode) (s : State) : (raiseFault f s).lfsmActive = s.lfsmActive := rfl
@[simp] theorem raiseFault_lpc (f : FaultCode) (s : State) : (raiseFault f s).lpc = s.lpc := rfl
@[simp] theorem raiseFault_tchActive (f : FaultCode) (s : State) : (raiseFault f s).tchActive = s.tchActive := rfl
@[simp] theorem raiseFault_tpc (f : FaultCode) (s : State) : (raiseFault f s).tpc = s.tpc := rfl
@[simp] theorem raiseFault_lineFlag (f : FaultCode) (s : State) : (raiseFault f s).lineFlag = s.lineFlag := rfl
@[simp] theorem raiseFault_linePend (f : FaultCode) (s : State) : (raiseFault f s).linePend = s.linePend := rfl
@[simp] theorem raiseFault_tcFlag (f : FaultCode) (s : State) : (raiseFault f s).tcFlag = s.tcFlag := rfl
@[simp] theorem raiseFault_tcPend (f : FaultCode) (s : State) : (raiseFault f s).tcPend = s.tcPend := rfl
@[simp] theorem raiseFault_tcClrPend (f : FaultCode) (s : State) : (raiseFault f s).tcClrPend = s.tcClrPend := rfl
@[simp] theorem raiseFault_cbreq (f : FaultCode) (s : State) : (raiseFault f s).cbreq = s.cbreq := rfl
@[simp] theorem raiseFault_fault (f : FaultCode) (s : State) : (raiseFault f s).fault = s.fault ||| faultBit f := rfl
@[simp] theorem raiseFault_refused (f : FaultCode) (s : State) : (raiseFault f s).refused = s.refused := rfl
@[simp] theorem raiseFault_maxline (f : FaultCode) (s : State) : (raiseFault f s).maxline = s.maxline := rfl
@[simp] theorem raiseFault_lineTicks (f : FaultCode) (s : State) : (raiseFault f s).lineTicks = s.lineTicks := rfl
@[simp] theorem raiseFault_stream (f : FaultCode) (s : State) : (raiseFault f s).stream = s.stream := rfl
@[simp] theorem raiseFault_ticksLeft (f : FaultCode) (s : State) : (raiseFault f s).ticksLeft = s.ticksLeft := rfl
@[simp] theorem raiseFault_turns (f : FaultCode) (s : State) : (raiseFault f s).turns = s.turns := rfl
@[simp] theorem raiseFault_draws (f : FaultCode) (s : State) : (raiseFault f s).draws = s.draws := rfl
@[simp] theorem raiseFault_drawn (f : FaultCode) (s : State) : (raiseFault f s).drawn = s.drawn := rfl
@[simp] theorem raiseFault_replies (f : FaultCode) (s : State) : (raiseFault f s).replies = s.replies := rfl

/-! ### memWrite b i v s -/

@[simp] theorem memWrite_cfg (b : Bool) (i : Nat) (v : Pixel) (s : State) : (memWrite b i v s).cfg = s.cfg := rfl
@[simp] theorem memWrite_run (b : Bool) (i : Nat) (v : Pixel) (s : State) : (memWrite b i v s).run = s.run := rfl
@[simp] theorem memWrite_lineIe (b : Bool) (i : Nat) (v : Pixel) (s : State) : (memWrite b i v s).lineIe = s.lineIe := rfl
@[simp] theorem memWrite_tcIe (b : Bool) (i : Nat) (v : Pixel) (s : State) : (memWrite b i v s).tcIe = s.tcIe := rfl
@[simp] theorem memWrite_hcnt (b : Bool) (i : Nat) (v : Pixel) (s : State) : (memWrite b i v s).hcnt = s.hcnt := rfl
@[simp] theorem memWrite_line (b : Bool) (i : Nat) (v : Pixel) (s : State) : (memWrite b i v s).line = s.line := rfl
@[simp] theorem memWrite_frame (b : Bool) (i : Nat) (v : Pixel) (s : State) : (memWrite b i v s).frame = s.frame := rfl
@[simp] theorem memWrite_vsync (b : Bool) (i : Nat) (v : Pixel) (s : State) : (memWrite b i v s).vsync = s.vsync := rfl
@[simp] theorem memWrite_display (b : Bool) (i : Nat) (v : Pixel) (s : State) : (memWrite b i v s).display = s.display := rfl
@[simp] theorem memWrite_mem (b : Bool) (i : Nat) (v : Pixel) (s : State) : (memWrite b i v s).mem = memInsert (cellKey b i) v s.mem := rfl
@[simp] theorem memWrite_arm (b : Bool) (i : Nat) (v : Pixel) (s : State) : (memWrite b i v s).arm = s.arm := rfl
@[simp] theorem memWrite_src (b : Bool) (i : Nat) (v : Pixel) (s : State) : (memWrite b i v s).src = s.src := rfl
@[simp] theorem memWrite_xidx (b : Bool) (i : Nat) (v : Pixel) (s : State) : (memWrite b i v s).xidx = s.xidx := rfl
@[simp] theorem memWrite_xferEn (b : Bool) (i : Nat) (v : Pixel) (s : State) : (memWrite b i v s).xferEn = s.xferEn := rfl
@[simp] theorem memWrite_pclkRun (b : Bool) (i : Nat) (v : Pixel) (s : State) : (memWrite b i v s).pclkRun = s.pclkRun := rfl
@[simp] theorem memWrite_pdiv (b : Bool) (i : Nat) (v : Pixel) (s : State) : (memWrite b i v s).pdiv = s.pdiv := rfl
@[simp] theorem memWrite_out (b : Bool) (i : Nat) (v : Pixel) (s : State) : (memWrite b i v s).out = s.out := rfl
@[simp] theorem memWrite_lfsmActive (b : Bool) (i : Nat) (v : Pixel) (s : State) : (memWrite b i v s).lfsmActive = s.lfsmActive := rfl
@[simp] theorem memWrite_lpc (b : Bool) (i : Nat) (v : Pixel) (s : State) : (memWrite b i v s).lpc = s.lpc := rfl
@[simp] theorem memWrite_tchActive (b : Bool) (i : Nat) (v : Pixel) (s : State) : (memWrite b i v s).tchActive = s.tchActive := rfl
@[simp] theorem memWrite_tpc (b : Bool) (i : Nat) (v : Pixel) (s : State) : (memWrite b i v s).tpc = s.tpc := rfl
@[simp] theorem memWrite_lineFlag (b : Bool) (i : Nat) (v : Pixel) (s : State) : (memWrite b i v s).lineFlag = s.lineFlag := rfl
@[simp] theorem memWrite_linePend (b : Bool) (i : Nat) (v : Pixel) (s : State) : (memWrite b i v s).linePend = s.linePend := rfl
@[simp] theorem memWrite_tcFlag (b : Bool) (i : Nat) (v : Pixel) (s : State) : (memWrite b i v s).tcFlag = s.tcFlag := rfl
@[simp] theorem memWrite_tcPend (b : Bool) (i : Nat) (v : Pixel) (s : State) : (memWrite b i v s).tcPend = s.tcPend := rfl
@[simp] theorem memWrite_tcClrPend (b : Bool) (i : Nat) (v : Pixel) (s : State) : (memWrite b i v s).tcClrPend = s.tcClrPend := rfl
@[simp] theorem memWrite_cbreq (b : Bool) (i : Nat) (v : Pixel) (s : State) : (memWrite b i v s).cbreq = s.cbreq := rfl
@[simp] theorem memWrite_fault (b : Bool) (i : Nat) (v : Pixel) (s : State) : (memWrite b i v s).fault = s.fault := rfl
@[simp] theorem memWrite_refused (b : Bool) (i : Nat) (v : Pixel) (s : State) : (memWrite b i v s).refused = s.refused := rfl
@[simp] theorem memWrite_maxline (b : Bool) (i : Nat) (v : Pixel) (s : State) : (memWrite b i v s).maxline = s.maxline := rfl
@[simp] theorem memWrite_lineTicks (b : Bool) (i : Nat) (v : Pixel) (s : State) : (memWrite b i v s).lineTicks = s.lineTicks := rfl
@[simp] theorem memWrite_stream (b : Bool) (i : Nat) (v : Pixel) (s : State) : (memWrite b i v s).stream = s.stream := rfl
@[simp] theorem memWrite_ticksLeft (b : Bool) (i : Nat) (v : Pixel) (s : State) : (memWrite b i v s).ticksLeft = s.ticksLeft := rfl
@[simp] theorem memWrite_turns (b : Bool) (i : Nat) (v : Pixel) (s : State) : (memWrite b i v s).turns = s.turns := rfl
@[simp] theorem memWrite_draws (b : Bool) (i : Nat) (v : Pixel) (s : State) : (memWrite b i v s).draws = s.draws := rfl
@[simp] theorem memWrite_drawn (b : Bool) (i : Nat) (v : Pixel) (s : State) : (memWrite b i v s).drawn = s.drawn := rfl
@[simp] theorem memWrite_replies (b : Bool) (i : Nat) (v : Pixel) (s : State) : (memWrite b i v s).replies = s.replies := rfl

/-! ### answer w s -/

@[simp] theorem answer_cfg (w : Word) (s : State) : (answer w s).cfg = s.cfg := rfl
@[simp] theorem answer_run (w : Word) (s : State) : (answer w s).run = s.run := rfl
@[simp] theorem answer_lineIe (w : Word) (s : State) : (answer w s).lineIe = s.lineIe := rfl
@[simp] theorem answer_tcIe (w : Word) (s : State) : (answer w s).tcIe = s.tcIe := rfl
@[simp] theorem answer_hcnt (w : Word) (s : State) : (answer w s).hcnt = s.hcnt := rfl
@[simp] theorem answer_line (w : Word) (s : State) : (answer w s).line = s.line := rfl
@[simp] theorem answer_frame (w : Word) (s : State) : (answer w s).frame = s.frame := rfl
@[simp] theorem answer_vsync (w : Word) (s : State) : (answer w s).vsync = s.vsync := rfl
@[simp] theorem answer_display (w : Word) (s : State) : (answer w s).display = s.display := rfl
@[simp] theorem answer_mem (w : Word) (s : State) : (answer w s).mem = s.mem := rfl
@[simp] theorem answer_arm (w : Word) (s : State) : (answer w s).arm = s.arm := rfl
@[simp] theorem answer_src (w : Word) (s : State) : (answer w s).src = s.src := rfl
@[simp] theorem answer_xidx (w : Word) (s : State) : (answer w s).xidx = s.xidx := rfl
@[simp] theorem answer_xferEn (w : Word) (s : State) : (answer w s).xferEn = s.xferEn := rfl
@[simp] theorem answer_pclkRun (w : Word) (s : State) : (answer w s).pclkRun = s.pclkRun := rfl
@[simp] theorem answer_pdiv (w : Word) (s : State) : (answer w s).pdiv = s.pdiv := rfl
@[simp] theorem answer_out (w : Word) (s : State) : (answer w s).out = s.out := rfl
@[simp] theorem answer_lfsmActive (w : Word) (s : State) : (answer w s).lfsmActive = s.lfsmActive := rfl
@[simp] theorem answer_lpc (w : Word) (s : State) : (answer w s).lpc = s.lpc := rfl
@[simp] theorem answer_tchActive (w : Word) (s : State) : (answer w s).tchActive = s.tchActive := rfl
@[simp] theorem answer_tpc (w : Word) (s : State) : (answer w s).tpc = s.tpc := rfl
@[simp] theorem answer_lineFlag (w : Word) (s : State) : (answer w s).lineFlag = s.lineFlag := rfl
@[simp] theorem answer_linePend (w : Word) (s : State) : (answer w s).linePend = s.linePend := rfl
@[simp] theorem answer_tcFlag (w : Word) (s : State) : (answer w s).tcFlag = s.tcFlag := rfl
@[simp] theorem answer_tcPend (w : Word) (s : State) : (answer w s).tcPend = s.tcPend := rfl
@[simp] theorem answer_tcClrPend (w : Word) (s : State) : (answer w s).tcClrPend = s.tcClrPend := rfl
@[simp] theorem answer_cbreq (w : Word) (s : State) : (answer w s).cbreq = s.cbreq := rfl
@[simp] theorem answer_fault (w : Word) (s : State) : (answer w s).fault = s.fault := rfl
@[simp] theorem answer_refused (w : Word) (s : State) : (answer w s).refused = s.refused := rfl
@[simp] theorem answer_maxline (w : Word) (s : State) : (answer w s).maxline = s.maxline := rfl
@[simp] theorem answer_lineTicks (w : Word) (s : State) : (answer w s).lineTicks = s.lineTicks := rfl
@[simp] theorem answer_stream (w : Word) (s : State) : (answer w s).stream = s.stream := rfl
@[simp] theorem answer_ticksLeft (w : Word) (s : State) : (answer w s).ticksLeft = s.ticksLeft := rfl
@[simp] theorem answer_turns (w : Word) (s : State) : (answer w s).turns = s.turns := rfl
@[simp] theorem answer_draws (w : Word) (s : State) : (answer w s).draws = s.draws := rfl
@[simp] theorem answer_drawn (w : Word) (s : State) : (answer w s).drawn = s.drawn := rfl
@[simp] theorem answer_replies (w : Word) (s : State) : (answer w s).replies = w :: s.replies := rfl

/-! ### takeInterrupt .line s -/

@[simp] theorem takeInterrupt_line_cfg (s : State) : (takeInterrupt .line s).cfg = s.cfg := rfl
@[simp] theorem takeInterrupt_line_run (s : State) : (takeInterrupt .line s).run = s.run := rfl
@[simp] theorem takeInterrupt_line_lineIe (s : State) : (takeInterrupt .line s).lineIe = s.lineIe := rfl
@[simp] theorem takeInterrupt_line_tcIe (s : State) : (takeInterrupt .line s).tcIe = s.tcIe := rfl
@[simp] theorem takeInterrupt_line_hcnt (s : State) : (takeInterrupt .line s).hcnt = s.hcnt := rfl
@[simp] theorem takeInterrupt_line_line (s : State) : (takeInterrupt .line s).line = s.line := rfl
@[simp] theorem takeInterrupt_line_frame (s : State) : (takeInterrupt .line s).frame = s.frame := rfl
@[simp] theorem takeInterrupt_line_vsync (s : State) : (takeInterrupt .line s).vsync = s.vsync := rfl
@[simp] theorem takeInterrupt_line_display (s : State) : (takeInterrupt .line s).display = s.display := rfl
@[simp] theorem takeInterrupt_line_mem (s : State) : (takeInterrupt .line s).mem = s.mem := rfl
@[simp] theorem takeInterrupt_line_arm (s : State) : (takeInterrupt .line s).arm = s.arm := rfl
@[simp] theorem takeInterrupt_line_src (s : State) : (takeInterrupt .line s).src = s.src := rfl
@[simp] theorem takeInterrupt_line_xidx (s : State) : (takeInterrupt .line s).xidx = s.xidx := rfl
@[simp] theorem takeInterrupt_line_xferEn (s : State) : (takeInterrupt .line s).xferEn = s.xferEn := rfl
@[simp] theorem takeInterrupt_line_pclkRun (s : State) : (takeInterrupt .line s).pclkRun = s.pclkRun := rfl
@[simp] theorem takeInterrupt_line_pdiv (s : State) : (takeInterrupt .line s).pdiv = s.pdiv := rfl
@[simp] theorem takeInterrupt_line_out (s : State) : (takeInterrupt .line s).out = s.out := rfl
@[simp] theorem takeInterrupt_line_lfsmActive (s : State) : (takeInterrupt .line s).lfsmActive = true := rfl
@[simp] theorem takeInterrupt_line_lpc (s : State) : (takeInterrupt .line s).lpc = some .ack := rfl
@[simp] theorem takeInterrupt_line_tchActive (s : State) : (takeInterrupt .line s).tchActive = s.tchActive := rfl
@[simp] theorem takeInterrupt_line_tpc (s : State) : (takeInterrupt .line s).tpc = s.tpc := rfl
@[simp] theorem takeInterrupt_line_lineFlag (s : State) : (takeInterrupt .line s).lineFlag = s.lineFlag := rfl
@[simp] theorem takeInterrupt_line_linePend (s : State) : (takeInterrupt .line s).linePend = false := rfl
@[simp] theorem takeInterrupt_line_tcFlag (s : State) : (takeInterrupt .line s).tcFlag = s.tcFlag := rfl
@[simp] theorem takeInterrupt_line_tcPend (s : State) : (takeInterrupt .line s).tcPend = s.tcPend := rfl
@[simp] theorem takeInterrupt_line_tcClrPend (s : State) : (takeInterrupt .line s).tcClrPend = s.tcClrPend := rfl
@[simp] theorem takeInterrupt_line_cbreq (s : State) : (takeInterrupt .line s).cbreq = s.cbreq := rfl
@[simp] theorem takeInterrupt_line_fault (s : State) : (takeInterrupt .line s).fault = s.fault := rfl
@[simp] theorem takeInterrupt_line_refused (s : State) : (takeInterrupt .line s).refused = s.refused := rfl
@[simp] theorem takeInterrupt_line_maxline (s : State) : (takeInterrupt .line s).maxline = s.maxline := rfl
@[simp] theorem takeInterrupt_line_lineTicks (s : State) : (takeInterrupt .line s).lineTicks = s.lineTicks := rfl
@[simp] theorem takeInterrupt_line_stream (s : State) : (takeInterrupt .line s).stream = s.stream := rfl
@[simp] theorem takeInterrupt_line_ticksLeft (s : State) : (takeInterrupt .line s).ticksLeft = s.ticksLeft := rfl
@[simp] theorem takeInterrupt_line_turns (s : State) : (takeInterrupt .line s).turns = s.turns := rfl
@[simp] theorem takeInterrupt_line_draws (s : State) : (takeInterrupt .line s).draws = s.draws := rfl
@[simp] theorem takeInterrupt_line_drawn (s : State) : (takeInterrupt .line s).drawn = s.drawn := rfl
@[simp] theorem takeInterrupt_line_replies (s : State) : (takeInterrupt .line s).replies = s.replies := rfl

/-! ### takeInterrupt .tc s -/

@[simp] theorem takeInterrupt_tc_cfg (s : State) : (takeInterrupt .tc s).cfg = s.cfg := rfl
@[simp] theorem takeInterrupt_tc_run (s : State) : (takeInterrupt .tc s).run = s.run := rfl
@[simp] theorem takeInterrupt_tc_lineIe (s : State) : (takeInterrupt .tc s).lineIe = s.lineIe := rfl
@[simp] theorem takeInterrupt_tc_tcIe (s : State) : (takeInterrupt .tc s).tcIe = s.tcIe := rfl
@[simp] theorem takeInterrupt_tc_hcnt (s : State) : (takeInterrupt .tc s).hcnt = s.hcnt := rfl
@[simp] theorem takeInterrupt_tc_line (s : State) : (takeInterrupt .tc s).line = s.line := rfl
@[simp] theorem takeInterrupt_tc_frame (s : State) : (takeInterrupt .tc s).frame = s.frame := rfl
@[simp] theorem takeInterrupt_tc_vsync (s : State) : (takeInterrupt .tc s).vsync = s.vsync := rfl
@[simp] theorem takeInterrupt_tc_display (s : State) : (takeInterrupt .tc s).display = s.display := rfl
@[simp] theorem takeInterrupt_tc_mem (s : State) : (takeInterrupt .tc s).mem = s.mem := rfl
@[simp] theorem takeInterrupt_tc_arm (s : State) : (takeInterrupt .tc s).arm = s.arm := rfl
@[simp] theorem takeInterrupt_tc_src (s : State) : (takeInterrupt .tc s).src = s.src := rfl
@[simp] theorem takeInterrupt_tc_xidx (s : State) : (takeInterrupt .tc s).xidx = s.xidx := rfl
@[simp] theorem takeInterrupt_tc_xferEn (s : State) : (takeInterrupt .tc s).xferEn = s.xferEn := rfl
@[simp] theorem takeInterrupt_tc_pclkRun (s : State) : (takeInterrupt .tc s).pclkRun = s.pclkRun := rfl
@[simp] theorem takeInterrupt_tc_pdiv (s : State) : (takeInterrupt .tc s).pdiv = s.pdiv := rfl
@[simp] theorem takeInterrupt_tc_out (s : State) : (takeInterrupt .tc s).out = s.out := rfl
@[simp] theorem takeInterrupt_tc_lfsmActive (s : State) : (takeInterrupt .tc s).lfsmActive = s.lfsmActive := rfl
@[simp] theorem takeInterrupt_tc_lpc (s : State) : (takeInterrupt .tc s).lpc = s.lpc := rfl
@[simp] theorem takeInterrupt_tc_tchActive (s : State) : (takeInterrupt .tc s).tchActive = true := rfl
@[simp] theorem takeInterrupt_tc_tpc (s : State) : (takeInterrupt .tc s).tpc = some .blank := rfl
@[simp] theorem takeInterrupt_tc_lineFlag (s : State) : (takeInterrupt .tc s).lineFlag = s.lineFlag := rfl
@[simp] theorem takeInterrupt_tc_linePend (s : State) : (takeInterrupt .tc s).linePend = s.linePend := rfl
@[simp] theorem takeInterrupt_tc_tcFlag (s : State) : (takeInterrupt .tc s).tcFlag = s.tcFlag := rfl
@[simp] theorem takeInterrupt_tc_tcPend (s : State) : (takeInterrupt .tc s).tcPend = false := rfl
@[simp] theorem takeInterrupt_tc_tcClrPend (s : State) : (takeInterrupt .tc s).tcClrPend = s.tcClrPend := rfl
@[simp] theorem takeInterrupt_tc_cbreq (s : State) : (takeInterrupt .tc s).cbreq = s.cbreq := rfl
@[simp] theorem takeInterrupt_tc_fault (s : State) : (takeInterrupt .tc s).fault = s.fault := rfl
@[simp] theorem takeInterrupt_tc_refused (s : State) : (takeInterrupt .tc s).refused = s.refused := rfl
@[simp] theorem takeInterrupt_tc_maxline (s : State) : (takeInterrupt .tc s).maxline = s.maxline := rfl
@[simp] theorem takeInterrupt_tc_lineTicks (s : State) : (takeInterrupt .tc s).lineTicks = s.lineTicks := rfl
@[simp] theorem takeInterrupt_tc_stream (s : State) : (takeInterrupt .tc s).stream = s.stream := rfl
@[simp] theorem takeInterrupt_tc_ticksLeft (s : State) : (takeInterrupt .tc s).ticksLeft = s.ticksLeft := rfl
@[simp] theorem takeInterrupt_tc_turns (s : State) : (takeInterrupt .tc s).turns = s.turns := rfl
@[simp] theorem takeInterrupt_tc_draws (s : State) : (takeInterrupt .tc s).draws = s.draws := rfl
@[simp] theorem takeInterrupt_tc_drawn (s : State) : (takeInterrupt .tc s).drawn = s.drawn := rfl
@[simp] theorem takeInterrupt_tc_replies (s : State) : (takeInterrupt .tc s).replies = s.replies := rfl

/-! ### returnInterrupt .line s -/

@[simp] theorem returnInterrupt_line_cfg (s : State) : (returnInterrupt .line s).cfg = s.cfg := rfl
@[simp] theorem returnInterrupt_line_run (s : State) : (returnInterrupt .line s).run = s.run := rfl
@[simp] theorem returnInterrupt_line_lineIe (s : State) : (returnInterrupt .line s).lineIe = s.lineIe := rfl
@[simp] theorem returnInterrupt_line_tcIe (s : State) : (returnInterrupt .line s).tcIe = s.tcIe := rfl
@[simp] theorem returnInterrupt_line_hcnt (s : State) : (returnInterrupt .line s).hcnt = s.hcnt := rfl
@[simp] theorem returnInterrupt_line_line (s : State) : (returnInterrupt .line s).line = s.line := rfl
@[simp] theorem returnInterrupt_line_frame (s : State) : (returnInterrupt .line s).frame = s.frame := rfl
@[simp] theorem returnInterrupt_line_vsync (s : State) : (returnInterrupt .line s).vsync = s.vsync := rfl
@[simp] theorem returnInterrupt_line_display (s : State) : (returnInterrupt .line s).display = s.display := rfl
@[simp] theorem returnInterrupt_line_mem (s : State) : (returnInterrupt .line s).mem = s.mem := rfl
@[simp] theorem returnInterrupt_line_arm (s : State) : (returnInterrupt .line s).arm = s.arm := rfl
@[simp] theorem returnInterrupt_line_src (s : State) : (returnInterrupt .line s).src = s.src := rfl
@[simp] theorem returnInterrupt_line_xidx (s : State) : (returnInterrupt .line s).xidx = s.xidx := rfl
@[simp] theorem returnInterrupt_line_xferEn (s : State) : (returnInterrupt .line s).xferEn = s.xferEn := rfl
@[simp] theorem returnInterrupt_line_pclkRun (s : State) : (returnInterrupt .line s).pclkRun = s.pclkRun := rfl
@[simp] theorem returnInterrupt_line_pdiv (s : State) : (returnInterrupt .line s).pdiv = s.pdiv := rfl
@[simp] theorem returnInterrupt_line_out (s : State) : (returnInterrupt .line s).out = s.out := rfl
@[simp] theorem returnInterrupt_line_lfsmActive (s : State) : (returnInterrupt .line s).lfsmActive = false := rfl
@[simp] theorem returnInterrupt_line_lpc (s : State) : (returnInterrupt .line s).lpc = none := rfl
@[simp] theorem returnInterrupt_line_tchActive (s : State) : (returnInterrupt .line s).tchActive = s.tchActive := rfl
@[simp] theorem returnInterrupt_line_tpc (s : State) : (returnInterrupt .line s).tpc = s.tpc := rfl
@[simp] theorem returnInterrupt_line_lineFlag (s : State) : (returnInterrupt .line s).lineFlag = s.lineFlag := rfl
@[simp] theorem returnInterrupt_line_linePend (s : State) : (returnInterrupt .line s).linePend = s.linePend := rfl
@[simp] theorem returnInterrupt_line_tcFlag (s : State) : (returnInterrupt .line s).tcFlag = s.tcFlag := rfl
@[simp] theorem returnInterrupt_line_tcPend (s : State) : (returnInterrupt .line s).tcPend = s.tcPend := rfl
@[simp] theorem returnInterrupt_line_tcClrPend (s : State) : (returnInterrupt .line s).tcClrPend = s.tcClrPend := rfl
@[simp] theorem returnInterrupt_line_cbreq (s : State) : (returnInterrupt .line s).cbreq = s.cbreq := rfl
@[simp] theorem returnInterrupt_line_fault (s : State) : (returnInterrupt .line s).fault = s.fault := rfl
@[simp] theorem returnInterrupt_line_refused (s : State) : (returnInterrupt .line s).refused = s.refused := rfl
@[simp] theorem returnInterrupt_line_maxline (s : State) : (returnInterrupt .line s).maxline = s.maxline := rfl
@[simp] theorem returnInterrupt_line_lineTicks (s : State) : (returnInterrupt .line s).lineTicks = s.lineTicks := rfl
@[simp] theorem returnInterrupt_line_stream (s : State) : (returnInterrupt .line s).stream = s.stream := rfl
@[simp] theorem returnInterrupt_line_ticksLeft (s : State) : (returnInterrupt .line s).ticksLeft = s.ticksLeft := rfl
@[simp] theorem returnInterrupt_line_turns (s : State) : (returnInterrupt .line s).turns = s.turns := rfl
@[simp] theorem returnInterrupt_line_draws (s : State) : (returnInterrupt .line s).draws = s.draws := rfl
@[simp] theorem returnInterrupt_line_drawn (s : State) : (returnInterrupt .line s).drawn = s.drawn := rfl
@[simp] theorem returnInterrupt_line_replies (s : State) : (returnInterrupt .line s).replies = s.replies := rfl

/-! ### returnInterrupt .tc s -/

@[simp] theorem returnInterrupt_tc_cfg (s : State) : (returnInterrupt .tc s).cfg = s.cfg := rfl
@[simp] theorem returnInterrupt_tc_run (s : State) : (returnInterrupt .tc s).run = s.run := rfl
@[simp] theorem returnInterrupt_tc_lineIe (s : State) : (returnInterrupt .tc s).lineIe = s.lineIe := rfl
@[simp] theorem returnInterrupt_tc_tcIe (s : State) : (returnInterrupt .tc s).tcIe = s.tcIe := rfl
@[simp] theorem returnInterrupt_tc_hcnt (s : State) : (returnInterrupt .tc s).hcnt = s.hcnt := rfl
@[simp] theorem returnInterrupt_tc_line (s : State) : (returnInterrupt .tc s).line = s.line := rfl
@[simp] theorem returnInterrupt_tc_frame (s : State) : (returnInterrupt .tc s).frame = s.frame := rfl
@[simp] theorem returnInterrupt_tc_vsync (s : State) : (returnInterrupt .tc s).vsync = s.vsync := rfl
@[simp] theorem returnInterrupt_tc_display (s : State) : (returnInterrupt .tc s).display = s.display := rfl
@[simp] theorem returnInterrupt_tc_mem (s : State) : (returnInterrupt .tc s).mem = s.mem := rfl
@[simp] theorem returnInterrupt_tc_arm (s : State) : (returnInterrupt .tc s).arm = s.arm := rfl
@[simp] theorem returnInterrupt_tc_src (s : State) : (returnInterrupt .tc s).src = s.src := rfl
@[simp] theorem returnInterrupt_tc_xidx (s : State) : (returnInterrupt .tc s).xidx = s.xidx := rfl
@[simp] theorem returnInterrupt_tc_xferEn (s : State) : (returnInterrupt .tc s).xferEn = s.xferEn := rfl
@[simp] theorem returnInterrupt_tc_pclkRun (s : State) : (returnInterrupt .tc s).pclkRun = s.pclkRun := rfl
@[simp] theorem returnInterrupt_tc_pdiv (s : State) : (returnInterrupt .tc s).pdiv = s.pdiv := rfl
@[simp] theorem returnInterrupt_tc_out (s : State) : (returnInterrupt .tc s).out = s.out := rfl
@[simp] theorem returnInterrupt_tc_lfsmActive (s : State) : (returnInterrupt .tc s).lfsmActive = s.lfsmActive := rfl
@[simp] theorem returnInterrupt_tc_lpc (s : State) : (returnInterrupt .tc s).lpc = s.lpc := rfl
@[simp] theorem returnInterrupt_tc_tchActive (s : State) : (returnInterrupt .tc s).tchActive = false := rfl
@[simp] theorem returnInterrupt_tc_tpc (s : State) : (returnInterrupt .tc s).tpc = none := rfl
@[simp] theorem returnInterrupt_tc_lineFlag (s : State) : (returnInterrupt .tc s).lineFlag = s.lineFlag := rfl
@[simp] theorem returnInterrupt_tc_linePend (s : State) : (returnInterrupt .tc s).linePend = s.linePend := rfl
@[simp] theorem returnInterrupt_tc_tcFlag (s : State) : (returnInterrupt .tc s).tcFlag = s.tcFlag := rfl
@[simp] theorem returnInterrupt_tc_tcPend (s : State) : (returnInterrupt .tc s).tcPend = s.tcPend := rfl
@[simp] theorem returnInterrupt_tc_tcClrPend (s : State) : (returnInterrupt .tc s).tcClrPend = s.tcClrPend := rfl
@[simp] theorem returnInterrupt_tc_cbreq (s : State) : (returnInterrupt .tc s).cbreq = s.cbreq := rfl
@[simp] theorem returnInterrupt_tc_fault (s : State) : (returnInterrupt .tc s).fault = s.fault := rfl
@[simp] theorem returnInterrupt_tc_refused (s : State) : (returnInterrupt .tc s).refused = s.refused := rfl
@[simp] theorem returnInterrupt_tc_maxline (s : State) : (returnInterrupt .tc s).maxline = s.maxline := rfl
@[simp] theorem returnInterrupt_tc_lineTicks (s : State) : (returnInterrupt .tc s).lineTicks = s.lineTicks := rfl
@[simp] theorem returnInterrupt_tc_stream (s : State) : (returnInterrupt .tc s).stream = s.stream := rfl
@[simp] theorem returnInterrupt_tc_ticksLeft (s : State) : (returnInterrupt .tc s).ticksLeft = s.ticksLeft := rfl
@[simp] theorem returnInterrupt_tc_turns (s : State) : (returnInterrupt .tc s).turns = s.turns := rfl
@[simp] theorem returnInterrupt_tc_draws (s : State) : (returnInterrupt .tc s).draws = s.draws := rfl
@[simp] theorem returnInterrupt_tc_drawn (s : State) : (returnInterrupt .tc s).drawn = s.drawn := rfl
@[simp] theorem returnInterrupt_tc_replies (s : State) : (returnInterrupt .tc s).replies = s.replies := rfl

/-! ### latchLine s -/

@[simp] theorem latchLine_cfg (s : State) : (latchLine s).cfg = s.cfg := rfl
@[simp] theorem latchLine_run (s : State) : (latchLine s).run = s.run := rfl
@[simp] theorem latchLine_lineIe (s : State) : (latchLine s).lineIe = s.lineIe := rfl
@[simp] theorem latchLine_tcIe (s : State) : (latchLine s).tcIe = s.tcIe := rfl
@[simp] theorem latchLine_hcnt (s : State) : (latchLine s).hcnt = s.hcnt := rfl
@[simp] theorem latchLine_line (s : State) : (latchLine s).line = s.line := rfl
@[simp] theorem latchLine_frame (s : State) : (latchLine s).frame = s.frame := rfl
@[simp] theorem latchLine_vsync (s : State) : (latchLine s).vsync = s.vsync := rfl
@[simp] theorem latchLine_display (s : State) : (latchLine s).display = s.display := rfl
@[simp] theorem latchLine_mem (s : State) : (latchLine s).mem = s.mem := rfl
@[simp] theorem latchLine_arm (s : State) : (latchLine s).arm = s.arm := rfl
@[simp] theorem latchLine_src (s : State) : (latchLine s).src = s.src := rfl
@[simp] theorem latchLine_xidx (s : State) : (latchLine s).xidx = s.xidx := rfl
@[simp] theorem latchLine_xferEn (s : State) : (latchLine s).xferEn = s.xferEn := rfl
@[simp] theorem latchLine_pclkRun (s : State) : (latchLine s).pclkRun = s.pclkRun := rfl
@[simp] theorem latchLine_pdiv (s : State) : (latchLine s).pdiv = s.pdiv := rfl
@[simp] theorem latchLine_out (s : State) : (latchLine s).out = s.out := rfl
@[simp] theorem latchLine_lfsmActive (s : State) : (latchLine s).lfsmActive = s.lfsmActive := rfl
@[simp] theorem latchLine_lpc (s : State) : (latchLine s).lpc = s.lpc := rfl
@[simp] theorem latchLine_tchActive (s : State) : (latchLine s).tchActive = s.tchActive := rfl
@[simp] theorem latchLine_tpc (s : State) : (latchLine s).tpc = s.tpc := rfl
@[simp] theorem latchLine_lineFlag (s : State) : (latchLine s).lineFlag = true := rfl
@[simp] theorem latchLine_linePend (s : State) : (latchLine s).linePend = if s.lineIe then true else s.linePend := rfl
@[simp] theorem latchLine_tcFlag (s : State) : (latchLine s).tcFlag = s.tcFlag := rfl
@[simp] theorem latchLine_tcPend (s : State) : (latchLine s).tcPend = s.tcPend := rfl
@[simp] theorem latchLine_tcClrPend (s : State) : (latchLine s).tcClrPend = s.tcClrPend := rfl
@[simp] theorem latchLine_cbreq (s : State) : (latchLine s).cbreq = s.cbreq := rfl
@[simp] theorem latchLine_fault (s : State) : (latchLine s).fault = s.fault := rfl
@[simp] theorem latchLine_refused (s : State) : (latchLine s).refused = s.refused := rfl
@[simp] theorem latchLine_maxline (s : State) : (latchLine s).maxline = s.maxline := rfl
@[simp] theorem latchLine_lineTicks (s : State) : (latchLine s).lineTicks = s.lineTicks := rfl
@[simp] theorem latchLine_stream (s : State) : (latchLine s).stream = s.stream := rfl
@[simp] theorem latchLine_ticksLeft (s : State) : (latchLine s).ticksLeft = s.ticksLeft := rfl
@[simp] theorem latchLine_turns (s : State) : (latchLine s).turns = s.turns := rfl
@[simp] theorem latchLine_draws (s : State) : (latchLine s).draws = s.draws := rfl
@[simp] theorem latchLine_drawn (s : State) : (latchLine s).drawn = s.drawn := rfl
@[simp] theorem latchLine_replies (s : State) : (latchLine s).replies = s.replies := rfl

/-! ### ackLine s -/

@[simp] theorem ackLine_cfg (s : State) : (ackLine s).cfg = s.cfg := rfl
@[simp] theorem ackLine_run (s : State) : (ackLine s).run = s.run := rfl
@[simp] theorem ackLine_lineIe (s : State) : (ackLine s).lineIe = s.lineIe := rfl
@[simp] theorem ackLine_tcIe (s : State) : (ackLine s).tcIe = s.tcIe := rfl
@[simp] theorem ackLine_hcnt (s : State) : (ackLine s).hcnt = s.hcnt := rfl
@[simp] theorem ackLine_line (s : State) : (ackLine s).line = s.line := rfl
@[simp] theorem ackLine_frame (s : State) : (ackLine s).frame = s.frame := rfl
@[simp] theorem ackLine_vsync (s : State) : (ackLine s).vsync = s.vsync := rfl
@[simp] theorem ackLine_display (s : State) : (ackLine s).display = s.display := rfl
@[simp] theorem ackLine_mem (s : State) : (ackLine s).mem = s.mem := rfl
@[simp] theorem ackLine_arm (s : State) : (ackLine s).arm = s.arm := rfl
@[simp] theorem ackLine_src (s : State) : (ackLine s).src = s.src := rfl
@[simp] theorem ackLine_xidx (s : State) : (ackLine s).xidx = s.xidx := rfl
@[simp] theorem ackLine_xferEn (s : State) : (ackLine s).xferEn = s.xferEn := rfl
@[simp] theorem ackLine_pclkRun (s : State) : (ackLine s).pclkRun = s.pclkRun := rfl
@[simp] theorem ackLine_pdiv (s : State) : (ackLine s).pdiv = s.pdiv := rfl
@[simp] theorem ackLine_out (s : State) : (ackLine s).out = s.out := rfl
@[simp] theorem ackLine_lfsmActive (s : State) : (ackLine s).lfsmActive = s.lfsmActive := rfl
@[simp] theorem ackLine_lpc (s : State) : (ackLine s).lpc = s.lpc := rfl
@[simp] theorem ackLine_tchActive (s : State) : (ackLine s).tchActive = s.tchActive := rfl
@[simp] theorem ackLine_tpc (s : State) : (ackLine s).tpc = s.tpc := rfl
@[simp] theorem ackLine_lineFlag (s : State) : (ackLine s).lineFlag = false := rfl
@[simp] theorem ackLine_linePend (s : State) : (ackLine s).linePend = s.linePend := rfl
@[simp] theorem ackLine_tcFlag (s : State) : (ackLine s).tcFlag = s.tcFlag := rfl
@[simp] theorem ackLine_tcPend (s : State) : (ackLine s).tcPend = s.tcPend := rfl
@[simp] theorem ackLine_tcClrPend (s : State) : (ackLine s).tcClrPend = s.tcClrPend := rfl
@[simp] theorem ackLine_cbreq (s : State) : (ackLine s).cbreq = s.cbreq := rfl
@[simp] theorem ackLine_fault (s : State) : (ackLine s).fault = s.fault := rfl
@[simp] theorem ackLine_refused (s : State) : (ackLine s).refused = s.refused := rfl
@[simp] theorem ackLine_maxline (s : State) : (ackLine s).maxline = s.maxline := rfl
@[simp] theorem ackLine_lineTicks (s : State) : (ackLine s).lineTicks = s.lineTicks := rfl
@[simp] theorem ackLine_stream (s : State) : (ackLine s).stream = s.stream := rfl
@[simp] theorem ackLine_ticksLeft (s : State) : (ackLine s).ticksLeft = s.ticksLeft := rfl
@[simp] theorem ackLine_turns (s : State) : (ackLine s).turns = s.turns := rfl
@[simp] theorem ackLine_draws (s : State) : (ackLine s).draws = s.draws := rfl
@[simp] theorem ackLine_drawn (s : State) : (ackLine s).drawn = s.drawn := rfl
@[simp] theorem ackLine_replies (s : State) : (ackLine s).replies = s.replies := rfl

/-! ### latchTc s -/

@[simp] theorem latchTc_cfg (s : State) : (latchTc s).cfg = s.cfg := rfl
@[simp] theorem latchTc_run (s : State) : (latchTc s).run = s.run := rfl
@[simp] theorem latchTc_lineIe (s : State) : (latchTc s).lineIe = s.lineIe := rfl
@[simp] theorem latchTc_tcIe (s : State) : (latchTc s).tcIe = s.tcIe := rfl
@[simp] theorem latchTc_hcnt (s : State) : (latchTc s).hcnt = s.hcnt := rfl
@[simp] theorem latchTc_line (s : State) : (latchTc s).line = s.line := rfl
@[simp] theorem latchTc_frame (s : State) : (latchTc s).frame = s.frame := rfl
@[simp] theorem latchTc_vsync (s : State) : (latchTc s).vsync = s.vsync := rfl
@[simp] theorem latchTc_display (s : State) : (latchTc s).display = s.display := rfl
@[simp] theorem latchTc_mem (s : State) : (latchTc s).mem = s.mem := rfl
@[simp] theorem latchTc_arm (s : State) : (latchTc s).arm = s.arm := rfl
@[simp] theorem latchTc_src (s : State) : (latchTc s).src = s.src := rfl
@[simp] theorem latchTc_xidx (s : State) : (latchTc s).xidx = s.xidx := rfl
@[simp] theorem latchTc_xferEn (s : State) : (latchTc s).xferEn = s.xferEn := rfl
@[simp] theorem latchTc_pclkRun (s : State) : (latchTc s).pclkRun = s.pclkRun := rfl
@[simp] theorem latchTc_pdiv (s : State) : (latchTc s).pdiv = s.pdiv := rfl
@[simp] theorem latchTc_out (s : State) : (latchTc s).out = s.out := rfl
@[simp] theorem latchTc_lfsmActive (s : State) : (latchTc s).lfsmActive = s.lfsmActive := rfl
@[simp] theorem latchTc_lpc (s : State) : (latchTc s).lpc = s.lpc := rfl
@[simp] theorem latchTc_tchActive (s : State) : (latchTc s).tchActive = s.tchActive := rfl
@[simp] theorem latchTc_tpc (s : State) : (latchTc s).tpc = s.tpc := rfl
@[simp] theorem latchTc_lineFlag (s : State) : (latchTc s).lineFlag = s.lineFlag := rfl
@[simp] theorem latchTc_linePend (s : State) : (latchTc s).linePend = s.linePend := rfl
@[simp] theorem latchTc_tcFlag (s : State) : (latchTc s).tcFlag = true := rfl
@[simp] theorem latchTc_tcPend (s : State) : (latchTc s).tcPend = if s.tcIe then true else s.tcPend := rfl
@[simp] theorem latchTc_tcClrPend (s : State) : (latchTc s).tcClrPend = s.tcClrPend := rfl
@[simp] theorem latchTc_cbreq (s : State) : (latchTc s).cbreq = s.cbreq := rfl
@[simp] theorem latchTc_fault (s : State) : (latchTc s).fault = s.fault := rfl
@[simp] theorem latchTc_refused (s : State) : (latchTc s).refused = s.refused := rfl
@[simp] theorem latchTc_maxline (s : State) : (latchTc s).maxline = s.maxline := rfl
@[simp] theorem latchTc_lineTicks (s : State) : (latchTc s).lineTicks = s.lineTicks := rfl
@[simp] theorem latchTc_stream (s : State) : (latchTc s).stream = s.stream := rfl
@[simp] theorem latchTc_ticksLeft (s : State) : (latchTc s).ticksLeft = s.ticksLeft := rfl
@[simp] theorem latchTc_turns (s : State) : (latchTc s).turns = s.turns := rfl
@[simp] theorem latchTc_draws (s : State) : (latchTc s).draws = s.draws := rfl
@[simp] theorem latchTc_drawn (s : State) : (latchTc s).drawn = s.drawn := rfl
@[simp] theorem latchTc_replies (s : State) : (latchTc s).replies = s.replies := rfl

/-! ### clearTc s -/

@[simp] theorem clearTc_cfg (s : State) : (clearTc s).cfg = s.cfg := rfl
@[simp] theorem clearTc_run (s : State) : (clearTc s).run = s.run := rfl
@[simp] theorem clearTc_lineIe (s : State) : (clearTc s).lineIe = s.lineIe := rfl
@[simp] theorem clearTc_tcIe (s : State) : (clearTc s).tcIe = s.tcIe := rfl
@[simp] theorem clearTc_hcnt (s : State) : (clearTc s).hcnt = s.hcnt := rfl
@[simp] theorem clearTc_line (s : State) : (clearTc s).line = s.line := rfl
@[simp] theorem clearTc_frame (s : State) : (clearTc s).frame = s.frame := rfl
@[simp] theorem clearTc_vsync (s : State) : (clearTc s).vsync = s.vsync := rfl
@[simp] theorem clearTc_display (s : State) : (clearTc s).display = s.display := rfl
@[simp] theorem clearTc_mem (s : State) : (clearTc s).mem = s.mem := rfl
@[simp] theorem clearTc_arm (s : State) : (clearTc s).arm = s.arm := rfl
@[simp] theorem clearTc_src (s : State) : (clearTc s).src = s.src := rfl
@[simp] theorem clearTc_xidx (s : State) : (clearTc s).xidx = s.xidx := rfl
@[simp] theorem clearTc_xferEn (s : State) : (clearTc s).xferEn = s.xferEn := rfl
@[simp] theorem clearTc_pclkRun (s : State) : (clearTc s).pclkRun = s.pclkRun := rfl
@[simp] theorem clearTc_pdiv (s : State) : (clearTc s).pdiv = s.pdiv := rfl
@[simp] theorem clearTc_out (s : State) : (clearTc s).out = s.out := rfl
@[simp] theorem clearTc_lfsmActive (s : State) : (clearTc s).lfsmActive = s.lfsmActive := rfl
@[simp] theorem clearTc_lpc (s : State) : (clearTc s).lpc = s.lpc := rfl
@[simp] theorem clearTc_tchActive (s : State) : (clearTc s).tchActive = s.tchActive := rfl
@[simp] theorem clearTc_tpc (s : State) : (clearTc s).tpc = s.tpc := rfl
@[simp] theorem clearTc_lineFlag (s : State) : (clearTc s).lineFlag = s.lineFlag := rfl
@[simp] theorem clearTc_linePend (s : State) : (clearTc s).linePend = s.linePend := rfl
@[simp] theorem clearTc_tcFlag (s : State) : (clearTc s).tcFlag = false := rfl
@[simp] theorem clearTc_tcPend (s : State) : (clearTc s).tcPend = s.tcPend := rfl
@[simp] theorem clearTc_tcClrPend (s : State) : (clearTc s).tcClrPend = false := rfl
@[simp] theorem clearTc_cbreq (s : State) : (clearTc s).cbreq = s.cbreq := rfl
@[simp] theorem clearTc_fault (s : State) : (clearTc s).fault = s.fault := rfl
@[simp] theorem clearTc_refused (s : State) : (clearTc s).refused = s.refused := rfl
@[simp] theorem clearTc_maxline (s : State) : (clearTc s).maxline = s.maxline := rfl
@[simp] theorem clearTc_lineTicks (s : State) : (clearTc s).lineTicks = s.lineTicks := rfl
@[simp] theorem clearTc_stream (s : State) : (clearTc s).stream = s.stream := rfl
@[simp] theorem clearTc_ticksLeft (s : State) : (clearTc s).ticksLeft = s.ticksLeft := rfl
@[simp] theorem clearTc_turns (s : State) : (clearTc s).turns = s.turns := rfl
@[simp] theorem clearTc_draws (s : State) : (clearTc s).draws = s.draws := rfl
@[simp] theorem clearTc_drawn (s : State) : (clearTc s).drawn = s.drawn := rfl
@[simp] theorem clearTc_replies (s : State) : (clearTc s).replies = s.replies := rfl

/-! ### complete s -/

@[simp] theorem complete_cfg (s : State) : (complete s).cfg = s.cfg := rfl
@[simp] theorem complete_run (s : State) : (complete s).run = s.run := rfl
@[simp] theorem complete_lineIe (s : State) : (complete s).lineIe = s.lineIe := rfl
@[simp] theorem complete_tcIe (s : State) : (complete s).tcIe = s.tcIe := rfl
@[simp] theorem complete_hcnt (s : State) : (complete s).hcnt = s.hcnt := rfl
@[simp] theorem complete_line (s : State) : (complete s).line = s.line := rfl
@[simp] theorem complete_frame (s : State) : (complete s).frame = s.frame := rfl
@[simp] theorem complete_vsync (s : State) : (complete s).vsync = s.vsync := rfl
@[simp] theorem complete_display (s : State) : (complete s).display = s.display := rfl
@[simp] theorem complete_mem (s : State) : (complete s).mem = s.mem := rfl
@[simp] theorem complete_arm (s : State) : (complete s).arm = s.arm := rfl
@[simp] theorem complete_src (s : State) : (complete s).src = s.src := rfl
@[simp] theorem complete_xidx (s : State) : (complete s).xidx = s.xidx := rfl
@[simp] theorem complete_xferEn (s : State) : (complete s).xferEn = false := rfl
@[simp] theorem complete_pclkRun (s : State) : (complete s).pclkRun = s.pclkRun := rfl
@[simp] theorem complete_pdiv (s : State) : (complete s).pdiv = s.pdiv := rfl
@[simp] theorem complete_out (s : State) : (complete s).out = s.out := rfl
@[simp] theorem complete_lfsmActive (s : State) : (complete s).lfsmActive = s.lfsmActive := rfl
@[simp] theorem complete_lpc (s : State) : (complete s).lpc = s.lpc := rfl
@[simp] theorem complete_tchActive (s : State) : (complete s).tchActive = s.tchActive := rfl
@[simp] theorem complete_tpc (s : State) : (complete s).tpc = s.tpc := rfl
@[simp] theorem complete_lineFlag (s : State) : (complete s).lineFlag = s.lineFlag := rfl
@[simp] theorem complete_linePend (s : State) : (complete s).linePend = s.linePend := rfl
@[simp] theorem complete_tcFlag (s : State) : (complete s).tcFlag = true := rfl
@[simp] theorem complete_tcPend (s : State) : (complete s).tcPend = if s.tcIe then true else s.tcPend := rfl
@[simp] theorem complete_tcClrPend (s : State) : (complete s).tcClrPend = s.tcClrPend := rfl
@[simp] theorem complete_cbreq (s : State) : (complete s).cbreq = s.cbreq := rfl
@[simp] theorem complete_fault (s : State) : (complete s).fault = s.fault := rfl
@[simp] theorem complete_refused (s : State) : (complete s).refused = s.refused := rfl
@[simp] theorem complete_maxline (s : State) : (complete s).maxline = s.maxline := rfl
@[simp] theorem complete_lineTicks (s : State) : (complete s).lineTicks = s.lineTicks := rfl
@[simp] theorem complete_stream (s : State) : (complete s).stream = s.stream := rfl
@[simp] theorem complete_ticksLeft (s : State) : (complete s).ticksLeft = s.ticksLeft := rfl
@[simp] theorem complete_turns (s : State) : (complete s).turns = s.turns := rfl
@[simp] theorem complete_draws (s : State) : (complete s).draws = s.draws := rfl
@[simp] theorem complete_drawn (s : State) : (complete s).drawn = s.drawn := rfl
@[simp] theorem complete_replies (s : State) : (complete s).replies = s.replies := rfl

/-! ### startStreaming s -/

@[simp] theorem startStreaming_cfg (s : State) : (startStreaming s).cfg = s.cfg := rfl
@[simp] theorem startStreaming_run (s : State) : (startStreaming s).run = s.run := rfl
@[simp] theorem startStreaming_lineIe (s : State) : (startStreaming s).lineIe = s.lineIe := rfl
@[simp] theorem startStreaming_tcIe (s : State) : (startStreaming s).tcIe = s.tcIe := rfl
@[simp] theorem startStreaming_hcnt (s : State) : (startStreaming s).hcnt = s.hcnt := rfl
@[simp] theorem startStreaming_line (s : State) : (startStreaming s).line = s.line := rfl
@[simp] theorem startStreaming_frame (s : State) : (startStreaming s).frame = s.frame := rfl
@[simp] theorem startStreaming_vsync (s : State) : (startStreaming s).vsync = s.vsync := rfl
@[simp] theorem startStreaming_display (s : State) : (startStreaming s).display = s.display := rfl
@[simp] theorem startStreaming_mem (s : State) : (startStreaming s).mem = s.mem := rfl
@[simp] theorem startStreaming_arm (s : State) : (startStreaming s).arm = .streaming := rfl
@[simp] theorem startStreaming_src (s : State) : (startStreaming s).src = s.src := rfl
@[simp] theorem startStreaming_xidx (s : State) : (startStreaming s).xidx = s.xidx := rfl
@[simp] theorem startStreaming_xferEn (s : State) : (startStreaming s).xferEn = s.xferEn := rfl
@[simp] theorem startStreaming_pclkRun (s : State) : (startStreaming s).pclkRun = true := rfl
@[simp] theorem startStreaming_pdiv (s : State) : (startStreaming s).pdiv = 0 := rfl
@[simp] theorem startStreaming_out (s : State) : (startStreaming s).out = s.out := rfl
@[simp] theorem startStreaming_lfsmActive (s : State) : (startStreaming s).lfsmActive = s.lfsmActive := rfl
@[simp] theorem startStreaming_lpc (s : State) : (startStreaming s).lpc = s.lpc := rfl
@[simp] theorem startStreaming_tchActive (s : State) : (startStreaming s).tchActive = s.tchActive := rfl
@[simp] theorem startStreaming_tpc (s : State) : (startStreaming s).tpc = s.tpc := rfl
@[simp] theorem startStreaming_lineFlag (s : State) : (startStreaming s).lineFlag = s.lineFlag := rfl
@[simp] theorem startStreaming_linePend (s : State) : (startStreaming s).linePend = s.linePend := rfl
@[simp] theorem startStreaming_tcFlag (s : State) : (startStreaming s).tcFlag = s.tcFlag := rfl
@[simp] theorem startStreaming_tcPend (s : State) : (startStreaming s).tcPend = s.tcPend := rfl
@[simp] theorem startStreaming_tcClrPend (s : State) : (startStreaming s).tcClrPend = s.tcClrPend := rfl
@[simp] theorem startStreaming_cbreq (s : State) : (startStreaming s).cbreq = s.cbreq := rfl
@[simp] theorem startStreaming_fault (s : State) : (startStreaming s).fault = s.fault := rfl
@[simp] theorem startStreaming_refused (s : State) : (startStreaming s).refused = s.refused := rfl
@[simp] theorem startStreaming_maxline (s : State) : (startStreaming s).maxline = s.maxline := rfl
@[simp] theorem startStreaming_lineTicks (s : State) : (startStreaming s).lineTicks = s.lineTicks := rfl
@[simp] theorem startStreaming_stream (s : State) : (startStreaming s).stream = s.stream := rfl
@[simp] theorem startStreaming_ticksLeft (s : State) : (startStreaming s).ticksLeft = s.ticksLeft := rfl
@[simp] theorem startStreaming_turns (s : State) : (startStreaming s).turns = s.turns := rfl
@[simp] theorem startStreaming_draws (s : State) : (startStreaming s).draws = s.draws := rfl
@[simp] theorem startStreaming_drawn (s : State) : (startStreaming s).drawn = s.drawn := rfl
@[simp] theorem startStreaming_replies (s : State) : (startStreaming s).replies = s.replies := rfl

/-! ### disableEngine s -/

@[simp] theorem disableEngine_cfg (s : State) : (disableEngine s).cfg = s.cfg := rfl
@[simp] theorem disableEngine_run (s : State) : (disableEngine s).run = s.run := rfl
@[simp] theorem disableEngine_lineIe (s : State) : (disableEngine s).lineIe = s.lineIe := rfl
@[simp] theorem disableEngine_tcIe (s : State) : (disableEngine s).tcIe = s.tcIe := rfl
@[simp] theorem disableEngine_hcnt (s : State) : (disableEngine s).hcnt = s.hcnt := rfl
@[simp] theorem disableEngine_line (s : State) : (disableEngine s).line = s.line := rfl
@[simp] theorem disableEngine_frame (s : State) : (disableEngine s).frame = s.frame := rfl
@[simp] theorem disableEngine_vsync (s : State) : (disableEngine s).vsync = s.vsync := rfl
@[simp] theorem disableEngine_display (s : State) : (disableEngine s).display = s.display := rfl
@[simp] theorem disableEngine_mem (s : State) : (disableEngine s).mem = s.mem := rfl
@[simp] theorem disableEngine_arm (s : State) : (disableEngine s).arm = .idle := rfl
@[simp] theorem disableEngine_src (s : State) : (disableEngine s).src = s.src := rfl
@[simp] theorem disableEngine_xidx (s : State) : (disableEngine s).xidx = s.xidx := rfl
@[simp] theorem disableEngine_xferEn (s : State) : (disableEngine s).xferEn = false := rfl
@[simp] theorem disableEngine_pclkRun (s : State) : (disableEngine s).pclkRun = false := rfl
@[simp] theorem disableEngine_pdiv (s : State) : (disableEngine s).pdiv = 0 := rfl
@[simp] theorem disableEngine_out (s : State) : (disableEngine s).out = s.out := rfl
@[simp] theorem disableEngine_lfsmActive (s : State) : (disableEngine s).lfsmActive = s.lfsmActive := rfl
@[simp] theorem disableEngine_lpc (s : State) : (disableEngine s).lpc = s.lpc := rfl
@[simp] theorem disableEngine_tchActive (s : State) : (disableEngine s).tchActive = s.tchActive := rfl
@[simp] theorem disableEngine_tpc (s : State) : (disableEngine s).tpc = s.tpc := rfl
@[simp] theorem disableEngine_lineFlag (s : State) : (disableEngine s).lineFlag = s.lineFlag := rfl
@[simp] theorem disableEngine_linePend (s : State) : (disableEngine s).linePend = s.linePend := rfl
@[simp] theorem disableEngine_tcFlag (s : State) : (disableEngine s).tcFlag = s.tcFlag := rfl
@[simp] theorem disableEngine_tcPend (s : State) : (disableEngine s).tcPend = s.tcPend := rfl
@[simp] theorem disableEngine_tcClrPend (s : State) : (disableEngine s).tcClrPend = s.tcClrPend := rfl
@[simp] theorem disableEngine_cbreq (s : State) : (disableEngine s).cbreq = s.cbreq := rfl
@[simp] theorem disableEngine_fault (s : State) : (disableEngine s).fault = s.fault := rfl
@[simp] theorem disableEngine_refused (s : State) : (disableEngine s).refused = s.refused := rfl
@[simp] theorem disableEngine_maxline (s : State) : (disableEngine s).maxline = s.maxline := rfl
@[simp] theorem disableEngine_lineTicks (s : State) : (disableEngine s).lineTicks = s.lineTicks := rfl
@[simp] theorem disableEngine_stream (s : State) : (disableEngine s).stream = s.stream := rfl
@[simp] theorem disableEngine_ticksLeft (s : State) : (disableEngine s).ticksLeft = s.ticksLeft := rfl
@[simp] theorem disableEngine_turns (s : State) : (disableEngine s).turns = s.turns := rfl
@[simp] theorem disableEngine_draws (s : State) : (disableEngine s).draws = s.draws := rfl
@[simp] theorem disableEngine_drawn (s : State) : (disableEngine s).drawn = s.drawn := rfl
@[simp] theorem disableEngine_replies (s : State) : (disableEngine s).replies = s.replies := rfl

/-! ### requestCallback k s -/

@[simp] theorem requestCallback_cfg (k : Callback) (s : State) : (requestCallback k s).cfg = s.cfg := rfl
@[simp] theorem requestCallback_run (k : Callback) (s : State) : (requestCallback k s).run = s.run := rfl
@[simp] theorem requestCallback_lineIe (k : Callback) (s : State) : (requestCallback k s).lineIe = s.lineIe := rfl
@[simp] theorem requestCallback_tcIe (k : Callback) (s : State) : (requestCallback k s).tcIe = s.tcIe := rfl
@[simp] theorem requestCallback_hcnt (k : Callback) (s : State) : (requestCallback k s).hcnt = s.hcnt := rfl
@[simp] theorem requestCallback_line (k : Callback) (s : State) : (requestCallback k s).line = s.line := rfl
@[simp] theorem requestCallback_frame (k : Callback) (s : State) : (requestCallback k s).frame = s.frame := rfl
@[simp] theorem requestCallback_vsync (k : Callback) (s : State) : (requestCallback k s).vsync = s.vsync := rfl
@[simp] theorem requestCallback_display (k : Callback) (s : State) : (requestCallback k s).display = s.display := rfl
@[simp] theorem requestCallback_mem (k : Callback) (s : State) : (requestCallback k s).mem = s.mem := rfl
@[simp] theorem requestCallback_arm (k : Callback) (s : State) : (requestCallback k s).arm = s.arm := rfl
@[simp] theorem requestCallback_src (k : Callback) (s : State) : (requestCallback k s).src = s.src := rfl
@[simp] theorem requestCallback_xidx (k : Callback) (s : State) : (requestCallback k s).xidx = s.xidx := rfl
@[simp] theorem requestCallback_xferEn (k : Callback) (s : State) : (requestCallback k s).xferEn = s.xferEn := rfl
@[simp] theorem requestCallback_pclkRun (k : Callback) (s : State) : (requestCallback k s).pclkRun = s.pclkRun := rfl
@[simp] theorem requestCallback_pdiv (k : Callback) (s : State) : (requestCallback k s).pdiv = s.pdiv := rfl
@[simp] theorem requestCallback_out (k : Callback) (s : State) : (requestCallback k s).out = s.out := rfl
@[simp] theorem requestCallback_lfsmActive (k : Callback) (s : State) : (requestCallback k s).lfsmActive = s.lfsmActive := rfl
@[simp] theorem requestCallback_lpc (k : Callback) (s : State) : (requestCallback k s).lpc = s.lpc := rfl
@[simp] theorem requestCallback_tchActive (k : Callback) (s : State) : (requestCallback k s).tchActive = s.tchActive := rfl
@[simp] theorem requestCallback_tpc (k : Callback) (s : State) : (requestCallback k s).tpc = s.tpc := rfl
@[simp] theorem requestCallback_lineFlag (k : Callback) (s : State) : (requestCallback k s).lineFlag = s.lineFlag := rfl
@[simp] theorem requestCallback_linePend (k : Callback) (s : State) : (requestCallback k s).linePend = s.linePend := rfl
@[simp] theorem requestCallback_tcFlag (k : Callback) (s : State) : (requestCallback k s).tcFlag = s.tcFlag := rfl
@[simp] theorem requestCallback_tcPend (k : Callback) (s : State) : (requestCallback k s).tcPend = s.tcPend := rfl
@[simp] theorem requestCallback_tcClrPend (k : Callback) (s : State) : (requestCallback k s).tcClrPend = s.tcClrPend := rfl
@[simp] theorem requestCallback_cbreq (k : Callback) (s : State) : (requestCallback k s).cbreq = some k := rfl
@[simp] theorem requestCallback_fault (k : Callback) (s : State) : (requestCallback k s).fault = s.fault := rfl
@[simp] theorem requestCallback_refused (k : Callback) (s : State) : (requestCallback k s).refused = s.refused := rfl
@[simp] theorem requestCallback_maxline (k : Callback) (s : State) : (requestCallback k s).maxline = s.maxline := rfl
@[simp] theorem requestCallback_lineTicks (k : Callback) (s : State) : (requestCallback k s).lineTicks = s.lineTicks := rfl
@[simp] theorem requestCallback_stream (k : Callback) (s : State) : (requestCallback k s).stream = s.stream := rfl
@[simp] theorem requestCallback_ticksLeft (k : Callback) (s : State) : (requestCallback k s).ticksLeft = s.ticksLeft := rfl
@[simp] theorem requestCallback_turns (k : Callback) (s : State) : (requestCallback k s).turns = s.turns := rfl
@[simp] theorem requestCallback_draws (k : Callback) (s : State) : (requestCallback k s).draws = s.draws := rfl
@[simp] theorem requestCallback_drawn (k : Callback) (s : State) : (requestCallback k s).drawn = s.drawn := rfl
@[simp] theorem requestCallback_replies (k : Callback) (s : State) : (requestCallback k s).replies = s.replies := rfl

/-! ### advanceLpc x s -/

@[simp] theorem advanceLpc_cfg (x : LStep) (s : State) : (advanceLpc x s).cfg = s.cfg := rfl
@[simp] theorem advanceLpc_run (x : LStep) (s : State) : (advanceLpc x s).run = s.run := rfl
@[simp] theorem advanceLpc_lineIe (x : LStep) (s : State) : (advanceLpc x s).lineIe = s.lineIe := rfl
@[simp] theorem advanceLpc_tcIe (x : LStep) (s : State) : (advanceLpc x s).tcIe = s.tcIe := rfl
@[simp] theorem advanceLpc_hcnt (x : LStep) (s : State) : (advanceLpc x s).hcnt = s.hcnt := rfl
@[simp] theorem advanceLpc_line (x : LStep) (s : State) : (advanceLpc x s).line = s.line := rfl
@[simp] theorem advanceLpc_frame (x : LStep) (s : State) : (advanceLpc x s).frame = s.frame := rfl
@[simp] theorem advanceLpc_vsync (x : LStep) (s : State) : (advanceLpc x s).vsync = s.vsync := rfl
@[simp] theorem advanceLpc_display (x : LStep) (s : State) : (advanceLpc x s).display = s.display := rfl
@[simp] theorem advanceLpc_mem (x : LStep) (s : State) : (advanceLpc x s).mem = s.mem := rfl
@[simp] theorem advanceLpc_arm (x : LStep) (s : State) : (advanceLpc x s).arm = s.arm := rfl
@[simp] theorem advanceLpc_src (x : LStep) (s : State) : (advanceLpc x s).src = s.src := rfl
@[simp] theorem advanceLpc_xidx (x : LStep) (s : State) : (advanceLpc x s).xidx = s.xidx := rfl
@[simp] theorem advanceLpc_xferEn (x : LStep) (s : State) : (advanceLpc x s).xferEn = s.xferEn := rfl
@[simp] theorem advanceLpc_pclkRun (x : LStep) (s : State) : (advanceLpc x s).pclkRun = s.pclkRun := rfl
@[simp] theorem advanceLpc_pdiv (x : LStep) (s : State) : (advanceLpc x s).pdiv = s.pdiv := rfl
@[simp] theorem advanceLpc_out (x : LStep) (s : State) : (advanceLpc x s).out = s.out := rfl
@[simp] theorem advanceLpc_lfsmActive (x : LStep) (s : State) : (advanceLpc x s).lfsmActive = s.lfsmActive := rfl
@[simp] theorem advanceLpc_lpc (x : LStep) (s : State) : (advanceLpc x s).lpc = nextLStep x s := rfl
@[simp] theorem advanceLpc_tchActive (x : LStep) (s : State) : (advanceLpc x s).tchActive = s.tchActive := rfl
@[simp] theorem advanceLpc_tpc (x : LStep) (s : State) : (advanceLpc x s).tpc = s.tpc := rfl
@[simp] theorem advanceLpc_lineFlag (x : LStep) (s : State) : (advanceLpc x s).lineFlag = s.lineFlag := rfl
@[simp] theorem advanceLpc_linePend (x : LStep) (s : State) : (advanceLpc x s).linePend = s.linePend := rfl
@[simp] theorem advanceLpc_tcFlag (x : LStep) (s : State) : (advanceLpc x s).tcFlag = s.tcFlag := rfl
@[simp] theorem advanceLpc_tcPend (x : LStep) (s : State) : (advanceLpc x s).tcPend = s.tcPend := rfl
@[simp] theorem advanceLpc_tcClrPend (x : LStep) (s : State) : (advanceLpc x s).tcClrPend = s.tcClrPend := rfl
@[simp] theorem advanceLpc_cbreq (x : LStep) (s : State) : (advanceLpc x s).cbreq = s.cbreq := rfl
@[simp] theorem advanceLpc_fault (x : LStep) (s : State) : (advanceLpc x s).fault = s.fault := rfl
@[simp] theorem advanceLpc_refused (x : LStep) (s : State) : (advanceLpc x s).refused = s.refused := rfl
@[simp] theorem advanceLpc_maxline (x : LStep) (s : State) : (advanceLpc x s).maxline = s.maxline := rfl
@[simp] theorem advanceLpc_lineTicks (x : LStep) (s : State) : (advanceLpc x s).lineTicks = s.lineTicks := rfl
@[simp] theorem advanceLpc_stream (x : LStep) (s : State) : (advanceLpc x s).stream = s.stream := rfl
@[simp] theorem advanceLpc_ticksLeft (x : LStep) (s : State) : (advanceLpc x s).ticksLeft = s.ticksLeft := rfl
@[simp] theorem advanceLpc_turns (x : LStep) (s : State) : (advanceLpc x s).turns = s.turns := rfl
@[simp] theorem advanceLpc_draws (x : LStep) (s : State) : (advanceLpc x s).draws = s.draws := rfl
@[simp] theorem advanceLpc_drawn (x : LStep) (s : State) : (advanceLpc x s).drawn = s.drawn := rfl
@[simp] theorem advanceLpc_replies (x : LStep) (s : State) : (advanceLpc x s).replies = s.replies := rfl

/-! ### drawWord: every field but `draws` and `drawn` -/

/-- A draw changes nothing but the list of free inputs and the counter. -/
theorem drawWord_only (s : State) :
    (drawWord s).2 = { s with draws := (drawWord s).2.draws, drawn := (drawWord s).2.drawn } := by
  unfold drawWord; split <;> rfl

@[simp] theorem drawWord_cfg (s : State) : (drawWord s).2.cfg = s.cfg := by rw [drawWord_only]
@[simp] theorem drawWord_run (s : State) : (drawWord s).2.run = s.run := by rw [drawWord_only]
@[simp] theorem drawWord_lineIe (s : State) : (drawWord s).2.lineIe = s.lineIe := by rw [drawWord_only]
@[simp] theorem drawWord_tcIe (s : State) : (drawWord s).2.tcIe = s.tcIe := by rw [drawWord_only]
@[simp] theorem drawWord_hcnt (s : State) : (drawWord s).2.hcnt = s.hcnt := by rw [drawWord_only]
@[simp] theorem drawWord_line (s : State) : (drawWord s).2.line = s.line := by rw [drawWord_only]
@[simp] theorem drawWord_frame (s : State) : (drawWord s).2.frame = s.frame := by rw [drawWord_only]
@[simp] theorem drawWord_vsync (s : State) : (drawWord s).2.vsync = s.vsync := by rw [drawWord_only]
@[simp] theorem drawWord_display (s : State) : (drawWord s).2.display = s.display := by rw [drawWord_only]
@[simp] theorem drawWord_mem (s : State) : (drawWord s).2.mem = s.mem := by rw [drawWord_only]
@[simp] theorem drawWord_arm (s : State) : (drawWord s).2.arm = s.arm := by rw [drawWord_only]
@[simp] theorem drawWord_src (s : State) : (drawWord s).2.src = s.src := by rw [drawWord_only]
@[simp] theorem drawWord_xidx (s : State) : (drawWord s).2.xidx = s.xidx := by rw [drawWord_only]
@[simp] theorem drawWord_xferEn (s : State) : (drawWord s).2.xferEn = s.xferEn := by rw [drawWord_only]
@[simp] theorem drawWord_pclkRun (s : State) : (drawWord s).2.pclkRun = s.pclkRun := by rw [drawWord_only]
@[simp] theorem drawWord_pdiv (s : State) : (drawWord s).2.pdiv = s.pdiv := by rw [drawWord_only]
@[simp] theorem drawWord_out (s : State) : (drawWord s).2.out = s.out := by rw [drawWord_only]
@[simp] theorem drawWord_lfsmActive (s : State) : (drawWord s).2.lfsmActive = s.lfsmActive := by rw [drawWord_only]
@[simp] theorem drawWord_lpc (s : State) : (drawWord s).2.lpc = s.lpc := by rw [drawWord_only]
@[simp] theorem drawWord_tchActive (s : State) : (drawWord s).2.tchActive = s.tchActive := by rw [drawWord_only]
@[simp] theorem drawWord_tpc (s : State) : (drawWord s).2.tpc = s.tpc := by rw [drawWord_only]
@[simp] theorem drawWord_lineFlag (s : State) : (drawWord s).2.lineFlag = s.lineFlag := by rw [drawWord_only]
@[simp] theorem drawWord_linePend (s : State) : (drawWord s).2.linePend = s.linePend := by rw [drawWord_only]
@[simp] theorem drawWord_tcFlag (s : State) : (drawWord s).2.tcFlag = s.tcFlag := by rw [drawWord_only]
@[simp] theorem drawWord_tcPend (s : State) : (drawWord s).2.tcPend = s.tcPend := by rw [drawWord_only]
@[simp] theorem drawWord_tcClrPend (s : State) : (drawWord s).2.tcClrPend = s.tcClrPend := by rw [drawWord_only]
@[simp] theorem drawWord_cbreq (s : State) : (drawWord s).2.cbreq = s.cbreq := by rw [drawWord_only]
@[simp] theorem drawWord_fault (s : State) : (drawWord s).2.fault = s.fault := by rw [drawWord_only]
@[simp] theorem drawWord_refused (s : State) : (drawWord s).2.refused = s.refused := by rw [drawWord_only]
@[simp] theorem drawWord_maxline (s : State) : (drawWord s).2.maxline = s.maxline := by rw [drawWord_only]
@[simp] theorem drawWord_lineTicks (s : State) : (drawWord s).2.lineTicks = s.lineTicks := by rw [drawWord_only]
@[simp] theorem drawWord_stream (s : State) : (drawWord s).2.stream = s.stream := by rw [drawWord_only]
@[simp] theorem drawWord_ticksLeft (s : State) : (drawWord s).2.ticksLeft = s.ticksLeft := by rw [drawWord_only]
@[simp] theorem drawWord_turns (s : State) : (drawWord s).2.turns = s.turns := by rw [drawWord_only]
@[simp] theorem drawWord_replies (s : State) : (drawWord s).2.replies = s.replies := by rw [drawWord_only]

@[simp] theorem drawBit_snd (s : State) : (drawBit s).2 = (drawWord s).2 := rfl
@[simp] theorem drawPixel_snd (s : State) : (drawPixel s).2 = (drawWord s).2 := rfl

/-! ### drawTurn: every field but `turns` and `drawn` -/

/-- A choice of turn changes nothing but the list of turns and the counter. -/
theorem drawTurn_only (s : State) :
    (drawTurn s).2 = { s with turns := (drawTurn s).2.turns, drawn := (drawTurn s).2.drawn } := by
  unfold drawTurn; split <;> rfl

@[simp] theorem drawTurn_cfg (s : State) : (drawTurn s).2.cfg = s.cfg := by rw [drawTurn_only]
@[simp] theorem drawTurn_run (s : State) : (drawTurn s).2.run = s.run := by rw [drawTurn_only]
@[simp] theorem drawTurn_lineIe (s : State) : (drawTurn s).2.lineIe = s.lineIe := by rw [drawTurn_only]
@[simp] theorem drawTurn_tcIe (s : State) : (drawTurn s).2.tcIe = s.tcIe := by rw [drawTurn_only]
@[simp] theorem drawTurn_hcnt (s : State) : (drawTurn s).2.hcnt = s.hcnt := by rw [drawTurn_only]
@[simp] theorem drawTurn_line (s : State) : (drawTurn s).2.line = s.line := by rw [drawTurn_only]
@[simp] theorem drawTurn_frame (s : State) : (drawTurn s).2.frame = s.frame := by rw [drawTurn_only]
@[simp] theorem drawTurn_vsync (s : State) : (drawTurn s).2.vsync = s.vsync := by rw [drawTurn_only]
@[simp] theorem drawTurn_display (s : State) : (drawTurn s).2.display = s.display := by rw [drawTurn_only]
@[simp] theorem drawTurn_mem (s : State) : (drawTurn s).2.mem = s.mem := by rw [drawTurn_only]
@[simp] theorem drawTurn_arm (s : State) : (drawTurn s).2.arm = s.arm := by rw [drawTurn_only]
@[simp] theorem drawTurn_src (s : State) : (drawTurn s).2.src = s.src := by rw [drawTurn_only]
@[simp] theorem drawTurn_xidx (s : State) : (drawTurn s).2.xidx = s.xidx := by rw [drawTurn_only]
@[simp] theorem drawTurn_xferEn (s : State) : (drawTurn s).2.xferEn = s.xferEn := by rw [drawTurn_only]
@[simp] theorem drawTurn_pclkRun (s : State) : (drawTurn s).2.pclkRun = s.pclkRun := by rw [drawTurn_only]
@[simp] theorem drawTurn_pdiv (s : State) : (drawTurn s).2.pdiv = s.pdiv := by rw [drawTurn_only]
@[simp] theorem drawTurn_out (s : State) : (drawTurn s).2.out = s.out := by rw [drawTurn_only]
@[simp] theorem drawTurn_lfsmActive (s : State) : (drawTurn s).2.lfsmActive = s.lfsmActive := by rw [drawTurn_only]
@[simp] theorem drawTurn_lpc (s : State) : (drawTurn s).2.lpc = s.lpc := by rw [drawTurn_only]
@[simp] theorem drawTurn_tchActive (s : State) : (drawTurn s).2.tchActive = s.tchActive := by rw [drawTurn_only]
@[simp] theorem drawTurn_tpc (s : State) : (drawTurn s).2.tpc = s.tpc := by rw [drawTurn_only]
@[simp] theorem drawTurn_lineFlag (s : State) : (drawTurn s).2.lineFlag = s.lineFlag := by rw [drawTurn_only]
@[simp] theorem drawTurn_linePend (s : State) : (drawTurn s).2.linePend = s.linePend := by rw [drawTurn_only]
@[simp] theorem drawTurn_tcFlag (s : State) : (drawTurn s).2.tcFlag = s.tcFlag := by rw [drawTurn_only]
@[simp] theorem drawTurn_tcPend (s : State) : (drawTurn s).2.tcPend = s.tcPend := by rw [drawTurn_only]
@[simp] theorem drawTurn_tcClrPend (s : State) : (drawTurn s).2.tcClrPend = s.tcClrPend := by rw [drawTurn_only]
@[simp] theorem drawTurn_cbreq (s : State) : (drawTurn s).2.cbreq = s.cbreq := by rw [drawTurn_only]
@[simp] theorem drawTurn_fault (s : State) : (drawTurn s).2.fault = s.fault := by rw [drawTurn_only]
@[simp] theorem drawTurn_refused (s : State) : (drawTurn s).2.refused = s.refused := by rw [drawTurn_only]
@[simp] theorem drawTurn_maxline (s : State) : (drawTurn s).2.maxline = s.maxline := by rw [drawTurn_only]
@[simp] theorem drawTurn_lineTicks (s : State) : (drawTurn s).2.lineTicks = s.lineTicks := by rw [drawTurn_only]
@[simp] theorem drawTurn_stream (s : State) : (drawTurn s).2.stream = s.stream := by rw [drawTurn_only]
@[simp] theorem drawTurn_ticksLeft (s : State) : (drawTurn s).2.ticksLeft = s.ticksLeft := by rw [drawTurn_only]
@[simp] theorem drawTurn_draws (s : State) : (drawTurn s).2.draws = s.draws := by rw [drawTurn_only]
@[simp] theorem drawTurn_replies (s : State) : (drawTurn s).2.replies = s.replies := by rw [drawTurn_only]

end Sys2Proof.Machine
end

