-- ==== Sys2Proof/Laws/Memory.lean ====
section
/-! SUPPORT. The laws of the pixel cells: read after write, a write leaves every other cell alone, and every memory operation
keeps the canonical form. -/

namespace Sys2Proof.Machine

/-- Reading the key just written gives the value written. -/
@[simp] theorem memFind_memInsert_self (k : Nat) (v : Pixel) (m : Memory) : memFind k (memInsert k v m) = some v := by
  induction m with
  | nil => simp [memInsert, memFind]
  | cons e rest ih =>
    obtain ⟨k', v'⟩ := e
    simp only [memInsert]
    split
    · simp [memFind]
    · split
      · simp [memFind]
      · simp [memFind, *]

/-- A write leaves every other key alone. -/
theorem memFind_memInsert_ne {k k' : Nat} (h : k' ≠ k) (v : Pixel) (m : Memory) :
    memFind k' (memInsert k v m) = memFind k' m := by
  induction m with
  | nil => simp [memInsert, memFind, h]
  | cons e rest ih =>
    obtain ⟨k₁, v₁⟩ := e
    simp only [memInsert]
    split
    · simp [memFind, h]
    · split
      · subst_vars; simp [memFind, h]
      · simp [memFind, ih]

/-- The entries after a write: the new one, or an old one. -/
theorem mem_memInsert {k : Nat} {v : Pixel} {m : Memory} {e : Nat × Pixel} (h : e ∈ memInsert k v m) :
    e = (k, v) ∨ e ∈ m := by
  induction m with
  | nil => exact .inl (by simpa [memInsert] using h)
  | cons a rest ih =>
    obtain ⟨k', v'⟩ := a
    simp only [memInsert] at h
    split at h
    · simpa using h
    · split at h
      · rcases List.mem_cons.1 h with h | h
        · exact .inl h
        · exact .inr (List.mem_cons_of_mem _ h)
      · rcases List.mem_cons.1 h with h | h
        · exact .inr (by simp [h])
        · exact (ih h).imp_right (List.mem_cons_of_mem _)

/-- A write keeps the keys strictly rising. -/
theorem memInsert_sorted (k : Nat) (v : Pixel) {m : Memory} (h : m.Pairwise (fun a b => a.1 < b.1)) :
    (memInsert k v m).Pairwise (fun a b => a.1 < b.1) := by
  induction m with
  | nil => simp [memInsert]
  | cons a rest ih =>
    obtain ⟨k', v'⟩ := a
    obtain ⟨ha, hr⟩ := List.pairwise_cons.1 h
    simp only [memInsert]
    split
    · rename_i hk
      refine List.pairwise_cons.2 ⟨fun b hb => ?_, h⟩
      rcases List.mem_cons.1 hb with rfl | hb
      · exact hk
      · exact lt_trans hk (ha b hb)
    · split
      · subst_vars; exact List.pairwise_cons.2 ⟨ha, hr⟩
      · refine List.pairwise_cons.2 ⟨fun b hb => ?_, ih hr⟩
        rcases mem_memInsert hb with rfl | hb
        · simp; omega
        · exact ha b hb

/-- A write of a pixel value to an existing cell below the trailing one keeps the canonical form. -/
theorem memInsert_wf {c : Config} {k : Nat} {v : Pixel} {m : Memory} (hm : Memory.wf c m) (he : ListedOk c (k, v)) :
    Memory.wf c (memInsert k v m) :=
  ⟨memInsert_sorted k v hm.1, fun _ h => (mem_memInsert h).elim (fun h => h ▸ he) (hm.2 _)⟩

/-- `memWrite` keeps the canonical form (R105). -/
theorem memWrite_wf {s : State} {b : Bool} {i : Nat} {v : Pixel} (hm : Memory.wf s.cfg s.mem)
    (hi : i < s.cfg.visiblePixels) (hl : s.cfg.visiblePixels < 2048) (hv : v.toNat < 2 ^ s.cfg.pixelBits) :
    Memory.wf (memWrite b i v s).cfg (memWrite b i v s).mem := by
  rw [memWrite_cfg, memWrite_mem]
  refine memInsert_wf hm ⟨?_, ?_, hv⟩ <;> simp only [cellKey] <;> split <;> omega

/-- The memory after reset is canonical. -/
theorem resetWith_wf (c : Config) : Memory.wf c (State.resetWith c).mem := by
  simp [State.resetWith, Memory.wf]

/-- A key that is found is listed. -/
theorem mem_of_memFind {k : Nat} {v : Pixel} {m : Memory} (h : memFind k m = some v) : (k, v) ∈ m := by
  induction m with
  | nil => simp [memFind] at h
  | cons a rest ih =>
    obtain ⟨k', v'⟩ := a
    simp only [memFind] at h
    split at h
    · simp_all
    · exact List.mem_cons_of_mem _ (ih h)

/-- Distinct existing cells have distinct keys. -/
theorem cellKey_inj {b b' : Bool} {i i' : Nat} (hi : i < 2048) (hi' : i' < 2048) :
    cellKey b i = cellKey b' i' ↔ b = b' ∧ i = i' := by
  cases b <;> cases b' <;> simp [cellKey] <;> omega

/-- In a canonical memory the trailing cell of either buffer holds `BLANK_VALUE` (R103). -/
theorem cell_trailing {s : State} (hm : Memory.wf s.cfg s.mem) (hl : s.cfg.visiblePixels < 2048) (b : Bool) :
    cell s b s.cfg.visiblePixels = some s.cfg.blankValue := by
  unfold cell
  split
  · rename_i v h
    have := (hm.2 _ (mem_of_memFind h)).2.1
    simp only [cellKey] at this
    split at this <;> omega
  · simp [unlistedCell]

/-- In a canonical memory every cell that holds a value holds a pixel value (R100). -/
theorem cell_lt {s : State} {b : Bool} {i : Nat} {v : Pixel} (hm : Memory.wf s.cfg s.mem)
    (hb : s.cfg.blankValue.toNat < 2 ^ s.cfg.pixelBits) (h : cell s b i = some v) : v.toNat < 2 ^ s.cfg.pixelBits := by
  unfold cell at h
  split at h
  · rename_i h'
    cases h
    exact (hm.2 _ (mem_of_memFind h')).2.2
  · simp only [unlistedCell] at h
    split at h <;> simp_all

/-- A drawn pixel value is below `2^PIXEL_BITS` (R104). -/
theorem drawPixel_lt (s : State) (h : s.cfg.pixelBits ≤ 16) : (drawPixel s).1.toNat < 2 ^ s.cfg.pixelBits := by
  have h1 : (drawWord s).1.toNat % 2 ^ s.cfg.pixelBits < 2 ^ s.cfg.pixelBits := Nat.mod_lt _ (by positivity)
  have h2 : 2 ^ s.cfg.pixelBits ≤ 2 ^ 16 := Nat.pow_le_pow_right (by norm_num) h
  simp only [drawPixel, BitVec.toNat_ofNat]
  rw [Nat.mod_eq_of_lt (lt_of_lt_of_le h1 h2)]
  exact h1

/-- A read of a cell that holds a value gives it and changes nothing (R104). -/
theorem memRead_some {s : State} {b : Bool} {i : Nat} {v : Pixel} (h : cell s b i = some v) : memRead b i s = (v, s) := by
  simp [memRead, h]

/-- A read of an UNDEF cell is a fresh draw (R104). -/
theorem memRead_none {s : State} {b : Bool} {i : Nat} (h : cell s b i = none) : memRead b i s = drawPixel s := by
  simp [memRead, h]

/-- A read changes nothing but the list of free inputs and the counter. -/
theorem memRead_only (b : Bool) (i : Nat) (s : State) :
    (memRead b i s).2 = { s with draws := (memRead b i s).2.draws, drawn := (memRead b i s).2.drawn } := by
  unfold memRead
  split
  · rfl
  · exact drawWord_only s

end Sys2Proof.Machine
end

