-- ==== Sys2Proof/Laws/Ops.lean ====
section
/-! SUPPORT. For each shared operation, once, everything it can do: the guard, the two kinds of micro-operation, the pixel
clock, the sub-steps of a tick, the steps of a line. Later proofs cite these instead of unfolding the operation. -/

namespace Sys2Proof.Machine

/-! ### The guard -/

/-- What the configuration check says (R9 items (1) to (10), and the placement). -/
theorem configOk_iff {c : Config} :
    configOk c = true ↔ PeriodOk c ∧ HsyncOk c ∧ TriggerOk c ∧ PixelDivOk c ∧ LengthOk c ∧ TransferFits c ∧
      LineCountsOk c ∧ VsyncLinesOk c ∧ InputWindowOk c ∧ PixelOk c ∧ PlacementOk c := by
  unfold configOk
  simp only [Bool.and_eq_true, decide_eq_true_eq, and_assoc]

/-- Under the guard an operation answers a next state exactly where its own part does, in a live state. -/
theorem live_next_iff {α : Type} {s : State} {k : Host.Outcome α Fault Refusal} {a : α} :
    live s k = .next a ↔ (configOk s.cfg = true ∧ s.fault = 0) ∧ k = .next a := by
  unfold live refuse
  split
  · split <;> simp_all
  · simp_all

/-- In a live state the guard lets the operation through. -/
theorem live_eq {α : Type} {s : State} (hc : configOk s.cfg = true) (hf : s.fault = 0)
    (k : Host.Outcome α Fault Refusal) : live s k = k := by
  simp [live, hc, hf]

/-- An LFSM micro-operation answers a next state exactly when it is live, enabled, a step of the line, and its own part
does. -/
theorem lfsmOp_next_iff {x : LStep} {s t : State} {k : Result} :
    lfsmOp x s k = .next t ↔
      (configOk s.cfg = true ∧ s.fault = 0) ∧ LfsmEnabled x s ∧ Performs x s ∧ k = .next t := by
  unfold lfsmOp
  rw [live_next_iff]
  refine and_congr_right fun _ => ?_
  by_cases he : LfsmEnabled x s
  · rw [if_pos he]
    by_cases hp : Performs x s
    · rw [if_pos hp]; exact ⟨fun h => ⟨he, hp, h⟩, fun h => h.2.2⟩
    · rw [if_neg hp]; exact ⟨nofun, fun h => absurd h.2.1 hp⟩
  · rw [if_neg he]; exact ⟨nofun, fun h => absurd h.1 he⟩

/-- A TCH micro-operation answers a next state exactly when it is live, enabled, and its own part does. -/
theorem tchOp_next_iff {x : TStep} {s t : State} {k : Result} :
    tchOp x s k = .next t ↔
      (configOk s.cfg = true ∧ s.fault = 0) ∧ TchEnabled x s ∧ k = .next t := by
  unfold tchOp
  rw [live_next_iff]
  refine and_congr_right fun _ => ?_
  by_cases he : TchEnabled x s
  · rw [if_pos he]; exact ⟨fun h => ⟨he, h⟩, fun h => h.2⟩
  · rw [if_neg he]; exact ⟨nofun, fun h => absurd h.1 he⟩

/-- A changed outcome is a next state exactly where the outcome was. -/
theorem mapState_next_iff {f : State → State} {r : Result} {t : State} :
    mapState f r = .next t ↔ ∃ u, r = .next u ∧ t = f u := by
  rcases r with _ | _ | (_ | _ | _) <;> simp [mapState, eq_comm]

/-- A refusal has no next state. -/
@[simp] theorem refuse_ne_next {α : Type} {reason : Reason} {s : State} {a : α} : refuse reason s ≠ .next a := nofun

/-! ### The pixel engine within a tick -/

/-- One pixel moved (R234, R235), as one update of the state. -/
theorem movePixel_eq (s : State) :
    movePixel s =
      { s with
        out := (memRead s.src s.xidx.toNat s).1
        xidx := s.xidx + 1
        xferEn := if (s.xidx + 1).toNat = len s.cfg then false else s.xferEn
        tcFlag := if (s.xidx + 1).toNat = len s.cfg then true else s.tcFlag
        tcPend := if (s.xidx + 1).toNat = len s.cfg ∧ s.tcIe = true then true else s.tcPend
        draws := (memRead s.src s.xidx.toNat s).2.draws
        drawn := (memRead s.src s.xidx.toNat s).2.drawn } := by
  obtain ⟨d, n, h⟩ : ∃ d n, (memRead s.src s.xidx.toNat s).2 = { s with draws := d, drawn := n } :=
    ⟨_, _, memRead_only s.src s.xidx.toNat s⟩
  unfold movePixel
  simp only [h]
  by_cases h1 : (s.xidx + 1).toNat = len s.cfg
  · simp only [h1, if_true, complete, latchTc, true_and]
  · simp only [h1, if_false, false_and]

/-- Everything the pixel clock can do where it answers a next state (R233, R234, R236). -/
theorem pseClock_cases {s t : State} (h : pseClock s = .next t) :
    (s.pclkRun = false ∧ t = s) ∨
    (s.pclkRun = true ∧ s.pdiv + 1 < s.cfg.pixelDiv ∧ t = { s with pdiv := s.pdiv + 1 }) ∨
    (s.pclkRun = true ∧ s.cfg.pixelDiv ≤ s.pdiv + 1 ∧ s.xferEn = false ∧ t = { s with pdiv := 0 }) ∨
    (s.pclkRun = true ∧ s.cfg.pixelDiv ≤ s.pdiv + 1 ∧ s.xferEn = true ∧ s.xidx.toNat ≤ s.cfg.visiblePixels ∧
      t = movePixel { s with pdiv := 0 }) := by
  unfold pseClock pseEdge at h
  split at h
  · split at h
    · cases h; simp_all
    · simp only at h
      split at h
      · split at h
        · cases h; simp_all
        · cases h
      · cases h; simp_all
  · cases h; simp_all

/-- Where the transfer's next cell exists, the pixel clock answers a next state. -/
theorem pseClock_total {s : State} (h : s.xferEn = true → s.xidx.toNat ≤ s.cfg.visiblePixels) :
    ∃ t, pseClock s = .next t := by
  unfold pseClock pseEdge
  split
  · split
    · exact ⟨_, rfl⟩
    · simp only
      split
      · simp_all
      · exact ⟨_, rfl⟩
  · exact ⟨_, rfl⟩

/-- The pixel clock writes only the engine's own fields and the completion's flags (R238). -/
theorem pseClock_only {s t : State} (h : pseClock s = .next t) :
    t = { s with
      pdiv := t.pdiv, out := t.out, xidx := t.xidx, xferEn := t.xferEn, tcFlag := t.tcFlag, tcPend := t.tcPend
      draws := t.draws, drawn := t.drawn } := by
  rcases pseClock_cases h with ⟨-, rfl⟩ | ⟨-, -, rfl⟩ | ⟨-, -, -, rfl⟩ | ⟨-, -, -, -, rfl⟩
  · rfl
  · rfl
  · rfl
  · rw [movePixel_eq]

/-- The flag-clear sub-step writes only the flag, the pending clear and the free inputs (R206). -/
theorem flagClearTick_only (s : State) :
    flagClearTick s =
      { s with tcFlag := (flagClearTick s).tcFlag, tcClrPend := (flagClearTick s).tcClrPend
               draws := (flagClearTick s).draws, drawn := (flagClearTick s).drawn } := by
  obtain ⟨d, n, h⟩ : ∃ d n, (drawWord s).2 = { s with draws := d, drawn := n } := ⟨_, _, drawWord_only s⟩
  unfold flagClearTick
  simp only [clearTc, drawBit_snd, h]
  split
  · split <;> rfl
  · rfl

/-- What writing a clear of the completion flag does (R312), as one update of the state. -/
theorem writeTcClear_eq (s : State) :
    writeTcClear s =
      { s with
        tcFlag := s.tcFlag && !(drawBit s).1
        tcClrPend := s.tcFlag && !(drawBit s).1
        draws := if s.tcFlag then (drawWord s).2.draws else s.draws
        drawn := if s.tcFlag then (drawWord s).2.drawn else s.drawn } := by
  obtain ⟨d, n, h⟩ : ∃ d n, (drawWord s).2 = { s with draws := d, drawn := n } := ⟨_, _, drawWord_only s⟩
  unfold writeTcClear
  simp only [clearTc, drawBit_snd, h]
  cases hf : s.tcFlag <;> cases hb : (drawBit s).1 <;> simp

/-- What a spurious re-assertion does (R314), as one update of the state. -/
theorem spuriousTc_eq (s : State) :
    spuriousTc s =
      { s with
        tcPend := (drawBit s).1 || s.tcPend
        draws := (drawWord s).2.draws
        drawn := (drawWord s).2.drawn } := by
  obtain ⟨d, n, h⟩ : ∃ d n, (drawWord s).2 = { s with draws := d, drawn := n } := ⟨_, _, drawWord_only s⟩
  unfold spuriousTc
  simp only [drawBit_snd, h]
  cases hb : (drawBit s).1 <;> simp

/-- The end of a tick writes only those and the diagnostics count (R206, R207). -/
theorem tickEnd_only (s : State) :
    tickEnd s =
      { s with tcFlag := (tickEnd s).tcFlag, tcClrPend := (tickEnd s).tcClrPend, lineTicks := (tickEnd s).lineTicks
               draws := (tickEnd s).draws, drawn := (tickEnd s).drawn } := by
  have h := flagClearTick_only s
  unfold tickEnd countLineTick
  split <;> (rw [h])

/-- The completion flag and the pending clear after a tick: unchanged, or both clear where a clear was pending (R206). -/
theorem tickEnd_flags (s : State) :
    ((tickEnd s).tcFlag = s.tcFlag ∧ (tickEnd s).tcClrPend = s.tcClrPend) ∨
      (s.tcClrPend = true ∧ (tickEnd s).tcFlag = false ∧ (tickEnd s).tcClrPend = false) := by
  unfold tickEnd countLineTick flagClearTick
  by_cases h : s.tcClrPend = true <;> by_cases h' : (drawBit s).1 = true <;> by_cases h'' : s.lfsmActive = true <;>
    simp_all

/-- Everything one tick of a running generator can do where it answers a next state (R200 to R203, R232). -/
theorem tickRunning_cases {s t : State} (h : tickRunning s = .next t) :
    (nextHcnt s = 0 ∧ DeadlineMissed s ∧ t = raiseFault .deadlineMiss { s with hcnt := 0 }) ∨
    (∃ u v,
      u = (if nextHcnt s = 0 then latchLine { s with hcnt := BitVec.ofNat 16 (nextHcnt s) }
        else { s with hcnt := BitVec.ofNat 16 (nextHcnt s) }) ∧
      (nextHcnt s = 0 → ¬DeadlineMissed s) ∧ pseClock u = .next v ∧
      ((nextHcnt s ≠ s.cfg.triggerOffset ∧ t = tickEnd v) ∨
       (nextHcnt s = s.cfg.triggerOffset ∧ s.arm = .idle ∧ t = tickEnd v) ∨
       (nextHcnt s = s.cfg.triggerOffset ∧ s.arm = .armed ∧ t = tickEnd (startStreaming v)) ∨
       (nextHcnt s = s.cfg.triggerOffset ∧ s.arm = .streaming ∧ t = raiseFault .triggerWhileStreaming v))) := by
  have key : ∀ u, tickEngine (nextHcnt s) u = .next t → u.cfg = s.cfg → u.arm = s.arm → ∃ v, pseClock u = .next v ∧
      ((nextHcnt s ≠ s.cfg.triggerOffset ∧ t = tickEnd v) ∨
       (nextHcnt s = s.cfg.triggerOffset ∧ s.arm = .idle ∧ t = tickEnd v) ∨
       (nextHcnt s = s.cfg.triggerOffset ∧ s.arm = .armed ∧ t = tickEnd (startStreaming v)) ∨
       (nextHcnt s = s.cfg.triggerOffset ∧ s.arm = .streaming ∧ t = raiseFault .triggerWhileStreaming v)) := by
    intro u hu hc ha
    unfold tickEngine at hu
    split at hu
    · rename_i v hv
      have ho := pseClock_only hv
      have hvc : v.cfg = s.cfg := by rw [ho]; exact hc
      have hva : v.arm = s.arm := by rw [ho]; exact ha
      refine ⟨v, hv, ?_⟩
      rw [hvc] at hu
      split at hu
      · rename_i ht
        unfold pseTrigger at hu
        rw [hva] at hu
        cases harm : s.arm <;> rw [harm] at hu <;> cases hu
        · exact .inr (.inl ⟨ht, rfl, rfl⟩)
        · exact .inr (.inr (.inl ⟨ht, rfl, rfl⟩))
        · exact .inr (.inr (.inr ⟨ht, rfl, rfl⟩))
      · rename_i ht
        cases hu
        exact .inl ⟨ht, rfl⟩
    · cases hu
    · cases hu
  unfold tickRunning at h
  simp only at h
  by_cases h0 : nextHcnt s = 0
  · rw [if_pos h0] at h
    split at h
    · rename_i hd
      cases h
      exact .inl ⟨h0, hd, by rw [h0]; rfl⟩
    · rename_i hd
      obtain ⟨v, hv, hr⟩ := key _ h rfl rfl
      exact .inr ⟨_, v, rfl, fun _ => hd, by rw [if_pos h0]; exact hv, hr⟩
  · rw [if_neg h0] at h
    obtain ⟨v, hv, hr⟩ := key _ h rfl rfl
    exact .inr ⟨_, v, rfl, fun h' => absurd h' h0, by rw [if_neg h0]; exact hv, hr⟩

/-! ### The steps of a line -/

/-- The steps of a visible line (R261). -/
theorem lineSteps_visible {c : Config} (h : configOk c = true) {l : Nat} (hl : l < c.vVisible) :
    lineSteps c l = [.swap, .arm, .produce, .audio, .exit] := by
  obtain ⟨-, -, -, -, -, -, ⟨_, _, _, _, _⟩, ⟨_, _⟩, ⟨_, _, _⟩, -, -⟩ := configOk_iff.1 h
  simp only [lineSteps, InWindow]
  rw [if_pos hl, if_neg (by omega), if_neg (by omega), if_neg (by omega), if_neg (by omega)]
  rfl

/-- The steps of any other line (R261). -/
theorem lineSteps_blanking {c : Config} (h : configOk c = true) {l : Nat} (hl : c.vVisible ≤ l) :
    (lineSteps c l = [.frameinc, .input, .audio, .exit] ∧ l = c.vVisible ∧ InWindow c l) ∨
    (lineSteps c l = [.frameinc, .audio, .exit] ∧ l = c.vVisible ∧ ¬InWindow c l) ∨
    (lineSteps c l = [.input, .audio, .exit] ∧ l ≠ c.vVisible ∧ InWindow c l) ∨
    (lineSteps c l = [.vsyncOn, .audio, .exit] ∧ l = c.vsyncOnLine) ∨
    (lineSteps c l = [.vsyncOff, .audio, .exit] ∧ l = c.vsyncOffLine) ∨
    (lineSteps c l = [.audio, .exit] ∧ l ≠ c.vVisible ∧ ¬InWindow c l ∧ l ≠ c.vsyncOnLine ∧ l ≠ c.vsyncOffLine) := by
  obtain ⟨-, -, -, -, -, -, ⟨_, _, _, _, _⟩, ⟨_, _⟩, ⟨_, _, _⟩, -, -⟩ := configOk_iff.1 h
  unfold lineSteps
  rw [if_neg (show ¬l < c.vVisible by omega)]
  by_cases h1 : l = c.vVisible
  · rw [if_pos h1, if_neg (show ¬l = c.vsyncOnLine by omega), if_neg (show ¬l = c.vsyncOffLine by omega)]
    by_cases h2 : InWindow c l
    · rw [if_pos h2]; exact .inl ⟨rfl, h1, h2⟩
    · rw [if_neg h2]; exact .inr (.inl ⟨rfl, h1, h2⟩)
  rw [if_neg h1]
  by_cases h2 : InWindow c l
  · rw [if_pos h2, if_neg (show ¬l = c.vsyncOnLine by omega), if_neg (show ¬l = c.vsyncOffLine by omega)]
    exact .inr (.inr (.inl ⟨rfl, h1, h2⟩))
  rw [if_neg h2]
  by_cases h3 : l = c.vsyncOnLine
  · rw [if_pos h3, if_neg (show ¬l = c.vsyncOffLine by omega)]
    exact .inr (.inr (.inr (.inl ⟨rfl, h3⟩)))
  rw [if_neg h3]
  by_cases h4 : l = c.vsyncOffLine
  · rw [if_pos h4]; exact .inr (.inr (.inr (.inr (.inl ⟨rfl, h4⟩))))
  · rw [if_neg h4]; exact .inr (.inr (.inr (.inr (.inr ⟨rfl, h1, h2, h3, h4⟩))))

/-- A step the LFSM performs on a line past `L_ADV` is one of the line's list (R261). -/
theorem mem_of_performs {x : LStep} {s : State} (h : Performs x s) (h1 : x ≠ .ack) (h2 : x ≠ .adv) :
    x ∈ lineSteps s.cfg s.line.toNat :=
  h.elim (fun h => absurd h h1) fun h => h.elim (fun h => absurd h h2) id

/-- The next step of a line is one of the line's list (R261). -/
theorem stepAfter_mem {x y : LStep} {L : List LStep} (h : stepAfter x L = some y) : y ∈ L := by
  induction L with
  | nil => cases h
  | cons a r ih =>
    simp only [stepAfter] at h
    split at h
    · exact List.mem_cons_of_mem _ (List.mem_of_mem_head? h)
    · exact List.mem_cons_of_mem _ (ih h)

end Sys2Proof.Machine
end

