-- ==== Sys2Proof/Laws/PerInstr.lean ====
section
/-! SUPPORT. The statements made per instruction. `Encodes`: the word of an operation has the fixed bits of its row of
spec/opcode_table.json, a `match` under a `mask`. -/

namespace Sys2Proof.Laws.Encodes

/-- The bits a row fixes: `mask` of spec/opcode_table.json. -/
def mask : Instr → Word
  | .nop => 0xFFFFFFFF
  | .tick _ => 0xFFFF0000
  | .wrctrl _ => 0xFFFFFFF8
  | .rdreg _ => 0xFF00FFFF
  | .bufw _ _ _ => 0xF0000000
  | .bufr _ _ => 0xF000FFFF
  | .cbret _ => 0xFFFFFFFC
  | .lEnter | .lAck | .lAdv | .lSwap | .lArm | .lProduce | .lFrameinc | .lInput | .lVsyncOn | .lVsyncOff | .lAudio
  | .lExit => 0xFFFFFFFF
  | .tEnter | .tBlank | .tClr | .tPoll | .tDis | .tDiscard | .tExit => 0xFFFFFFFF

/-- Their values: `match` of spec/opcode_table.json. -/
def bits : Instr → Word
  | .nop => 0x00000000
  | .tick _ => 0x10000000
  | .wrctrl _ => 0x20000000
  | .rdreg _ => 0x30000000
  | .bufw _ _ _ => 0x40000000
  | .bufr _ _ => 0x50000000
  | .cbret _ => 0x60000000
  | .lEnter => 0xE0000000
  | .lAck => 0xE1000000
  | .lAdv => 0xE2000000
  | .lSwap => 0xE3000000
  | .lArm => 0xE4000000
  | .lProduce => 0xE5000000
  | .lFrameinc => 0xE6000000
  | .lInput => 0xE7000000
  | .lVsyncOn => 0xE8000000
  | .lVsyncOff => 0xE9000000
  | .lAudio => 0xEA000000
  | .lExit => 0xEB000000
  | .tEnter => 0xF0000000
  | .tBlank => 0xF1000000
  | .tClr => 0xF2000000
  | .tPoll => 0xF3000000
  | .tDis => 0xF4000000
  | .tDiscard => 0xF5000000
  | .tExit => 0xF6000000

/-- The word of a well-formed operation has its row's fixed bits. -/
def Statement (i : Instr) : Prop := i.wellFormed = true → encode i &&& mask i = bits i

theorem nop : Statement .nop := fun _ => by decide

theorem tick (n : BitVec 16) : Statement (.tick n) := fun _ => by
  have ha (k : Nat) : (encode (.tick n)).getLsbD k = if k < 16 then n.getLsbD k else (0x1000#16).getLsbD (k - 16) :=
    BitVec.getLsbD_append
  refine BitVec.eq_of_getLsbD_eq fun k hk => ?_
  rw [BitVec.getLsbD_and, ha]
  interval_cases k <;> simp [mask, bits]

theorem wrctrl (d : BitVec 16) : Statement (.wrctrl d) := fun h => by
  have hd : d.extractLsb' 3 13 = 0 := by simpa [Instr.wellFormed] using h
  have ha (k : Nat) : (encode (.wrctrl d)).getLsbD k = if k < 16 then d.getLsbD k else (0x2000#16).getLsbD (k - 16) :=
    BitVec.getLsbD_append
  refine BitVec.eq_of_getLsbD_eq fun k hk => ?_
  have hb : k - 3 < 13 → d.getLsbD (3 + (k - 3)) = false := fun hk => by
    simpa [BitVec.getLsbD_extractLsb', hk] using congrArg (fun x => x.getLsbD (k - 3)) hd
  rw [BitVec.getLsbD_and, ha]
  clear ha hd h
  interval_cases k <;> simp_all [mask, bits]

theorem rdreg (r : Reg) : Statement (.rdreg r) := fun _ => by cases r <;> decide

theorem bufw (b : Bool) (i : BitVec 11) (v : BitVec 16) : Statement (.bufw b i v) := fun _ => by
  have ha (k : Nat) : (encode (.bufw b i v)).getLsbD k =
      if k < 16 then v.getLsbD k else ((0x4#4) ++ BitVec.ofBool b ++ i).getLsbD (k - 16) := BitVec.getLsbD_append
  have hc (k : Nat) : ((0x4#4) ++ BitVec.ofBool b ++ i).getLsbD k =
      if k < 11 then i.getLsbD k else ((0x4#4) ++ BitVec.ofBool b).getLsbD (k - 11) := BitVec.getLsbD_append
  have he (k : Nat) : ((0x4#4) ++ BitVec.ofBool b).getLsbD k =
      if k < 1 then (BitVec.ofBool b).getLsbD k else (0x4#4).getLsbD (k - 1) := BitVec.getLsbD_append
  refine BitVec.eq_of_getLsbD_eq fun k hk => ?_
  rw [BitVec.getLsbD_and, ha, hc, he]
  interval_cases k <;> simp [mask, bits]

theorem bufr (b : Bool) (i : BitVec 11) : Statement (.bufr b i) := fun _ => by
  have ha (k : Nat) : (encode (.bufr b i)).getLsbD k =
      if k < 16 then (0#16).getLsbD k else ((0x5#4) ++ BitVec.ofBool b ++ i).getLsbD (k - 16) := BitVec.getLsbD_append
  have hc (k : Nat) : ((0x5#4) ++ BitVec.ofBool b ++ i).getLsbD k =
      if k < 11 then i.getLsbD k else ((0x5#4) ++ BitVec.ofBool b).getLsbD (k - 11) := BitVec.getLsbD_append
  have he (k : Nat) : ((0x5#4) ++ BitVec.ofBool b).getLsbD k =
      if k < 1 then (BitVec.ofBool b).getLsbD k else (0x5#4).getLsbD (k - 1) := BitVec.getLsbD_append
  refine BitVec.eq_of_getLsbD_eq fun k hk => ?_
  rw [BitVec.getLsbD_and, ha, hc, he]
  interval_cases k <;> simp [mask, bits]

theorem cbret (k : Callback) : Statement (.cbret k) := fun _ => by cases k <;> decide

theorem lEnter : Statement .lEnter := fun _ => by decide
theorem lAck : Statement .lAck := fun _ => by decide
theorem lAdv : Statement .lAdv := fun _ => by decide
theorem lSwap : Statement .lSwap := fun _ => by decide
theorem lArm : Statement .lArm := fun _ => by decide
theorem lProduce : Statement .lProduce := fun _ => by decide
theorem lFrameinc : Statement .lFrameinc := fun _ => by decide
theorem lInput : Statement .lInput := fun _ => by decide
theorem lVsyncOn : Statement .lVsyncOn := fun _ => by decide
theorem lVsyncOff : Statement .lVsyncOff := fun _ => by decide
theorem lAudio : Statement .lAudio := fun _ => by decide
theorem lExit : Statement .lExit := fun _ => by decide
theorem tEnter : Statement .tEnter := fun _ => by decide
theorem tBlank : Statement .tBlank := fun _ => by decide
theorem tClr : Statement .tClr := fun _ => by decide
theorem tPoll : Statement .tPoll := fun _ => by decide
theorem tDis : Statement .tDis := fun _ => by decide
theorem tDiscard : Statement .tDiscard := fun _ => by decide
theorem tExit : Statement .tExit := fun _ => by decide

end Sys2Proof.Laws.Encodes
end

