-- ==== Sys2Proof/Laws/Step.lean ====
section
/-! SUPPORT. Once, everything the fetch of a step can do: which operation it finds, and in which state; and the next step of
each line of the LFSM. -/

namespace Sys2Proof.Machine

/-! ### The fetch -/

/-- In a live state of a run that is not refused the fetch goes on. -/
theorem nextOp_eq {s : State} (hc : configOk s.cfg = true) (hf : s.fault = 0) (hr : s.refused = false) :
    nextOp s =
      (match sequencerOp s with
       | none => fetchStream s
       | some i => if streamBusy s then chooseOp i s else .next (some i, s)) := by
  rw [nextOp, live_eq hc hf, hr]
  rfl

/-- With ticks still to come the stream's next operation is a tick (R13). -/
theorem fetchStream_tick {s : State} (h : s.ticksLeft ≠ 0) : fetchStream s = .next (some (.tick s.ticksLeft), s) := by
  rw [fetchStream, if_pos h]

/-- A word of the stream that spells a host or environment operation is performed, and consumed (R158). -/
theorem fetchStream_word {s : State} {w : Word} {rest : List Word} {i : Instr} (ht : s.ticksLeft = 0)
    (hw : s.stream = w :: rest) (hd : decode w = .operation i) (hc : i.opClass ≠ .sequencer) :
    fetchStream s = .next (some i, { s with stream := rest }) := by
  rw [fetchStream, if_neg (by rw [ht]; decide), hw]
  simp only [hd]
  rw [if_neg hc]

/-- Taking a turn changes nothing but the turns and the counter of free values. -/
theorem drawTurn_snd {s u : State} {t : Turn} (h : drawTurn s = (t, u)) :
    u = { s with turns := u.turns, drawn := u.drawn } := by
  have := drawTurn_only s
  rw [h] at this
  exact this

/-- Everything the stream's fetch can do where it does not refuse. -/
theorem fetchStream_cases {s u : State} {o : Option Instr} (h : fetchStream s = .next (o, u)) :
    (s.ticksLeft ≠ 0 ∧ o = some (.tick s.ticksLeft) ∧ u = s) ∨
    (s.ticksLeft = 0 ∧ s.stream = [] ∧ o = none ∧ u = s) ∨
    (s.ticksLeft = 0 ∧ ∃ w rest i, s.stream = w :: rest ∧ decode w = .operation i ∧ i.opClass ≠ .sequencer ∧
      o = some i ∧ u = { s with stream := rest }) := by
  unfold fetchStream at h
  split at h
  · cases h; exact .inl ⟨‹_›, rfl, rfl⟩
  · rename_i ht
    have ht : s.ticksLeft = 0 := by simpa using ht
    split at h
    · cases h; exact .inr (.inl ⟨ht, ‹_›, rfl, rfl⟩)
    · rename_i w rest hs
      split at h
      · cases h
      · rename_i i hd
        split at h
        · cases h
        · cases h; exact .inr (.inr ⟨ht, w, rest, i, hs, hd, ‹_›, rfl, rfl⟩)

/-- Everything the fetch of a step can do where it does not stop: the state it leaves differs in the stream, the turns and
the counter of free values only, and the operation is the enabled micro-operation or the stream's. -/
theorem nextOp_cases {s u : State} {o : Option Instr} (h : nextOp s = .next (o, u)) :
    ((configOk s.cfg = true ∧ s.fault = 0) ∧ s.refused = false) ∧
    u = { s with stream := u.stream, turns := u.turns, drawn := u.drawn } ∧
    ((∃ i, o = some i ∧ sequencerOp s = some i ∧ u.stream = s.stream) ∨
     (∃ v, v = { s with turns := v.turns, drawn := v.drawn } ∧ fetchStream v = .next (o, u))) := by
  obtain ⟨hl, h⟩ := live_next_iff.1 h
  split at h
  · cases h
  rename_i hr
  have fs {v : State} (hv : v = { s with turns := v.turns, drawn := v.drawn }) (hf : fetchStream v = .next (o, u)) :
      u = { s with stream := u.stream, turns := u.turns, drawn := u.drawn } := by
    rcases fetchStream_cases hf with ⟨-, -, hu⟩ | ⟨-, -, -, hu⟩ | ⟨-, w, rest, i, -, -, -, -, hu⟩ <;>
      rw [hu] <;> conv_lhs => rw [hv]
    · rw [hv]
    · rw [hv]
  refine ⟨⟨hl, by simpa using hr⟩, ?_⟩
  split at h
  · exact ⟨fs rfl h, .inr ⟨s, rfl, h⟩⟩
  · rename_i i hs
    split at h
    · unfold chooseOp at h
      split at h
      · rename_i t hd
        cases h
        have := drawTurn_snd hd
        exact ⟨by conv_lhs => rw [this]
                  rw [this], .inl ⟨i, rfl, hs, by rw [this]⟩⟩
      · rename_i t hd
        exact ⟨fs (drawTurn_snd hd) h, .inr ⟨t, drawTurn_snd hd, h⟩⟩
    · cases h; exact ⟨rfl, .inl ⟨i, rfl, hs, rfl⟩⟩

/-- A step that answers a next state performed the operation the fetch found, or rested. -/
theorem step_next_iff {s t : State} :
    step s = .next t ↔ (∃ i u, nextOp s = .next (some i, u) ∧ exec i u = .next t) ∨ nextOp s = .next (none, t) := by
  unfold step
  cases h : nextOp s with
  | next p =>
    obtain ⟨o, u⟩ := p
    cases o <;> simp
  | fault r => simp
  | refused r => simp

/-! ### The next step of a line (R261) -/

/-- The three steps of source step 3 are performed on visible lines only. -/
theorem visible_of_performs {x : LStep} {s : State} (hc : configOk s.cfg = true) (h : Performs x s)
    (hx : x = .swap ∨ x = .arm ∨ x = .produce) : s.line.toNat < s.cfg.vVisible := by
  have h3 := mem_of_performs h (by rintro rfl; simp at hx) (by rintro rfl; simp at hx)
  by_contra hh
  rcases lineSteps_blanking hc (Nat.le_of_not_lt hh) with h | h | h | h | h | h <;> rw [h.1] at h3 <;>
    rcases hx with rfl | rfl | rfl <;> simp at h3

/-- The steps of the blanking lines are performed on blanking lines only. -/
theorem blanking_of_performs {x : LStep} {s : State} (hc : configOk s.cfg = true) (h : Performs x s)
    (hx : x = .frameinc ∨ x = .input ∨ x = .vsyncOn ∨ x = .vsyncOff) : s.cfg.vVisible ≤ s.line.toNat := by
  have h3 := mem_of_performs h (by rintro rfl; simp at hx) (by rintro rfl; simp at hx)
  by_contra hh
  rw [lineSteps_visible hc (Nat.lt_of_not_le hh)] at h3
  rcases hx with rfl | rfl | rfl | rfl <;> simp at h3

/-- `next(PRODUCE)` is `AUDIO`. -/
theorem nextLStep_produce {s : State} (hc : configOk s.cfg = true) (h : Performs .produce s) :
    nextLStep .produce s = some .audio := by
  simp [nextLStep, lineSteps_visible hc (visible_of_performs hc h (by simp)), stepAfter]

/-- `next(INPUT)` is `AUDIO`. -/
theorem nextLStep_input {s : State} (hc : configOk s.cfg = true) (h : Performs .input s) :
    nextLStep .input s = some .audio := by
  have h3 := mem_of_performs h (by simp) (by simp)
  rcases lineSteps_blanking hc (blanking_of_performs hc h (by simp)) with h | h | h | h | h | h <;> simp [h.1] at h3 <;>
    simp [nextLStep, h.1, stepAfter]

/-- `next(FRAMEINC)` is `INPUT` where the line lies in the input window, else `AUDIO`. -/
theorem nextLStep_frameinc {s : State} (hc : configOk s.cfg = true) (h : Performs .frameinc s) :
    nextLStep .frameinc s = some (if InWindow s.cfg s.line.toNat then .input else .audio) := by
  have h3 := mem_of_performs h (by simp) (by simp)
  rcases lineSteps_blanking hc (blanking_of_performs hc h (by simp)) with h | h | h | h | h | h
  · rw [if_pos h.2.2, nextLStep, h.1]; rfl
  · rw [if_neg h.2.2, nextLStep, h.1]; rfl
  all_goals rw [h.1] at h3; simp at h3

/-- `next(VSYNC_ON)` is `AUDIO`. -/
theorem nextLStep_vsyncOn {s : State} (hc : configOk s.cfg = true) (h : Performs .vsyncOn s) :
    nextLStep .vsyncOn s = some .audio := by
  have h3 := mem_of_performs h (by simp) (by simp)
  rcases lineSteps_blanking hc (blanking_of_performs hc h (by simp)) with h | h | h | h | h | h <;> simp [h.1] at h3
  simp [nextLStep, h.1, stepAfter]

/-- `next(VSYNC_OFF)` is `AUDIO`. -/
theorem nextLStep_vsyncOff {s : State} (hc : configOk s.cfg = true) (h : Performs .vsyncOff s) :
    nextLStep .vsyncOff s = some .audio := by
  have h3 := mem_of_performs h (by simp) (by simp)
  rcases lineSteps_blanking hc (blanking_of_performs hc h (by simp)) with h | h | h | h | h | h <;> simp [h.1] at h3
  simp [nextLStep, h.1, stepAfter]

end Sys2Proof.Machine
end

