-- ==== Sys2Proof/Tests/Slice0.lean ====
section
/-! SUPPORT. Tests: the smoke test of `Instr.wellFormed`; words written out from the spec's formats; single steps against the
vectors of spec/95_test_vectors.md; and, for every statement with premises, a state and operands that meet them. -/

namespace Sys2Proof.Tests

open Sys2Proof Sys2Proof.Machine Sys2Proof.Safety

/-! ### Helpers -/

/-- The next state of an outcome, if any. -/
def after : Result → Option State
  | .next s => some s
  | .fault _ => none
  | .refused _ => none

/-- The reason of an outcome that refuses, if any. -/
def refusal : Result → Option Reason
  | .refused (.refuse reason _) => some reason
  | _ => none

/-- CFG-T after `WRCTRL 7`. -/
def started : State := { State.reset with run := true, lineIe := true, tcIe := true }

/-- CFG-T8 of 95_test_vectors: CFG-T with 8-bit pixels. -/
def reset8 : State := State.resetWith { Config.cfgT with pixelBits := 8 }

/-- The LFSM at a step of a line. -/
def atStep (x : LStep) (l : BitVec 16) : State := { started with lfsmActive := true, lpc := some x, line := l }

/-- The LFSM just entered: the flag is still set. -/
def entered : State := { atStep .ack 0 with lineFlag := true }

/-- A visible line armed from buffer 1, its producer called. -/
def armed : State :=
  { atStep .audio 1 with display := true, src := true, arm := .armed, xferEn := true, cbreq := some .produce, hcnt := 4 }

/-- The same line streaming, all `LEN` cells moved, the completion reported (TC-1). -/
def completed : State :=
  { armed with
    arm := .streaming, xferEn := false, pclkRun := true, xidx := 5, hcnt := 15, tcFlag := true, tcPend := true }

/-- The TCH at a step, the flag set or clear, with listed draws. -/
def handling (x : TStep) (flag : Bool) (draws : List (BitVec 16)) : State :=
  { completed with tcPend := false, tcFlag := flag, tchActive := true, tpc := some x, draws := draws }

/-- The TCH past `T_DIS`. -/
def quiesced (x : TStep) : State :=
  { handling x false [] with arm := .idle, pclkRun := false, pdiv := 0 }

/-- The line interrupt pending at a period start on line `l`. -/
def pending (l : BitVec 16) : State := { started with lineFlag := true, linePend := true, line := l }

/-- A streaming line about to move cell `x` at its next tick, cell 0 of buffer 1 written. -/
def streaming (x : BitVec 12) : State :=
  { armed with arm := .streaming, pclkRun := true, pdiv := 1, xidx := x, hcnt := 6, mem := [(2048, 0x0011)], draws := [0xABCD] }

/-! ### Well-formedness -/

theorem test_wellFormed_refuses_tick_zero : (Instr.tick 0).wellFormed = false := by decide
theorem test_wellFormed_refuses_wrctrl_high_bits : (Instr.wrctrl 8).wellFormed = false := by decide
theorem test_wellFormed_accepts_bounds : (Instr.tick 65535).wellFormed = true ∧ (Instr.wrctrl 7).wellFormed = true := by
  decide

/-! ### Words, written bit by bit from R142 to R149 -/

/-- Format Z (R142). -/
theorem test_decode_nop : decode 0b0000_0000000000000000000000000000 = .operation .nop := by decide
/-- Format N (R143): N = 5. -/
theorem test_decode_tick : decode 0b0001_000000000000_0000000000000101 = .operation (.tick 5) := by decide
/-- Format C (R144): TC_IE and RUN. -/
theorem test_decode_wrctrl : decode 0b0010_000000000000_0000000000000_1_0_1 = .operation (.wrctrl 0b101) := by decide
/-- Format R (R146): REG = 9. -/
theorem test_decode_rdreg : decode 0b0011_0000_00001001_0000000000000000 = .operation (.rdreg .xidx) := by decide
/-- Format B (R147): B = 1, IDX = 3, VAL = 0x1234. -/
theorem test_decode_bufw : decode 0b0100_1_00000000011_0001001000110100 = .operation (.bufw true 3 0x1234) := by decide
/-- Format B (R147): B = 0, IDX = 2047. -/
theorem test_decode_bufr : decode 0b0101_0_11111111111_0000000000000000 = .operation (.bufr false 2047) := by decide
/-- Format K (R148): K = 3. -/
theorem test_decode_cbret : decode 0b0110_00000000000000000000000000_11 = .operation (.cbret .audio) := by decide
/-- Format S (R149), LFSM: SUB from 0 to 0xB. -/
theorem test_decode_lfsm :
    [0b1110_0000_000000000000000000000000, 0b1110_0001_000000000000000000000000, 0b1110_0010_000000000000000000000000,
      0b1110_0011_000000000000000000000000, 0b1110_0100_000000000000000000000000, 0b1110_0101_000000000000000000000000,
      0b1110_0110_000000000000000000000000, 0b1110_0111_000000000000000000000000, 0b1110_1000_000000000000000000000000,
      0b1110_1001_000000000000000000000000, 0b1110_1010_000000000000000000000000,
      0b1110_1011_000000000000000000000000].map decode =
    [.operation .lEnter, .operation .lAck, .operation .lAdv, .operation .lSwap, .operation .lArm, .operation .lProduce,
      .operation .lFrameinc, .operation .lInput, .operation .lVsyncOn, .operation .lVsyncOff, .operation .lAudio,
      .operation .lExit] := by decide
/-- Format S (R149), TCH: SUB from 0 to 6. -/
theorem test_decode_tch :
    [0b1111_0000_000000000000000000000000, 0b1111_0001_000000000000000000000000, 0b1111_0010_000000000000000000000000,
      0b1111_0011_000000000000000000000000, 0b1111_0100_000000000000000000000000, 0b1111_0101_000000000000000000000000,
      0b1111_0110_000000000000000000000000].map decode =
    [.operation .tEnter, .operation .tBlank, .operation .tClr, .operation .tPoll, .operation .tDis, .operation .tDiscard,
      .operation .tExit] := by decide
/-- 95_test_vectors 2.1: the `ILLEGAL` rows. -/
theorem test_decode_illegal :
    [(0x00000001 : Word), 0x10000000, 0x10010001, 0x20000008, 0x20010000, 0x300A0000, 0x31000000, 0x30010001,
      0x50040001, 0x60000000, 0x60000004, 0x70000000, 0xD0000000, 0xEC000000, 0xE0000001, 0xF7000000].map decode =
      List.replicate 16 .illegal := by decide
/-- R156, the assembler syntax. -/
theorem test_assembly : (Instr.bufw true 3 0x1234).assembly = "BUFW 1, 3, 4660" ∧ Instr.lVsyncOn.assembly = "L.VSYNC_ON" := by
  decide +kernel

/-! ### Single steps, against 95_test_vectors -/

/-- HO-1. -/
theorem test_nop_changes_nothing : after (exec .nop State.reset) = some State.reset := by decide
/-- HT-4. -/
theorem test_tick_period_start :
    (after (exec (.tick 1) { started with hcnt := 19 })).map (fun t => (t.hcnt, t.lineFlag, t.linePend)) =
      some (0, true, true) := by decide
/-- PS-7 and PS-6: a written cell, and an UNDEF one, whose value is the draw. -/
theorem test_tick_pixel_edge :
    (after (exec (.tick 1) (streaming 0))).map (fun t => (t.out, t.xidx)) = some (0x0011, 1) ∧
      (after (exec (.tick 1) (streaming 1))).map (fun t => (t.out, t.xidx)) = some (0xABCD, 2) := by decide
/-- R343's own table: HO-11, HO-7, and HO-13. -/
theorem test_bufw :
    (after (exec (.bufw true 0 0x1234) State.reset)).map (fun t => cell t true 0) = some (some 0x1234) ∧
      refusal (exec (.bufw false 4 0) State.reset) = some .bufwIndex ∧
      (after (exec (.bufw true 0 0x1234) armed)).map (fun t => t.fault) = some 0x20 := by decide
/-- HO-8 and HO-9. -/
theorem test_bufw_value :
    refusal (exec (.bufw false 0 0x100) reset8) = some .bufwValue ∧
      refusal (exec (.bufw false 4 0x100) reset8) = some .bufwIndex := by decide
/-- HO-10. -/
theorem test_bufr :
    (after (exec (.bufr false 4) State.reset)).map (fun t => t.replies) = some [0] ∧
      refusal (exec (.bufr false 5) State.reset) = some .bufrIndex := by decide
/-- HO-2 and HO-3. -/
theorem test_wrctrl :
    (after (exec (.wrctrl 7) State.reset)).map (fun t => (t.run, t.lineIe, t.tcIe, t.hcnt)) = some (true, true, true, 0) ∧
      refusal (exec (.wrctrl 7) started) = some .wrctrlAfterStart := by decide
/-- HT-3's `STATUS`, and HT-2's. -/
theorem test_rdreg_status :
    (after (exec (.rdreg .status) { armed with cbreq := none, hcnt := 0 })).map (fun t => t.replies) = some [0x8e4] ∧
      (after (exec (.rdreg .status) started)).map (fun t => t.replies) = some [0x20] := by decide
/-- HO-18, and R345's example. -/
theorem test_cbret :
    refusal (exec (.cbret .produce) State.reset) = some .cbretMismatch ∧
      (after (exec (.cbret .produce) armed)).map (fun t => t.cbreq) = some none := by decide
/-- R263's example. -/
theorem test_lEnter :
    (after (exec .lEnter (pending 0))).map (fun t => (t.lfsmActive, t.lpc, t.linePend, t.lineFlag)) =
      some (true, some .ack, false, true) := by decide
/-- LF-2. -/
theorem test_lAck :
    (after (exec .lAck { entered with out := 0x0044 })).map (fun t => (t.out, t.lineFlag, t.lpc)) =
      some (0, false, some .adv) := by decide
/-- LF-1. -/
theorem test_lAdv :
    [7, 0, 2, 3, 4, 5, 6].map (fun l => (after (exec .lAdv (atStep .adv l))).map fun t => (t.line, t.lpc)) =
      [some (0, some .swap), some (1, some .swap), some (3, some .frameinc), some (4, some .audio),
        some (5, some .vsyncOn), some (6, some .vsyncOff), some (7, some .audio)] := by decide
/-- LF-3. -/
theorem test_lSwap :
    (after (exec .lSwap { atStep .swap 1 with arm := .armed })).map (fun t => (t.display, t.lpc)) = some (true, some .arm) ∧
      (after (exec .lSwap { atStep .swap 1 with arm := .streaming })).map (fun t => (t.fault, t.display)) =
        some (0x08, false) := by decide
/-- LF-5. -/
theorem test_lArm :
    [(ArmState.idle, (4 : BitVec 16)), (.idle, 5), (.armed, 0), (.streaming, 7)].map (fun p =>
        (after (exec .lArm { atStep .arm 1 with display := true, arm := p.1, hcnt := p.2 })).map
          fun t => (t.arm, t.src, t.fault)) =
      [some (.armed, true, 0), some (.idle, false, 0x02), some (.armed, false, 0x04), some (.streaming, false, 0x04)] := by
  decide
/-- R268's example. -/
theorem test_lProduce :
    (after (exec .lProduce (atStep .produce 1))).map (fun t => (t.cbreq, t.lpc)) = some (some .produce, some .audio) := by
  decide
/-- LF-6. -/
theorem test_lFrameinc :
    (after (exec .lFrameinc (atStep .frameinc 3))).map (fun t => (t.frame, t.lpc)) = some (1, some .input) ∧
      (after (exec .lFrameinc { atStep .frameinc 3 with frame := 0xFFFFFFFF })).map (fun t => t.frame) = some 0 := by decide
/-- R270's example. -/
theorem test_lInput :
    (after (exec .lInput (atStep .input 3))).map (fun t => (t.cbreq, t.lpc)) = some (some .input, some .audio) := by decide
/-- R271's and R272's examples. -/
theorem test_vsync :
    (after (exec .lVsyncOn (atStep .vsyncOn 5))).map (fun t => t.vsync) = some true ∧
      (after (exec .lVsyncOff { atStep .vsyncOff 6 with vsync := true })).map (fun t => t.vsync) = some false := by decide
/-- R273's example. -/
theorem test_lAudio :
    (after (exec .lAudio (atStep .audio 4))).map (fun t => (t.cbreq, t.lpc)) = some (some .audio, some .exit) := by decide
/-- LF-9. -/
theorem test_lExit :
    (after (exec .lExit { atStep .exit 4 with lineTicks := 2 })).map (fun t => (t.maxline, t.lfsmActive, t.lpc)) =
      some (2, false, none) := by decide
/-- LF-10: `T_ENTER` is enabled and `L_ADV` is not. -/
theorem test_tEnter_preempts :
    sequencerOp { atStep .adv 0 with tcPend := true } = some .tEnter ∧
      refusal (exec .lAdv { atStep .adv 0 with tcPend := true }) = some .notEnabled := by decide
/-- R310's example. -/
theorem test_tEnter :
    (after (exec .tEnter completed)).map (fun t => (t.tchActive, t.tcPend, t.tcFlag)) = some (true, false, true) := by decide
/-- R311's example. -/
theorem test_tBlank :
    (after (exec .tBlank { handling .blank true [] with out := 3 })).map (fun t => (t.out, t.tpc)) = some (0, some .clr) := by
  decide
/-- TC-5. -/
theorem test_tClr :
    (after (exec .tClr (handling .clr true [0]))).map (fun t => (t.tcFlag, t.tcClrPend)) = some (true, true) ∧
      (after (exec .tClr (handling .clr true [1]))).map (fun t => (t.tcFlag, t.tcClrPend)) = some (false, false) := by decide
/-- R313's example, and the loop. -/
theorem test_tPoll :
    (after (exec .tPoll (handling .poll false []))).map (fun t => t.tpc) = some (some .dis) ∧
      (after (exec .tPoll (handling .poll true []))).map (fun t => t.tpc) = some (some .clr) := by decide
/-- R314's example. -/
theorem test_tDis :
    (after (exec .tDis (handling .dis false [1]))).map (fun t => (t.arm, t.pclkRun, t.tcPend, t.xidx)) =
      some (.idle, false, true, 5) := by decide
/-- R315's example. -/
theorem test_tDiscard :
    (after (exec .tDiscard { quiesced .discard with tcPend := true })).map (fun t => t.tcPend) = some false := by decide
/-- R316's example. -/
theorem test_tExit :
    (after (exec .tExit (quiesced .exit))).map (fun t => (t.tchActive, t.tpc)) = some (false, none) := by decide
/-- HO-17: a class S word from the host. -/
theorem test_seqWord : refusal (step { State.reset with stream := [0xE0000000] }) = some .seqWord := by decide
/-- EX-5: `TRIGGER_OFFSET = 11`, and `VSYNC_ON_LINE = 4`. -/
theorem test_badConfig :
    refusal (step (State.resetWith { Config.cfgT with triggerOffset := 11 })) = some .badConfig ∧
      refusal (step (State.resetWith { Config.cfgT with vsyncOnLine := 4 })) = some .badConfig := by decide
/-- R405, HO-18: the refusal marks the state it ends in, and nothing else changes; no step follows. -/
theorem test_refusal_marks_the_state :
    exec (.cbret .produce) State.reset = .refused (.refuse .cbretMismatch { State.reset with refused := true }) ∧
      after (step { State.reset with refused := true, stream := [0] }) = none := ⟨rfl, by decide⟩
/-- R461: with `TC_CLEAR_MAX = 1` no tick leaves a clear pending. -/
theorem test_tcClearMax_is_the_tick_that_clears :
    ¬TcClearMax 1 (fun _ => { State.reset with tcClrPend := true, ticksLeft := 1 }) :=
  fun h => absurd (h 0 1 fun _ _ => rfl) (by decide)
/-- A word placed for the next step is what it performs: one of each class, from reset. -/
theorem test_withFetchWord :
    (after (step (State.reset.withFetchWord 32 0x20000007))).map (fun t => t.run) = some true ∧
      (after (step (State.reset.withFetchWord 32 0xE9000000))).map (fun t => (t.lpc, t.line)) = some (some .audio, 6) ∧
      (after (step (State.reset.withFetchWord 32 0xF5000000))).map (fun t => t.tpc) = some (some .exit) := by decide

/-! ### Witnesses: states and operands that meet the premises of each statement -/

theorem inv_reset : MachineInv State.reset :=
  ⟨by decide, by decide, by decide, by decide, by decide, by decide, by decide, by decide, by decide, by decide, by decide⟩
theorem inv_started : MachineInv started :=
  ⟨by decide, by decide, by decide, by decide, by decide, by decide, by decide, by decide, by decide, by decide, by decide⟩
theorem inv_armed : MachineInv armed :=
  ⟨by decide, by decide, by decide, by decide, by decide, by decide, by decide, by decide, by decide, by decide, by decide⟩
theorem inv_completed : MachineInv completed :=
  ⟨by decide, by decide, by decide, by decide, by decide, by decide, by decide, by decide, by decide, by decide, by decide⟩
theorem inv_exit : MachineInv (quiesced .exit) :=
  ⟨by decide, by decide, by decide, by decide, by decide, by decide, by decide, by decide, by decide, by decide, by decide⟩
theorem inv_dis : MachineInv (handling .dis false []) :=
  ⟨by decide, by decide, by decide, by decide, by decide, by decide, by decide, by decide, by decide, by decide, by decide⟩
theorem inv_sync : MachineInv { atStep .exit 5 with vsync := true } :=
  ⟨by decide, by decide, by decide, by decide, by decide, by decide, by decide, by decide, by decide, by decide, by decide⟩
theorem inv_backPorch : MachineInv (atStep .exit 7) :=
  ⟨by decide, by decide, by decide, by decide, by decide, by decide, by decide, by decide, by decide, by decide, by decide⟩

theorem witness_DecodeOfEncodeIsTheOperation : (Instr.tick 65535).wellFormed = true := by decide
theorem witness_EncodeOfDecodeIsTheWord : decode 0x4FFF0000 = .operation (.bufw true 2047 0) := by decide
theorem witness_IllegalWordsAreTheListedOnesAndRefuse :
    (CanStep { State.reset with stream := [0x10000000] } ∧ decode 0x10000000 = .illegal ∧
      sequencerOp { State.reset with stream := [0x10000000] } = none) ∧
    (CanStep { pending 0 with stream := [0x10000000], turns := [.stream] } ∧
      sequencerOp { pending 0 with stream := [0x10000000], turns := [.stream] } ≠ none ∧
      drawTurn { pending 0 with stream := [0x10000000], turns := [.stream] } =
        (.stream, { pending 0 with stream := [0x10000000] })) := by decide
theorem witness_StepRunsTheOperationWhoseTurnItIs :
    (CanStep { started with ticksLeft := 1 } ∧ sequencerOp { started with ticksLeft := 1 } = none) ∧
    (CanStep { pending 0 with stream := [0], turns := [.stream] } ∧
      sequencerOp { pending 0 with stream := [0], turns := [.stream] } ≠ none ∧
      streamBusy { pending 0 with stream := [0], turns := [.stream] } = true ∧
      drawTurn { pending 0 with stream := [0], turns := [.stream] } = (.stream, { pending 0 with stream := [0] }) ∧
      decode 0 = .operation .nop ∧ Instr.nop.opClass ≠ .sequencer) ∧
    (CanStep (pending 0) ∧ sequencerOp (pending 0) = some .lEnter ∧ streamBusy (pending 0) = false) ∧
    (sequencerOp { pending 0 with stream := [0], turns := [.sequencer] } = some .lEnter ∧
      drawTurn { pending 0 with stream := [0], turns := [.sequencer] } = (.sequencer, { pending 0 with stream := [0] })) := by
  decide
theorem witness_MicroOperationsEnabledExactlyWhen :
    (CanStep (pending 0) ∧ streamBusy (pending 0) = false) ∧
    (CanStep { pending 0 with ticksLeft := 1, turns := [.stream] } ∧
      sequencerOp { pending 0 with ticksLeft := 1, turns := [.stream] } ≠ none ∧
      drawTurn { pending 0 with ticksLeft := 1, turns := [.stream] } = (.stream, { pending 0 with ticksLeft := 1 })) := by
  decide
theorem witness_SequencerWordFromTheHostIsRefused :
    (CanStep { State.reset with stream := [0xE0000000] } ∧ decode 0xE0000000 = .operation .lEnter ∧
      Instr.lEnter.opClass = .sequencer ∧ sequencerOp { State.reset with stream := [0xE0000000] } = none) ∧
    (sequencerOp { pending 0 with stream := [0xE0000000], turns := [.stream] } ≠ none ∧
      drawTurn { pending 0 with stream := [0xE0000000], turns := [.stream] } =
        (.stream, { pending 0 with stream := [0xE0000000] })) := by decide
theorem witness_NothingEnabledMeansNothingDone :
    (CanStep started ∧ sequencerOp started = none ∧ started.stream = [] ∧ started.ticksLeft = 0) ∧
      Instr.lEnter.opClass = .sequencer ∧ sequencerOp started ≠ some .lEnter := by decide
theorem witness_FaultedStateIsQuiescent :
    configOk State.reset.cfg = true ∧ ({ State.reset with fault := 0x20 } : State).fault ≠ 0 := by decide
/-- One configuration for each bound of R9 items (1) to (10); EX-5's are those of items (6) and (8). -/
theorem witness_IllFormedConfigurationIsRefused :
    (¬PeriodOk { Config.cfgT with hPeriod := 1 } ∧ ¬PeriodOk { Config.cfgT with hPeriod := 65537 }) ∧
    (¬HsyncOk { Config.cfgT with hsyncWidth := 0 } ∧ ¬HsyncOk { Config.cfgT with hsyncWidth := 20 }) ∧
    (¬TriggerOk { Config.cfgT with triggerOffset := 0 } ∧ ¬TriggerOk { Config.cfgT with triggerOffset := 20 }) ∧
    ¬PixelDivOk { Config.cfgT with pixelDiv := 0 } ∧
    (¬LengthOk { Config.cfgT with visiblePixels := 0 } ∧ ¬LengthOk { Config.cfgT with visiblePixels := 2048 }) ∧
    ¬TransferFits { Config.cfgT with triggerOffset := 11 } ∧
    (¬LineCountsOk { Config.cfgT with vVisible := 0 } ∧ ¬LineCountsOk { Config.cfgT with vFront := 0 } ∧
      ¬LineCountsOk { Config.cfgT with vSync := 0 } ∧ ¬LineCountsOk { Config.cfgT with vBack := 0 } ∧
      ¬LineCountsOk { Config.cfgT with vBack := 65536 }) ∧
    (¬VsyncLinesOk { Config.cfgT with vsyncOnLine := 4 } ∧ ¬VsyncLinesOk { Config.cfgT with vsyncOffLine := 7 }) ∧
    (¬InputWindowOk { Config.cfgT with inputWinLen := 0 } ∧ ¬InputWindowOk { Config.cfgT with inputWinStart := 2 } ∧
      ¬InputWindowOk { Config.cfgT with inputWinStart := 5 }) ∧
    ¬PixelOk { Config.cfgT with pixelBits := 0 } ∧ ¬PixelOk { Config.cfgT with pixelBits := 17 } ∧
    ¬PixelOk { Config.cfgT with pixelBits := 8, blankValue := 256 } := by and_intros <;> decide
/-- A refused step, the state it ended in, a refused operation, and an operation that completes. -/
theorem witness_RefusalSetsTheMarkAndEndsTheRun :
    (State.reset.refused = false ∧ refusal (step { State.reset with stream := [0xE0000000] }) = some .seqWord) ∧
      refusal (exec (.cbret .produce) State.reset) = some .cbretMismatch ∧
      ({ State.reset with refused := true } : State).refused = true ∧ ∃ t, exec (.tick 1) armed = .next t :=
  ⟨by decide, by decide, by decide, ⟨_, rfl⟩⟩
theorem witness_InvariantHoldsAtReset : configOk Config.cfgT = true := by decide
theorem witness_NopChangesNothing : Live State.reset := by decide
theorem witness_WrctrlWritesControl :
    Live State.reset ∧ State.reset.run = false ∧ Live started ∧ started.run = true ∧
      ∀ k, 3 ≤ k → (7 : BitVec 16).getLsbD k = false :=
  ⟨by decide, by decide, by decide, by decide, fun k hk => by
    by_cases h : k < 16
    · interval_cases k <;> decide
    · exact BitVec.getLsbD_of_ge _ _ (by omega)⟩
theorem witness_RdregReturnsTheRegister : Live armed ∧ armed.cbreq = some .produce ∧ State.reset.cfg.diag = true := by decide
theorem witness_BufwWritesOneCell :
    Live reset8 ∧ reset8.cfg.visiblePixels ≤ (4 : BitVec 11).toNat ∧ (3 : BitVec 11).toNat < reset8.cfg.visiblePixels ∧
      2 ^ reset8.cfg.pixelBits ≤ (0x100 : BitVec 16).toNat ∧ (0xFF : BitVec 16).toNat < 2 ^ reset8.cfg.pixelBits ∧
      ¬(reset8.run = true ∧ true = reset8.display) ∧
      (Live armed ∧ armed.run = true ∧ true = armed.display) ∧ ¬(armed.run = true ∧ false = armed.display) := by decide
theorem witness_BufrReturnsTheCell :
    Live State.reset ∧ State.reset.cfg.visiblePixels < (5 : BitVec 11).toNat ∧
      (4 : BitVec 11).toNat ≤ State.reset.cfg.visiblePixels ∧ cell State.reset true (4 : BitVec 11).toNat = some 0 ∧
      cell { State.reset with draws := [7] } true (3 : BitVec 11).toNat = none := by decide
theorem witness_CbretReturnsTheRequestedCallback :
    Live armed ∧ armed.cbreq = some .produce ∧ armed.cbreq ≠ some .audio := by decide
theorem witness_TickBeforeStartChangesNothing :
    Live State.reset ∧ (65535 : BitVec 16) ≠ 0 ∧ State.reset.run = false ∧ MachineInv State.reset :=
  ⟨by decide, by decide, by decide, inv_reset⟩
theorem witness_TickCountsModuloThePeriod :
    started.run = true ∧ (∃ t, exec (.tick 1) started = .next t) ∧ ∃ t, exec (.bufw true 0 1) started = .next t :=
  ⟨by decide, ⟨_, rfl⟩, ⟨_, rfl⟩⟩
theorem witness_TickCompletesAndCountsTheLineDuration :
    (Live armed ∧ TickClear armed ∧ armed.lfsmActive = true) ∧
      TickClear { armed with lineTicks := 0xFFFFFFFF } ∧ TickClear started ∧ started.lfsmActive = false := by decide
theorem witness_PeriodStartLatchesOrFaults :
    (Live { armed with hcnt := 19 } ∧ nextHcnt { armed with hcnt := 19 } = 0 ∧ armed.lfsmActive = true) ∧
      (Live { started with hcnt := 19 } ∧ nextHcnt { started with hcnt := 19 } = 0 ∧
        TickRuns { started with hcnt := 19 } ∧ started.lineIe = true) ∧
      TickRuns { started with hcnt := 19, lineIe := false } := by decide
theorem witness_TriggerStartsAnArmedEngine :
    (Live armed ∧ TickRuns armed ∧ nextHcnt armed = armed.cfg.triggerOffset ∧ armed.arm = .armed ∧ armed.pclkRun = false) ∧
      (TickRuns { started with hcnt := 4 } ∧ nextHcnt { started with hcnt := 4 } = started.cfg.triggerOffset) ∧
      (TickRuns { completed with hcnt := 4 } ∧ completed.arm = .streaming) := by decide
theorem witness_PixelClockDividesTheBaseClock :
    (Live started ∧ TickRuns started ∧ ¬(nextHcnt started = started.cfg.triggerOffset ∧ started.arm = .armed)) ∧
      (TickRuns completed ∧ completed.pdiv + 1 < completed.cfg.pixelDiv ∧ completed.xferEn = false) ∧
      (TickRuns { completed with pdiv := 1 } ∧ ¬(1 + 1 < completed.cfg.pixelDiv)) := by decide
theorem witness_PixelEdgeMovesOneCell :
    (Live (streaming 0) ∧ TickRuns (streaming 0) ∧ (streaming 0).pclkRun = true ∧
      (streaming 0).cfg.pixelDiv ≤ (streaming 0).pdiv + 1 ∧ (streaming 0).xferEn = true ∧
      cell (streaming 0) (streaming 0).src 0 = some 0x0011) ∧
    (TickRuns (streaming 3) ∧ cell (streaming 3) (streaming 3).src 3 = none ∧ (streaming 3).draws = [0xABCD]) ∧
    (TickRuns (streaming 4) ∧ (streaming 4).xidx.toNat + 1 = (streaming 4).cfg.visiblePixels + 1 ∧
      (streaming 4).tcIe = true ∧ (streaming 4).tcClrPend = false) := by decide
theorem witness_PendingClearTakesEffectAtADraw :
    (Live (handling .poll true [1]) ∧ TickClear (handling .poll true [1]) ∧ (handling .poll true [1]).xferEn = false ∧
      (handling .poll true [1]).tcClrPend = false) ∧
      TickClear { handling .poll true [1] with tcClrPend := true } := by decide
theorem witness_TickFrame : ∃ t, exec (.tick 1) armed = .next t := ⟨_, rfl⟩
theorem witness_OutputTimelineOfALine :
    Live armed ∧ armed.run = true ∧ armed.arm = .armed ∧ armed.pclkRun = false ∧ armed.xferEn = true ∧ armed.xidx = 0 ∧
      armed.hcnt.toNat + 1 = armed.cfg.triggerOffset ∧ armed.tcFlag = false ∧ armed.tcClrPend = false ∧
      10 ≤ len armed.cfg * armed.cfg.pixelDiv := by decide
theorem witness_FirstLineInterruptAfterStart :
    Live started ∧ OnlyCounting started ∧ started.hcnt = 0 ∧ started.lineIe = true ∧ 20 ≤ started.cfg.hPeriod := by decide
theorem witness_RunWithoutLineInterruptFaults :
    Live { started with lineIe := false } ∧ OnlyCounting { started with lineIe := false } ∧ started.hcnt = 0 ∧
      started.tchActive = false ∧ started.tcPend = false := by decide
/-- The table of CFG-T's lines in 95_test_vectors section 0. -/
theorem witness_RegionsAreTheLineCountsIntervals :
    configOk Config.cfgT = true ∧ 7 < total Config.cfgT ∧
      [0, 2, 3, 4, 5, 6, 7].map (region Config.cfgT) =
        [.visible, .visible, .frontPorch, .frontPorch, .sync, .backPorch, .backPorch] ∧
      InWindow Config.cfgT 3 ∧ ¬InWindow Config.cfgT 4 := by decide
theorem witness_LineInterruptIsTakenAndAcknowledged :
    Live (pending 0) ∧ LEnterEnabled (pending 0) ∧ Live entered ∧ LfsmEnabled .ack entered := by decide
theorem witness_LAdvAdvancesTheLine :
    Live (atStep .adv 7) ∧ LfsmEnabled .adv (atStep .adv 7) ∧ (atStep .adv 7).line.toNat < total (atStep .adv 7).cfg := by
  decide
theorem witness_LSwapFlipsTheDisplayBuffer :
    (Live (atStep .swap 2) ∧ LfsmEnabled .swap (atStep .swap 2) ∧ region Config.cfgT 2 = .visible ∧
      (atStep .swap 2).arm ≠ .streaming) ∧ LfsmEnabled .swap { atStep .swap 0 with arm := .streaming } := by decide
theorem witness_LArmArmsAnIdleEngineInTime :
    (Live { atStep .arm 2 with hcnt := 4 } ∧ LfsmEnabled .arm { atStep .arm 2 with hcnt := 4 } ∧
      region Config.cfgT 2 = .visible ∧ (4 : BitVec 16).toNat < Config.cfgT.triggerOffset) ∧
      LfsmEnabled .arm { atStep .arm 2 with hcnt := 5 } ∧ Config.cfgT.triggerOffset ≤ (5 : BitVec 16).toNat ∧
      LfsmEnabled .arm { atStep .arm 2 with arm := .armed } := by decide
theorem witness_CallbacksAreRequestedAndWaitedFor :
    (Live (atStep .produce 2) ∧ LfsmEnabled .produce (atStep .produce 2) ∧ region Config.cfgT 2 = .visible) ∧
      (LfsmEnabled .input (atStep .input 3) ∧ InWindow Config.cfgT 3) ∧ LfsmEnabled .audio (atStep .audio 7) ∧
      armed.cbreq = some .produce := by decide
theorem witness_LFrameincCountsTheFrame :
    Live (atStep .frameinc 3) ∧ LfsmEnabled .frameinc (atStep .frameinc 3) ∧
      (atStep .frameinc 3).line.toNat = Config.cfgT.vVisible := by decide
theorem witness_VsyncIsToggledAtItsTwoLines :
    Live (atStep .vsyncOn 5) ∧ LfsmEnabled .vsyncOn (atStep .vsyncOn 5) ∧
      (atStep .vsyncOn 5).line.toNat = Config.cfgT.vsyncOnLine ∧ LfsmEnabled .vsyncOff (atStep .vsyncOff 6) ∧
      (atStep .vsyncOff 6).line.toNat = Config.cfgT.vsyncOffLine := by decide
theorem witness_LExitReturnsAndRecords : Live (atStep .exit 4) ∧ LfsmEnabled .exit (atStep .exit 4) := by decide
/-- Line 7 to the visible line 0, and line 2 to the front porch's line 3. -/
theorem witness_WholeLineRunsToItsEnd :
    (Live (pending 7) ∧ LEnterEnabled (pending 7) ∧ (pending 7).cbreq = none ∧
      (pending 7).line.toNat < total (pending 7).cfg ∧ 0 = ((pending 7).line.toNat + 1) % total (pending 7).cfg ∧
      (pending 7).arm = .idle ∧ (pending 7).hcnt.toNat < (pending 7).cfg.triggerOffset) ∧
      (LEnterEnabled (pending 2) ∧ 3 = ((pending 2).line.toNat + 1) % total (pending 2).cfg ∧
        region Config.cfgT 3 ≠ .visible) := by decide
theorem witness_TchStepsWithoutADraw :
    (Live completed ∧ TEnterEnabled completed) ∧ TchEnabled .blank (handling .blank true []) ∧
      TchEnabled .poll (handling .poll true []) ∧ TchEnabled .discard (quiesced .discard) ∧
      TchEnabled .exit (quiesced .exit) := by decide
theorem witness_TClrWritesTheClear :
    (Live (handling .clr true [1]) ∧ TchEnabled .clr (handling .clr true [1]) ∧ (handling .clr true [1]).tcFlag = true ∧
      (handling .clr true [1]).draws = [1]) ∧ (handling .clr false []).tcFlag = false := by decide
theorem witness_TDisReturnsTheEngineToIdle :
    Live (handling .dis false [1]) ∧ TchEnabled .dis (handling .dis false [1]) := by decide
theorem witness_TchFrame :
    Instr.tClr.agent = .tch ∧ ∃ t, exec .tClr (handling .clr true [1]) = .next t := ⟨by decide, ⟨_, rfl⟩⟩
theorem witness_TchRunsToItsCleanState :
    Live { completed with draws := [1, 1] } ∧ TEnterEnabled { completed with draws := [1, 1] } ∧ completed.tcFlag = true ∧
      (1 : BitVec 16).getLsbD 0 = true := by decide
theorem witness_FlagThatNeverClearsLoopsForEver :
    Live (handling .clr true [0, 0, 1]) ∧ TchEnabled .clr (handling .clr true [0, 0, 1]) ∧
      (handling .clr true [0, 0, 1]).tcFlag = true ∧
      (handling .clr true [0, 0, 1]).draws = List.replicate 2 0 ++ [1] := by decide
theorem witness_EveryStepKeepsTheInvariant :
    MachineInv completed ∧ ∃ t, step completed = .next t := ⟨inv_completed, ⟨_, rfl⟩⟩
/-- A whole tick that meets every deadline. -/
theorem witness_DeadlinesMetMeansNoFault :
    MachineInv { started with stream := [0x10000001] } ∧ ({ started with stream := [0x10000001] } : State).fault = 0 ∧
      MeetsDeadlines { started with stream := [0x10000001] } ∧ ∃ t, step { started with stream := [0x10000001] } = .next t := by
  refine ⟨?_, by decide, ?_, ⟨_, rfl⟩⟩
  · obtain ⟨a1, a2, a3, a4, a5, a6, a7, a8, a9, a10, a11⟩ := inv_started
    exact ⟨a1, a2, a3, a4, a5, a6, a7, a8, a9, a10, a11⟩
  · intro i t h
    have hn : nextOp { started with stream := [0x10000001] } = .next (some (.tick 1), started) := rfl
    rw [hn] at h
    cases h
    exact fun _ => by decide
theorem witness_OnlyTheHostsWordsAreRefused : MachineInv completed ∧ CanStep completed := ⟨inv_completed, by decide⟩
/-- One state per fault code, and one step that raises none. -/
theorem witness_FaultsAreRaisedByTheirCauses :
    (∃ t, exec .nop started = .next t) ∧ (∃ t, exec (.tick 1) { armed with hcnt := 19 } = .next t) ∧
      (∃ t, exec .lArm { atStep .arm 1 with hcnt := 5 } = .next t) ∧
      (∃ t, exec .lArm { atStep .arm 1 with arm := .armed } = .next t) ∧
      (∃ t, exec .lSwap { atStep .swap 1 with arm := .streaming } = .next t) ∧
      (∃ t, exec (.tick 1) { completed with hcnt := 4 } = .next t) ∧ ∃ t, exec (.bufw true 0 1) armed = .next t :=
  ⟨⟨_, rfl⟩, ⟨_, rfl⟩, ⟨_, rfl⟩, ⟨_, rfl⟩, ⟨_, rfl⟩, ⟨_, rfl⟩, ⟨_, rfl⟩⟩
theorem witness_EveryFieldHasItsWriters : ∃ t, exec .tEnter completed = .next t := ⟨_, rfl⟩
theorem witness_EngineTransitions :
    (MachineInv armed ∧ ∃ t, exec (.tick 1) armed = .next t) ∧
      MachineInv (handling .dis false []) ∧ ∃ t, exec .tDis (handling .dis false []) = .next t :=
  ⟨⟨inv_armed, ⟨_, rfl⟩⟩, inv_dis, ⟨_, rfl⟩⟩
/-- The end of the SYNC line 5, and of the line 7 after the region. -/
theorem witness_VsyncExactlyInTheSyncRegion :
    configOk Config.cfgT = true ∧
      (MachineInv { atStep .exit 5 with vsync := true } ∧
        (after (step { atStep .exit 5 with vsync := true })).map (fun t => (t.lfsmActive, t.vsync, t.line)) =
          some (false, true, 5)) ∧
      (MachineInv (atStep .exit 7) ∧
        (after (step (atStep .exit 7))).map (fun t => (t.lfsmActive, t.vsync, t.line)) = some (false, false, 7)) :=
  ⟨by decide, ⟨inv_sync, by decide⟩, ⟨inv_backPorch, by decide⟩⟩
theorem witness_TExitLeavesACleanEngine :
    MachineInv (quiesced .exit) ∧ ∃ t, exec .tExit (quiesced .exit) = .next t := ⟨inv_exit, ⟨_, rfl⟩⟩
theorem witness_TrailingCellIsAlwaysBlank :
    (configOk (streaming 0).cfg = true ∧ Memory.wf (streaming 0).cfg (streaming 0).mem) ∧
      ∃ t, exec (.bufw false 3 1) started = .next t := ⟨by decide, ⟨_, rfl⟩⟩
theorem witness_NothingWritesTheDisplayBuffer :
    MachineInv armed ∧ armed.arm ≠ .idle ∧ armed.run = true ∧ 4 ≤ armed.cfg.visiblePixels ∧
      ∃ t, exec (.bufw false 3 1) armed = .next t := ⟨inv_armed, by decide, by decide, by decide, ⟨_, rfl⟩⟩
theorem witness_TickReadsOnlyTheDisplayBuffer :
    MachineInv armed ∧
      ∀ j, j ≤ armed.cfg.visiblePixels → cell { armed with mem := [(0, 7)] } armed.display j = cell armed armed.display j :=
  ⟨inv_armed, by decide⟩

/-- The TCH polling with a clear pending; the next tick's draw makes it take effect. -/
def fairStart : State :=
  { handling .poll true [1, 0] with tcClrPend := true, lfsmActive := false, lpc := none, cbreq := none, stream := [0x10000001]
                                    turns := [.stream] }

/-- The states of the run from `fairStart`: a state that answers no next state stays (none does). -/
def fairRun : Nat → State
  | 0 => fairStart
  | n + 1 => (after (step (fairRun n))).getD (fairRun n)

/-- The run goes on where the machine does. -/
theorem fairRun_succ {n : Nat} {t : State} (h : step (fairRun n) = .next t) : fairRun (n + 1) = t := by
  rw [fairRun, h]; rfl

theorem fairRun_first : ∀ n < 5, step (fairRun n) = .next (fairRun (n + 1))
  | 0, _ => rfl
  | 1, _ => rfl
  | 2, _ => rfl
  | 3, _ => rfl
  | 4, _ => rfl

theorem fairRun_end : step (fairRun 5) = .next (fairRun 5) := rfl

theorem fairRun_rests (n : Nat) : fairRun (n + 5) = fairRun 5 := by
  induction n with
  | zero => rfl
  | succ n ih =>
    have h : step (fairRun (n + 5)) = .next (fairRun 5) := by rw [ih, fairRun_end]
    rw [show n + 1 + 5 = n + 5 + 1 by omega, fairRun_succ h]

theorem fairRun_isRun : IsRun fairRun := fun n => by
  by_cases h : n < 5
  · exact fairRun_first n h
  · obtain ⟨m, rfl⟩ : ∃ m, n = m + 5 := ⟨n - 5, by omega⟩
    rw [show m + 5 + 1 = (m + 1) + 5 by omega, fairRun_rests m, fairRun_rests (m + 1), fairRun_end]

theorem fairRun_clears : ∀ n < 6, (fairRun n).tcClrPend = true → n = 0 := by decide

theorem witness_FairClearClearsTheFlag : IsRun fairRun ∧ FairTcClear fairRun ∧ (fairRun 0).tcClrPend = true := by
  refine ⟨fairRun_isRun, fun n hn => ?_, by decide⟩
  have h0 : n = 0 := by
    by_cases h : n < 6
    · exact fairRun_clears n h hn
    · obtain ⟨m, rfl⟩ : ∃ m, n = m + 5 := ⟨n - 5, by omega⟩
      rw [fairRun_rests] at hn
      exact absurd (fairRun_clears 5 (by omega) hn) (by omega)
  subst h0
  exact ⟨0, by decide, hn, by decide⟩

end Sys2Proof.Tests
end

namespace Sys2Proof.Machine

/-! ### The guard of every operation and of every step (R9, R404) -/

/-- A configuration that is not well formed is refused before anything else is read (R9; log 19). -/
theorem live_badConfig {α : Type} {s : State} (hc : configOk s.cfg ≠ true) (k : Host.Outcome α Fault Refusal) :
    live s k = refuse .badConfig s := by
  rw [live, if_neg hc]

/-- The guard asked twice is the guard. -/
theorem live_live {α : Type} (s : State) (k : Host.Outcome α Fault Refusal) : live s (live s k) = live s k := by
  by_cases hc : configOk s.cfg = true
  · by_cases hf : s.fault = 0
    · rw [live_eq hc hf]
    · simp only [live, if_pos hc, if_neg hf]
  · rw [live_badConfig hc, live_badConfig hc]

/-- Every operation's meaning begins with the guard. -/
theorem exec_eq_live (i : Instr) (s : State) : ∃ k, exec i s = live s k := by
  cases i <;> exact ⟨_, rfl⟩

/-- Every operation runs under the guard. -/
theorem live_exec (i : Instr) (s : State) : live s (exec i s) = exec i s := by
  obtain ⟨k, hk⟩ := exec_eq_live i s
  rw [hk, live_live]

/-- Every step runs under the guard: it stops where the fetch does. -/
theorem live_step (s : State) : live s (step s) = step s := by
  by_cases hc : configOk s.cfg = true
  · by_cases hf : s.fault = 0
    · rw [live_eq hc hf]
    · simp only [step, nextOp, live, if_pos hc, if_neg hf]
  · rw [step, nextOp, live_badConfig hc, live_badConfig hc]; rfl

/-! ### Whose turn it is (R4, R13, R262, R317) -/

/-- A step performs the operation the fetch finds, in the state the fetch leaves. -/
theorem step_of_nextOp {s u : State} {i : Instr} (h : nextOp s = .next (some i, u)) : step s = exec i u := by
  rw [step, h]

section
variable {s u : State} {i : Instr} (hs : Safety.CanStep s)
include hs

/-- With no micro-operation enabled the fetch is the stream's. -/
theorem nextOp_of_sequencerOp_none (hq : sequencerOp s = none) : nextOp s = fetchStream s := by
  obtain ⟨⟨hc, hf⟩, hr⟩ := hs
  rw [nextOp_eq hc hf hr, hq]

/-- With the stream idle the fetch finds the enabled micro-operation. -/
theorem nextOp_of_streamIdle (hq : sequencerOp s = some i) (hb : streamBusy s = false) :
    nextOp s = .next (some i, s) := by
  obtain ⟨⟨hc, hf⟩, hr⟩ := hs
  rw [nextOp_eq hc hf hr, hq, hb]; rfl

/-- Where both may step and the turn is the stream's, the fetch is the stream's. -/
theorem nextOp_of_streamTurn (hq : sequencerOp s ≠ none) (hb : streamBusy s = true)
    (ht : drawTurn s = (.stream, u)) : nextOp s = fetchStream u := by
  obtain ⟨i, hi⟩ := Option.ne_none_iff_exists'.1 hq
  obtain ⟨⟨hc, hf⟩, hr⟩ := hs
  rw [nextOp_eq hc hf hr, hi, hb]
  change chooseOp i s = _
  rw [chooseOp, ht]

/-- Where both may step and the turn is the sequencer's, the fetch finds the enabled micro-operation. -/
theorem nextOp_of_sequencerTurn (hq : sequencerOp s = some i) (hb : streamBusy s = true)
    (ht : drawTurn s = (.sequencer, u)) : nextOp s = .next (some i, u) := by
  obtain ⟨⟨hc, hf⟩, hr⟩ := hs
  rw [nextOp_eq hc hf hr, hq, hb]
  change chooseOp i s = _
  rw [chooseOp, ht]

end

/-- Drawing a turn leaves the ticks to come and the stream as they are. -/
theorem stream_of_drawTurn {s u : State} {t : Turn} (h : drawTurn s = (t, u)) :
    u.ticksLeft = s.ticksLeft ∧ u.stream = s.stream := by
  rw [drawTurn_snd h]
  exact ⟨rfl, rfl⟩

end Sys2Proof.Machine

namespace Sys2Proof.Proofs

open Sys2Proof.Machine Sys2Proof.Safety

/-- Settles O10: a configuration that passes the check meets R9's ten items, and one that fails it meets the guard's first
branch in every step and every operation. -/
theorem illFormedConfigurationIsRefused : Obligations.IllFormedConfigurationIsRefused := by
  intro s hbad
  have hc : configOk s.cfg ≠ true := fun h => by
    obtain ⟨h1, h2, h3, h4, h5, h6, h7, h8, h9, h10, -⟩ := configOk_iff.1 h
    exact hbad ⟨h1, h2, h3, h4, h5, h6, h7, h8, h9, h10⟩
  exact ⟨by rw [← live_step, live_badConfig hc], fun i => by rw [← live_exec, live_badConfig hc]⟩

/-- Settles O5: the four cases of the fetch, and where the turn is the stream's, the two of the stream's own fetch. -/
theorem stepRunsTheOperationWhoseTurnItIs : Obligations.StepRunsTheOperationWhoseTurnItIs := by
  refine ⟨fun s u hs hturn => ?stream, fun s i hs hi => ⟨fun hb => ?idle, fun u hb ht => ?sequencer⟩⟩
  case stream =>
    obtain ⟨hfetch, hticks, hstream⟩ :
        nextOp s = fetchStream u ∧ u.ticksLeft = s.ticksLeft ∧ u.stream = s.stream := by
      rcases hturn with ⟨hq, rfl⟩ | ⟨hq, hb, ht⟩
      · exact ⟨nextOp_of_sequencerOp_none hs hq, rfl, rfl⟩
      · exact ⟨nextOp_of_streamTurn hs hq hb ht, stream_of_drawTurn ht⟩
    rw [← hticks, ← hstream]
    constructor
    · intro hn
      exact step_of_nextOp (hfetch.trans (fetchStream_tick hn))
    · intro w rest i h0 hw hd hclass
      exact step_of_nextOp (hfetch.trans (fetchStream_word h0 hw hd hclass))
  case idle => exact step_of_nextOp (nextOp_of_streamIdle hs hi hb)
  case sequencer => exact step_of_nextOp (nextOp_of_sequencerTurn hs hi hb ht)

end Sys2Proof.Proofs

namespace Sys2Proof.Machine

open Safety

/-! ### The lines of a frame (R260, R261, R265) -/

/-- The SYNC region begins at the line where vertical sync is asserted (R260). -/
theorem region_vsyncOnLine {c : Config} (hc : configOk c = true) : region c c.vsyncOnLine = .sync := by
  obtain ⟨-, -, -, -, -, -, ⟨_, _, _, _, _⟩, ⟨_, _⟩, -, -, -⟩ := configOk_iff.1 hc
  rw [region, if_neg (by omega), if_neg (by omega), if_pos (by omega)]

/-- The back porch begins at the line where vertical sync is deasserted (R260). -/
theorem region_vsyncOffLine {c : Config} (hc : configOk c = true) : region c c.vsyncOffLine = .backPorch := by
  obtain ⟨-, -, -, -, -, -, ⟨_, _, _, _, _⟩, ⟨_, _⟩, -, -, -⟩ := configOk_iff.1 hc
  rw [region, if_neg (by omega), if_neg (by omega), if_neg (by omega)]

/-- The line after a line of the frame is a line of the frame (R265). -/
theorem lineAfter_lt {c : Config} {l : Nat} (hl : l < total c) : lineAfter c l < total c := by
  unfold lineAfter
  split <;> omega

/-- From a line to the one after it the SYNC region is entered and left at the two vertical-sync lines only (R260, R265). -/
theorem region_lineAfter {c : Config} (hc : configOk c = true) (l : Nat) :
    if lineAfter c l = c.vsyncOnLine then region c l ≠ .sync
    else if lineAfter c l = c.vsyncOffLine then region c l = .sync
    else (region c l = .sync ↔ region c (lineAfter c l) = .sync) := by
  obtain ⟨-, -, -, -, -, -, ⟨_, _, _, _, _⟩, ⟨_, _⟩, -, -, -⟩ := configOk_iff.1 hc
  grind [lineAfter, region, total]

/-- A line's first step is one of its list, and is a vertical-sync step exactly on the two lines that bound the SYNC region. -/
theorem head_lineSteps {c : Config} (hc : configOk c = true) (l : Nat) :
    ∃ y, (lineSteps c l).head? = some y ∧ y ∈ lineSteps c l ∧ y ≠ .ack ∧ y ≠ .adv ∧ y ≠ .arm ∧
      (y = .vsyncOn ↔ l = c.vsyncOnLine) ∧ (y = .vsyncOff ↔ l = c.vsyncOffLine) := by
  obtain ⟨-, -, -, -, -, -, ⟨_, _, _, _, _⟩, ⟨_, _⟩, ⟨_, _, _⟩, -, -⟩ := configOk_iff.1 hc
  rcases Nat.lt_or_ge l c.vVisible with hl | hl
  · rw [lineSteps_visible hc hl]
    exact ⟨.swap, rfl, by simp; omega⟩
  · rcases lineSteps_blanking hc hl with ⟨h, hl'⟩ | ⟨h, hl'⟩ | ⟨h, hl'⟩ | ⟨h, hl'⟩ | ⟨h, hl'⟩ | ⟨h, hl'⟩ <;>
      rw [h] <;> exact ⟨_, rfl, by simp; omega⟩

theorem performs_audio (s : State) : Performs .audio s := by simp [Performs, lineSteps]

theorem performs_exit (s : State) : Performs .exit s := by simp [Performs, lineSteps]

theorem performs_vsyncOn_iff {s : State} : Performs .vsyncOn s ↔ s.line.toNat = s.cfg.vsyncOnLine := by
  simp [Performs, lineSteps]

theorem performs_vsyncOff_iff {s : State} : Performs .vsyncOff s ↔ s.line.toNat = s.cfg.vsyncOffLine := by
  simp [Performs, lineSteps]

/-- An enabled micro-operation of the LFSM finds no callback out (R262). -/
theorem cbreq_of_lfsmEnabled {x : LStep} {s : State} (he : LfsmEnabled x s) : s.cbreq = none := by
  obtain ⟨-, -, hcb, -⟩ := he
  exact hcb

/-! ### The invariant through each update of the state

One lemma per update, each with the conditions under which an operation makes it. `{ hs with … }` keeps the parts of the
invariant that read none of the fields written; the parts named are those that do. -/

/-- The invariant reads neither the diagnostics, the fault record, the refusal mark, the frame counter nor the model's own
fields: a state that differs in these only meets it too. -/
theorem inv_of_unread {s t : State} (hs : MachineInv s)
    (h : t = { s with
      frame := t.frame, fault := t.fault, refused := t.refused, maxline := t.maxline, lineTicks := t.lineTicks
      stream := t.stream, ticksLeft := t.ticksLeft, turns := t.turns, draws := t.draws, drawn := t.drawn
      replies := t.replies }) : MachineInv t := by
  rw [h]
  exact { hs with }

section
variable {s : State} (hs : MachineInv s)
include hs

/-! #### Host writes -/

theorem inv_wrctrl (hr : s.run = false) (lineIe tcIe run : Bool) :
    MachineInv { s with lineIe := lineIe, tcIe := tcIe, run := run } := by
  obtain ⟨-, harm, hlfsm, htch, -, hlinePend, htcFlag, htcPend⟩ := hs.stopped hr
  exact { hs with
    stopped := fun _ => hs.stopped hr
    lineIrq := by grind
    tcIrq := by grind [hs.tcIrq]
    tch := by grind [hs.tch] }

theorem inv_memWrite {b : Bool} {i : Nat} {v : Pixel} (hi : i < s.cfg.visiblePixels)
    (hv : v.toNat < 2 ^ s.cfg.pixelBits) : MachineInv (memWrite b i v s) := by
  obtain ⟨-, -, -, -, ⟨-, hlen⟩, -⟩ := configOk_iff.1 hs.config
  exact { hs with memory := memWrite_wf hs.memory hi hlen hv }

theorem inv_cbret : MachineInv { s with cbreq := none } :=
  { hs with callback := ⟨nofun, nofun, nofun⟩ }

/-! #### The sub-steps of a tick -/

/-- The counter takes a value of its range that an armed engine's trigger point has not reached. -/
theorem inv_hcnt {h : Nat} (hr : s.run = true) (hh : h < s.cfg.hPeriod)
    (harm : s.arm = .armed → h < s.cfg.triggerOffset) : MachineInv { s with hcnt := BitVec.ofNat 16 h } := by
  obtain ⟨⟨-, hperiod⟩, -⟩ := configOk_iff.1 hs.config
  have hn : (BitVec.ofNat 16 h).toNat = h := Nat.mod_eq_of_lt (by omega)
  exact { hs with
    range := by grind [hs.range]
    stopped := by grind
    engine := by grind [hs.engine] }

/-- The period interrupt is latched while the LFSM rests and the engine is not armed. -/
theorem inv_latchLine (hr : s.run = true) (hl : s.lfsmActive = false) (harm : s.arm ≠ .armed) :
    MachineInv (latchLine s) :=
  { hs with
    stopped := by grind [latchLine]
    lineIrq := by grind [hs.lineIrq, latchLine]
    engine := by grind [hs.engine, latchLine] }

theorem inv_pdiv {p : Nat} (hclk : s.pclkRun = true) (hp : p < s.cfg.pixelDiv) : MachineInv { s with pdiv := p } :=
  { hs with
    range := by grind [hs.range]
    engine := by grind [hs.engine] }

/-- A read of a cell gives a pixel value (R100, R104). -/
theorem memRead_lt (b : Bool) (i : Nat) : (memRead b i s).1.toNat < 2 ^ s.cfg.pixelBits := by
  obtain ⟨-, -, -, -, -, -, -, -, -, ⟨-, hbits, hblank⟩, -⟩ := configOk_iff.1 hs.config
  cases h : cell s b i with
  | none => rw [memRead_none h]; exact drawPixel_lt s hbits
  | some v => rw [memRead_some h]; exact cell_lt hs.memory hblank h

/-- The transfer moves one cell; the last it moves is the trailing one, which leaves the port black (R103, R235). -/
theorem inv_movePixel (hclk : s.pclkRun = true) (hx : s.xferEn = true) : MachineInv (movePixel s) := by
  obtain ⟨-, -, -, -, ⟨-, hlen⟩, -⟩ := configOk_iff.1 hs.config
  obtain ⟨hpclk, hxfer, -⟩ := hs.engine
  have harm : s.arm = .streaming := hpclk.1 hclk
  obtain ⟨-, hlt⟩ := hxfer hx
  have hnext : (s.xidx + 1).toNat = s.xidx.toNat + 1 := BitVec.toNat_add_of_lt (by simp; omega)
  have hflag : s.tcFlag = false := by grind [hs.tcIrq]
  have hpixel := memRead_lt hs s.src s.xidx.toNat
  have hlast : (s.xidx + 1).toNat = len s.cfg → (memRead s.src s.xidx.toNat s).1 = s.cfg.blankValue := by
    intro h
    have hi : s.xidx.toNat = s.cfg.visiblePixels := by grind [len]
    rw [hi, memRead_some (cell_trailing hs.memory hlen s.src)]
  rw [movePixel_eq]
  exact { hs with
    range := by grind [hs.range]
    stopped := by grind [hs.stopped]
    engine := by grind [hs.engine]
    tcIrq := by grind [hs.tcIrq]
    tch := by grind [hs.tch] }

theorem inv_pseClock {t : State} (h : pseClock s = .next t) : MachineInv t := by
  obtain ⟨-, -, -, hdiv, -⟩ := configOk_iff.1 hs.config
  rcases pseClock_cases h with ⟨-, rfl⟩ | ⟨hclk, hp, rfl⟩ | ⟨hclk, -, -, rfl⟩ | ⟨hclk, -, hx, -, rfl⟩
  · exact hs
  · exact inv_pdiv hs hclk hp
  · exact inv_pdiv hs hclk hdiv
  · exact inv_movePixel (inv_pdiv hs hclk hdiv) hclk hx

/-- An armed engine starts to stream as the counter reaches a new value, its trigger point (R232). -/
theorem inv_startStreaming {h : Nat} (hh : h < s.cfg.hPeriod) (harm : s.arm = .armed) :
    MachineInv (startStreaming { s with hcnt := BitVec.ofNat 16 h }) := by
  obtain ⟨⟨-, hperiod⟩, -, -, hdiv, -⟩ := configOk_iff.1 hs.config
  have hn : (BitVec.ofNat 16 h).toNat = h := Nat.mod_eq_of_lt (by omega)
  exact { hs with
    range := by grind [hs.range, startStreaming]
    stopped := by grind [hs.stopped, startStreaming]
    engine := by grind [hs.engine, startStreaming]
    tcIrq := by grind [hs.engine, hs.tcIrq, startStreaming]
    tch := by grind [hs.tch, startStreaming] }

theorem inv_tickEnd : MachineInv (tickEnd s) := by
  have hflags := tickEnd_flags s
  rw [tickEnd_only]
  exact { hs with
    stopped := by grind [hs.stopped]
    tcIrq := by grind [hs.tcIrq, hs.pointers]
    tch := by grind [hs.tch] }

/-! #### The LFSM's micro-operations -/

theorem inv_lEnter (he : LEnterEnabled s) : MachineInv { takeInterrupt .line s with lineTicks := 0 } := by
  have hlpc : s.lpc = none := by grind [hs.pointers]
  have harm : s.arm ≠ .armed := by grind [hs.engine]
  exact { hs with
    stopped := by grind [hs.stopped, takeInterrupt]
    pointers := by grind [hs.pointers, takeInterrupt]
    callback := by grind [hs.callback, takeInterrupt]
    lineIrq := by grind [hs.lineIrq, takeInterrupt]
    engine := by grind [hs.engine, takeInterrupt]
    vsync := by grind [hs.vsync, takeInterrupt] }

theorem inv_lAck (he : LfsmEnabled .ack s) :
    MachineInv { ackLine s with out := s.cfg.blankValue, lpc := some .adv } := by
  obtain ⟨-, -, -, -, -, -, -, -, -, ⟨-, -, hblank⟩, -⟩ := configOk_iff.1 hs.config
  have harm : s.arm ≠ .armed := by grind [hs.engine]
  exact { hs with
    range := by grind [hs.range, ackLine]
    stopped := by grind [hs.stopped, ackLine]
    pointers := by grind [hs.pointers, ackLine]
    callback := by grind [hs.callback, ackLine]
    lineIrq := by grind [hs.lineIrq, ackLine]
    engine := by grind [hs.engine, ackLine]
    tch := by grind [hs.tch, ackLine]
    vsync := by grind [hs.vsync, ackLine] }

theorem inv_lAdv (he : LfsmEnabled .adv s) :
    MachineInv { s with
      line := BitVec.ofNat 16 (lineAfter s.cfg s.line.toNat)
      lpc := (lineSteps s.cfg (lineAfter s.cfg s.line.toNat)).head? } := by
  obtain ⟨-, -, -, -, -, -, ⟨-, -, -, -, htotal⟩, -, -, -, -⟩ := configOk_iff.1 hs.config
  obtain ⟨-, hl, -⟩ := hs.range
  have hlt : lineAfter s.cfg s.line.toNat < total s.cfg := lineAfter_lt hl
  have hline : (BitVec.ofNat 16 (lineAfter s.cfg s.line.toNat)).toNat = lineAfter s.cfg s.line.toNat :=
    Nat.mod_eq_of_lt (by omega)
  have hregion := region_lineAfter hs.config s.line.toNat
  obtain ⟨y, hy, hmem, hack, hadv, harm, hon, hoff⟩ := head_lineSteps hs.config (lineAfter s.cfg s.line.toNat)
  rw [hy]
  exact { hs with
    range := by grind [hs.range]
    pointers := by grind [hs.pointers]
    callback := by grind
    lineIrq := by grind [hs.lineIrq]
    engine := by grind [hs.engine]
    vsync := by grind [hs.vsync] }

theorem inv_lSwap (he : LfsmEnabled .swap s) (hp : Performs .swap s) (harm : s.arm ≠ .streaming) :
    MachineInv { s with display := !s.display, lpc := some .arm } := by
  have harmed : s.arm ≠ .armed := by grind [hs.engine]
  have hidle : s.arm = .idle := by cases h : s.arm <;> simp_all
  have hp' : Performs .arm s := by
    simp [Performs, lineSteps_visible hs.config (visible_of_performs hs.config hp (.inl rfl))]
  exact { hs with
    pointers := by grind [hs.pointers]
    callback := by grind [hs.callback]
    lineIrq := by grind [hs.lineIrq]
    engine := by grind [hs.engine]
    vsync := by grind [hs.vsync] }

theorem inv_lArm (he : LfsmEnabled .arm s) (hp : Performs .arm s) (harm : s.arm = .idle)
    (hh : s.hcnt.toNat < s.cfg.triggerOffset) :
    MachineInv { s with
      src := s.display, xidx := 0, xferEn := true, pdiv := 0, arm := .armed, lpc := some .produce } := by
  have htpc : s.tpc = none := by grind [hs.pointers]
  have hflag : s.tcFlag = false := by grind [hs.tcIrq]
  have hp' : Performs .produce s := by
    simp [Performs, lineSteps_visible hs.config (visible_of_performs hs.config hp (.inr (.inl rfl)))]
  exact { hs with
    range := by grind [hs.range, len]
    stopped := by grind [hs.stopped]
    pointers := by grind [hs.pointers]
    callback := by grind [hs.callback]
    lineIrq := by grind [hs.lineIrq]
    engine := by grind [hs.engine, hs.lineIrq, len]
    tcIrq := by grind [hs.tcIrq]
    tch := by grind [hs.tch]
    vsync := by grind [hs.vsync] }

/-- Away from the two vertical-sync steps the level is that of the line's region (R277). -/
theorem vsync_iff_of_lfsmEnabled {x : LStep} (he : LfsmEnabled x s) (hon : x ≠ .vsyncOn) (hoff : x ≠ .vsyncOff) :
    s.vsync = true ↔ region s.cfg s.line.toNat = .sync := by
  grind [hs.vsync]

/-- The LFSM goes on to a step `y` past the engine's and the vertical-sync steps, with the callback `o` and the level `v` that
fit there. -/
theorem inv_goOn {x y : LStep} (he : LfsmEnabled x s) (hx : x ≠ .ack) {n : Option LStep} (hn : n = some y)
    (hp : Performs y s) (hy : y = .input ∨ y = .audio ∨ y = .exit) {o : Option Callback} {v : Bool}
    (ho : o = none ∨ (o = some .produce ∨ o = some .input) ∧ y = .audio ∨ o = some .audio ∧ y = .exit)
    (hv : v = true ↔ region s.cfg s.line.toNat = .sync) :
    MachineInv { s with cbreq := o, vsync := v, lpc := n } :=
  { hs with
    pointers := by grind [hs.pointers]
    callback := by grind
    lineIrq := by grind [hs.lineIrq]
    engine := by grind [hs.engine]
    vsync := by grind }

theorem inv_lExit (he : LfsmEnabled .exit s) : MachineInv (returnInterrupt .line s) :=
  { hs with
    stopped := by grind [hs.stopped, returnInterrupt]
    pointers := by grind [hs.pointers, returnInterrupt]
    callback := by grind [returnInterrupt]
    lineIrq := by grind [hs.lineIrq, returnInterrupt]
    engine := by grind [hs.engine, returnInterrupt]
    vsync := by grind [hs.vsync, returnInterrupt] }

/-! #### The TCH's micro-operations -/

theorem inv_tEnter (he : TEnterEnabled s) : MachineInv (takeInterrupt .tc s) := by
  have htpc : s.tpc = none := by grind [hs.pointers]
  exact { hs with
    stopped := by grind [hs.stopped, takeInterrupt]
    pointers := by grind [hs.pointers, takeInterrupt]
    tcIrq := by grind [hs.tcIrq, takeInterrupt]
    tch := by grind [hs.tcIrq, takeInterrupt] }

theorem inv_tBlank (he : TchEnabled .blank s) : MachineInv { s with out := s.cfg.blankValue, tpc := some .clr } := by
  obtain ⟨-, -, -, -, -, -, -, -, -, ⟨-, -, hblank⟩, -⟩ := configOk_iff.1 hs.config
  exact { hs with
    range := by grind [hs.range]
    pointers := by grind [hs.pointers]
    engine := by grind [hs.engine]
    tcIrq := by grind [hs.tcIrq]
    tch := by grind [hs.tch] }

theorem inv_tClr (he : TchEnabled .clr s) : MachineInv { writeTcClear s with tpc := some .poll } := by
  rw [writeTcClear_eq]
  exact { hs with
    stopped := by grind [hs.stopped]
    pointers := by grind [hs.pointers]
    tcIrq := by grind [hs.tcIrq]
    tch := by grind [hs.tch] }

theorem inv_tPoll (he : TchEnabled .poll s) : MachineInv { s with tpc := some (if s.tcFlag then .clr else .dis) } :=
  { hs with
    pointers := by grind [hs.pointers]
    tcIrq := by grind [hs.tcIrq]
    tch := by grind [hs.tch] }

theorem inv_tDis (he : TchEnabled .dis s) : MachineInv { spuriousTc (disableEngine s) with tpc := some .discard } := by
  rw [spuriousTc_eq]
  exact { hs with
    range := by grind [hs.range, disableEngine]
    stopped := by grind [hs.stopped, disableEngine]
    pointers := by grind [hs.pointers, disableEngine]
    engine := by grind [hs.engine, disableEngine]
    tcIrq := by grind [hs.tcIrq, hs.tch, disableEngine]
    tch := by grind [hs.tch, hs.engine, disableEngine] }

theorem inv_tDiscard (he : TchEnabled .discard s) : MachineInv { s with tcPend := false, tpc := some .exit } :=
  { hs with
    stopped := by grind [hs.stopped]
    pointers := by grind [hs.pointers]
    tcIrq := by grind [hs.tcIrq]
    tch := by grind [hs.tch] }

theorem inv_tExit (he : TchEnabled .exit s) : MachineInv (returnInterrupt .tc s) :=
  { hs with
    stopped := by grind [hs.stopped, returnInterrupt]
    pointers := by grind [hs.pointers, returnInterrupt]
    tcIrq := by grind [hs.tcIrq, hs.tch, returnInterrupt]
    tch := by grind [hs.tch, returnInterrupt] }

end

/-! ### The invariant through each operation, and through a step -/

section
variable {s t : State} (hs : MachineInv s)
include hs

/-- A tick at an armed engine's trigger point starts it; before that point, and in any other engine state, the count, the
pixel clock and the tick's end keep the invariant one after the other (R200). -/
theorem inv_tickRunning (hr : s.run = true) (h : tickRunning s = .next t) : MachineInv t := by
  obtain ⟨⟨hperiod, -⟩, -, ⟨htrig, htrig'⟩, -⟩ := configOk_iff.1 hs.config
  have hlt : nextHcnt s < s.cfg.hPeriod := Nat.mod_lt _ (by omega)
  rcases tickRunning_cases h with ⟨-, -, rfl⟩ | ⟨u, v, hu, hmiss, hv, ht⟩
  · exact inv_of_unread (inv_hcnt hs hr (h := 0) (by omega) (fun _ => htrig)) rfl
  by_cases harm : s.arm = .armed ∧ nextHcnt s = s.cfg.triggerOffset
  case pos =>
    obtain ⟨harm, hn⟩ := harm
    rw [if_neg (by omega)] at hu
    have hvu : v = u := by grind [pseClock_cases hv, hs.engine]
    have ht : t = tickEnd (startStreaming { s with hcnt := BitVec.ofNat 16 (nextHcnt s) }) := by grind
    rw [ht]
    exact inv_tickEnd (inv_startStreaming hs hlt harm)
  case neg =>
    have hcount : s.arm = .armed → nextHcnt s = s.hcnt.toNat + 1 ∧ nextHcnt s < s.cfg.triggerOffset := by
      intro ha
      have hbefore : s.hcnt.toNat < s.cfg.triggerOffset := by grind [hs.engine]
      have hn : nextHcnt s = s.hcnt.toNat + 1 := Nat.mod_eq_of_lt (by omega)
      grind
    have hu' : MachineInv u := by
      have hc := inv_hcnt hs hr hlt fun ha => (hcount ha).2
      rw [hu]
      split
      · exact inv_latchLine hc hr (by grind) (by grind)
      · exact hc
    have hv' : MachineInv v := inv_pseClock hu' hv
    rcases ht with ⟨-, rfl⟩ | ⟨-, -, rfl⟩ | ⟨hn, ha, -⟩ | ⟨-, -, rfl⟩
    · exact inv_tickEnd hv'
    · exact inv_tickEnd hv'
    · exact absurd ⟨ha, hn⟩ harm
    · exact inv_of_unread hv' rfl

theorem inv_tick1 (h : tick1 s = .next t) : MachineInv t := by
  unfold tick1 at h
  split at h
  · exact inv_tickRunning hs ‹_› h
  · cases h; exact hs

theorem inv_execTick {n : BitVec 16} (h : execTick n s = .next t) : MachineInv t := by
  obtain ⟨-, h⟩ := live_next_iff.1 h
  split at h
  · cases h
  · obtain ⟨u, hu, rfl⟩ := mapState_next_iff.1 h
    exact inv_of_unread (inv_tick1 hs hu) rfl

/-- A host operation keeps the invariant (44_host). -/
theorem inv_hostOp {i : Instr} (hi : i.agent = .host) (h : exec i s = .next t) : MachineInv t := by
  cases i <;> cases hi <;> obtain ⟨-, h⟩ := live_next_iff.1 h
  case nop => cases h; exact hs
  case wrctrl d =>
    split at h
    · cases h
    split at h
    · cases h
    · cases h; exact inv_wrctrl hs (by simp_all) _ _ _
  case rdreg r => cases h; exact inv_of_unread hs rfl
  case bufw b j v =>
    split at h
    · cases h
    split at h
    · cases h
    split at h <;> cases h
    · exact inv_of_unread hs rfl
    · exact inv_memWrite hs (by omega) (by omega)
  case bufr b j =>
    split at h <;> cases h
    refine inv_of_unread hs ?_
    rw [memRead_only]
    rfl
  case cbret k =>
    split at h <;> cases h
    exact inv_cbret hs

/-- A micro-operation of the LFSM keeps the invariant (42_lfsm). -/
theorem inv_lfsmOp {i : Instr} (hi : i.agent = .lfsm) (h : exec i s = .next t) : MachineInv t := by
  have hc := hs.config
  cases i <;> cases hi
  case lEnter =>
    obtain ⟨-, h⟩ := live_next_iff.1 h
    split at h <;> cases h
    exact inv_lEnter hs ‹_›
  case lAck => obtain ⟨-, he, -, ⟨⟩⟩ := lfsmOp_next_iff.1 h; exact inv_lAck hs he
  case lAdv => obtain ⟨-, he, -, ⟨⟩⟩ := lfsmOp_next_iff.1 h; exact inv_lAdv hs he
  case lSwap =>
    obtain ⟨-, he, hp, h⟩ := lfsmOp_next_iff.1 h
    split at h <;> cases h
    · exact inv_of_unread hs rfl
    · exact inv_lSwap hs he hp ‹_›
  case lArm =>
    obtain ⟨-, he, hp, h⟩ := lfsmOp_next_iff.1 h
    split at h
    · cases h; exact inv_of_unread hs rfl
    split at h <;> cases h
    · exact inv_of_unread hs rfl
    · exact inv_lArm hs he hp (by simp_all) (by omega)
  case lProduce =>
    obtain ⟨-, he, hp, ⟨⟩⟩ := lfsmOp_next_iff.1 h
    have hv := vsync_iff_of_lfsmEnabled hs he nofun nofun
    exact inv_goOn hs he nofun (nextLStep_produce hc hp) (performs_audio s) (by simp) (by simp) hv
  case lInput =>
    obtain ⟨-, he, hp, ⟨⟩⟩ := lfsmOp_next_iff.1 h
    have hv := vsync_iff_of_lfsmEnabled hs he nofun nofun
    exact inv_goOn hs he nofun (nextLStep_input hc hp) (performs_audio s) (by simp) (by simp) hv
  case lFrameinc =>
    obtain ⟨-, he, hp, ⟨⟩⟩ := lfsmOp_next_iff.1 h
    have hn := nextLStep_frameinc hc hp
    have hv := vsync_iff_of_lfsmEnabled hs he nofun nofun
    have hs' : MachineInv { s with frame := s.frame + 1 } := inv_of_unread hs rfl
    exact inv_goOn hs' he nofun hn (.inr (.inr (stepAfter_mem hn))) (by split <;> simp)
      (.inl (cbreq_of_lfsmEnabled he)) hv
  case lVsyncOn =>
    obtain ⟨-, he, hp, ⟨⟩⟩ := lfsmOp_next_iff.1 h
    exact inv_goOn hs he nofun (nextLStep_vsyncOn hc hp) (performs_audio s) (by simp)
      (.inl (cbreq_of_lfsmEnabled he)) (by simp [performs_vsyncOn_iff.1 hp, region_vsyncOnLine hc])
  case lVsyncOff =>
    obtain ⟨-, he, hp, ⟨⟩⟩ := lfsmOp_next_iff.1 h
    exact inv_goOn hs he nofun (nextLStep_vsyncOff hc hp) (performs_audio s) (by simp)
      (.inl (cbreq_of_lfsmEnabled he)) (by simp [performs_vsyncOff_iff.1 hp, region_vsyncOffLine hc])
  case lAudio =>
    obtain ⟨-, he, -, ⟨⟩⟩ := lfsmOp_next_iff.1 h
    have hv := vsync_iff_of_lfsmEnabled hs he nofun nofun
    exact inv_goOn hs he nofun rfl (performs_exit s) (by simp) (by simp) hv
  case lExit =>
    obtain ⟨-, he, -, ⟨⟩⟩ := lfsmOp_next_iff.1 h
    refine inv_of_unread (inv_lExit hs he) ?_
    unfold recordLine
    split <;> rfl

/-- A micro-operation of the TCH keeps the invariant (43_tch). -/
theorem inv_tchOp {i : Instr} (hi : i.agent = .tch) (h : exec i s = .next t) : MachineInv t := by
  cases i <;> cases hi
  case tEnter =>
    obtain ⟨-, h⟩ := live_next_iff.1 h
    split at h <;> cases h
    exact inv_tEnter hs ‹_›
  case tBlank => obtain ⟨-, he, ⟨⟩⟩ := tchOp_next_iff.1 h; exact inv_tBlank hs he
  case tClr => obtain ⟨-, he, ⟨⟩⟩ := tchOp_next_iff.1 h; exact inv_tClr hs he
  case tPoll => obtain ⟨-, he, ⟨⟩⟩ := tchOp_next_iff.1 h; exact inv_tPoll hs he
  case tDis => obtain ⟨-, he, ⟨⟩⟩ := tchOp_next_iff.1 h; exact inv_tDis hs he
  case tDiscard => obtain ⟨-, he, ⟨⟩⟩ := tchOp_next_iff.1 h; exact inv_tDiscard hs he
  case tExit => obtain ⟨-, he, ⟨⟩⟩ := tchOp_next_iff.1 h; exact inv_tExit hs he

/-- Every operation keeps the invariant. -/
theorem inv_exec {i : Instr} (h : exec i s = .next t) : MachineInv t := by
  cases hi : i.agent with
  | host => exact inv_hostOp hs hi h
  | lfsm => exact inv_lfsmOp hs hi h
  | tch => exact inv_tchOp hs hi h
  | hw => cases i <;> cases hi; exact inv_execTick hs h

/-- The fetch keeps the invariant. -/
theorem inv_nextOp {o : Option Instr} (h : nextOp s = .next (o, t)) : MachineInv t := by
  obtain ⟨-, ht, -⟩ := nextOp_cases h
  exact inv_of_unread hs (by rw [ht])

end

/-- The state after reset meets the invariant in every well-formed configuration (R78, R102). -/
theorem inv_resetWith {c : Config} (hc : configOk c = true) : MachineInv (State.resetWith c) := by
  obtain ⟨⟨hperiod, -⟩, -, -, hdiv, -, -, ⟨hvis, -⟩, ⟨hon, -⟩, -, ⟨-, -, hblank⟩, -⟩ := configOk_iff.1 hc
  exact {
    config := hc
    range := by grind [State.resetWith, total]
    memory := resetWith_wf c
    stopped := by grind [State.resetWith]
    pointers := by grind [State.resetWith]
    callback := by grind [State.resetWith]
    lineIrq := by grind [State.resetWith]
    engine := by grind [State.resetWith]
    tcIrq := by grind [State.resetWith]
    tch := by grind [State.resetWith]
    vsync := by grind [State.resetWith, region] }

end Sys2Proof.Machine

namespace Sys2Proof.Proofs

open Sys2Proof.Machine Sys2Proof.Safety

/-- Settles O48: the fetch keeps the invariant, and so does the operation it finds. -/
theorem everyStepKeepsTheInvariant : Obligations.EveryStepKeepsTheInvariant := by
  intro s t hs h
  rcases step_next_iff.1 h with ⟨i, u, hn, hu⟩ | hn
  · exact inv_exec (inv_nextOp hs hn) hu
  · exact inv_nextOp hs hn

/-- Settles O12: the invariant's parts at the reset values, for any well-formed configuration and so for CFG-T. -/
theorem invariantHoldsAtReset : Obligations.InvariantHoldsAtReset :=
  ⟨inv_resetWith (by decide), fun _ hc => inv_resetWith hc⟩

/-- Settles O11: the fields of the reset state, and its memory, in which no cell is listed. -/
theorem resetHoldsTheTableValues : Obligations.ResetHoldsTheTableValues := by
  rintro c s rfl
  have hcell : ∀ b i, cell (State.resetWith c) b i = unlistedCell c i := fun _ _ => rfl
  have hundef : ∀ b i, i < c.visiblePixels → cell (State.resetWith c) b i = none := fun b i hi => by
    rw [hcell, unlistedCell, if_neg (by omega)]
  have htrailing : ∀ b, cell (State.resetWith c) b c.visiblePixels = some c.blankValue := fun b => by
    rw [hcell, unlistedCell, if_pos rfl]
  exact ⟨⟨rfl, rfl, rfl⟩, rfl, rfl, rfl, rfl, rfl, rfl, ⟨rfl, rfl, rfl, rfl, rfl⟩, rfl, ⟨rfl, rfl⟩, ⟨rfl, rfl⟩, ⟨rfl, rfl⟩,
    ⟨rfl, rfl, rfl⟩, rfl, ⟨rfl, rfl⟩, ⟨rfl, rfl⟩, hundef, htrailing⟩

/-- Settles O16: each output is the boolean form of what the spec says of it; equality of two levels is their XNOR. -/
theorem derivedOutputsOfTheState : Obligations.DerivedOutputsOfTheState := by
  intro s
  have hxnor : ∀ a b : Bool, (a == b) = true ↔ (a = true ↔ b = true) := by decide
  refine ⟨?hsync, hxnor _ _, rfl, hxnor _ _, ?draw, rfl⟩
  case hsync => simp [hsyncAsserted]
  case draw => cases h : s.display <;> simp [drawBuffer, h]

end Sys2Proof.Proofs

namespace Sys2Proof.Machine

/-! ### What each operation may write (R43 to R72)

`written i s w` is the state `s` with the fields `i` may write taken from `w`. -/

/-- The fields a tick writes (R200 to R207, R232 to R238). -/
def tickWritten (s w : State) : State :=
  { s with
    hcnt := w.hcnt, arm := w.arm, xidx := w.xidx, xferEn := w.xferEn, pclkRun := w.pclkRun, pdiv := w.pdiv, out := w.out
    lineFlag := w.lineFlag, linePend := w.linePend, tcFlag := w.tcFlag, tcPend := w.tcPend, tcClrPend := w.tcClrPend
    fault := w.fault, lineTicks := w.lineTicks, ticksLeft := w.ticksLeft, draws := w.draws, drawn := w.drawn }

/-- The fields each operation may write, taken from `w`; every other field is that of `s`. -/
def written (i : Instr) (s w : State) : State :=
  match i with
  | .nop => s
  | .tick _ => tickWritten s w
  | .wrctrl _ => { s with run := w.run, lineIe := w.lineIe, tcIe := w.tcIe }
  | .rdreg _ => { s with replies := w.replies }
  | .bufw _ _ _ => { s with mem := w.mem, fault := w.fault }
  | .bufr _ _ => { s with draws := w.draws, drawn := w.drawn, replies := w.replies }
  | .cbret _ => { s with cbreq := w.cbreq }
  | .lEnter => { s with lfsmActive := w.lfsmActive, lpc := w.lpc, linePend := w.linePend, lineTicks := w.lineTicks }
  | .lAck => { s with lpc := w.lpc, lineFlag := w.lineFlag, out := w.out }
  | .lAdv => { s with lpc := w.lpc, line := w.line }
  | .lSwap => { s with lpc := w.lpc, display := w.display, fault := w.fault }
  | .lArm =>
    { s with
      lpc := w.lpc, src := w.src, xidx := w.xidx, xferEn := w.xferEn, pdiv := w.pdiv, arm := w.arm, fault := w.fault }
  | .lProduce | .lInput | .lAudio => { s with lpc := w.lpc, cbreq := w.cbreq }
  | .lFrameinc => { s with lpc := w.lpc, frame := w.frame }
  | .lVsyncOn | .lVsyncOff => { s with lpc := w.lpc, vsync := w.vsync }
  | .lExit =>
    { s with lfsmActive := w.lfsmActive, lpc := w.lpc, maxline := if s.cfg.diag then w.maxline else s.maxline }
  | .tEnter => { s with tchActive := w.tchActive, tpc := w.tpc, tcPend := w.tcPend }
  | .tBlank => { s with tpc := w.tpc, out := w.out }
  | .tClr => { s with tpc := w.tpc, tcFlag := w.tcFlag, tcClrPend := w.tcClrPend, draws := w.draws, drawn := w.drawn }
  | .tPoll => { s with tpc := w.tpc }
  | .tDis =>
    { s with
      tpc := w.tpc, arm := w.arm, xferEn := w.xferEn, pclkRun := w.pclkRun, pdiv := w.pdiv, tcPend := w.tcPend
      draws := w.draws, drawn := w.drawn }
  | .tDiscard => { s with tpc := w.tpc, tcPend := w.tcPend }
  | .tExit => { s with tchActive := w.tchActive, tpc := w.tpc }

/-- What a tick may write on the way to a state and from there on, it may write on the whole way. -/
theorem tickWritten_trans {s u t : State} (hu : u = tickWritten s u) (ht : t = tickWritten u t) :
    t = tickWritten s t := by
  have htrans : tickWritten u t = tickWritten (tickWritten s u) t := congrArg (tickWritten · t) hu
  exact ht.trans htrans

theorem tickWritten_pseClock {s t : State} (h : pseClock s = .next t) : t = tickWritten s t := by
  obtain ⟨p, o, x, e, f, q, d, n, rfl⟩ : ∃ p o x e f q d n, t =
      { s with pdiv := p, out := o, xidx := x, xferEn := e, tcFlag := f, tcPend := q, draws := d, drawn := n } :=
    ⟨_, _, _, _, _, _, _, _, pseClock_only h⟩
  rfl

theorem tickWritten_tickEnd (s : State) : tickEnd s = tickWritten s (tickEnd s) := by
  obtain ⟨f, p, l, d, n, h⟩ : ∃ f p l d n, tickEnd s =
      { s with tcFlag := f, tcClrPend := p, lineTicks := l, draws := d, drawn := n } :=
    ⟨_, _, _, _, _, tickEnd_only s⟩
  rw [h]
  rfl

theorem tickWritten_tickRunning {s t : State} (h : tickRunning s = .next t) : t = tickWritten s t := by
  rcases tickRunning_cases h with ⟨-, -, rfl⟩ | ⟨u, v, hu, -, hv, ht⟩
  · rfl
  have hu : u = tickWritten s u := by rw [hu]; split <;> rfl
  have hv : v = tickWritten s v := tickWritten_trans hu (tickWritten_pseClock hv)
  rcases ht with ⟨-, rfl⟩ | ⟨-, -, rfl⟩ | ⟨-, -, rfl⟩ | ⟨-, -, rfl⟩
  · exact tickWritten_trans hv (tickWritten_tickEnd v)
  · exact tickWritten_trans hv (tickWritten_tickEnd v)
  · have hstart : startStreaming v = tickWritten s (startStreaming v) := tickWritten_trans hv rfl
    exact tickWritten_trans hstart (tickWritten_tickEnd _)
  · exact tickWritten_trans hv rfl

theorem tickWritten_tick1 {s t : State} (h : tick1 s = .next t) : t = tickWritten s t := by
  unfold tick1 at h
  split at h
  · exact tickWritten_tickRunning h
  · cases h; rfl

/-- An operation that answers a next state writes no field but its own. -/
theorem exec_written {i : Instr} {s t : State} (h : exec i s = .next t) : t = written i s t := by
  cases i
  case nop | rdreg => obtain ⟨-, ⟨⟩⟩ := live_next_iff.1 h; rfl
  case tick n =>
    obtain ⟨-, h⟩ := live_next_iff.1 h
    split at h
    · cases h
    · obtain ⟨u, hu, rfl⟩ := mapState_next_iff.1 h
      exact tickWritten_trans (tickWritten_tick1 hu) rfl
  case wrctrl d =>
    obtain ⟨-, h⟩ := live_next_iff.1 h
    split at h
    · cases h
    · split at h <;> cases h
      rfl
  case bufw b j v =>
    obtain ⟨-, h⟩ := live_next_iff.1 h
    split at h
    · cases h
    split at h
    · cases h
    · split at h <;> cases h <;> rfl
  case bufr b j =>
    obtain ⟨-, h⟩ := live_next_iff.1 h
    split at h <;> cases h
    rw [memRead_only]
    rfl
  case cbret | lEnter | tEnter =>
    obtain ⟨-, h⟩ := live_next_iff.1 h
    split at h <;> cases h
    rfl
  case lSwap =>
    obtain ⟨-, -, -, h⟩ := lfsmOp_next_iff.1 h
    split at h <;> cases h <;> rfl
  case lArm =>
    obtain ⟨-, -, -, h⟩ := lfsmOp_next_iff.1 h
    split at h
    · cases h; rfl
    · split at h <;> cases h <;> rfl
  case lExit =>
    obtain ⟨-, -, -, ⟨⟩⟩ := lfsmOp_next_iff.1 h
    cases hd : s.cfg.diag <;> simp [written, recordLine, returnInterrupt, hd]
  case tClr => obtain ⟨-, -, ⟨⟩⟩ := tchOp_next_iff.1 h; rw [writeTcClear_eq]; rfl
  case tDis => obtain ⟨-, -, ⟨⟩⟩ := tchOp_next_iff.1 h; rw [spuriousTc_eq]; rfl
  case tBlank | tPoll | tDiscard | tExit => obtain ⟨-, -, ⟨⟩⟩ := tchOp_next_iff.1 h; rfl
  case lAck | lAdv | lProduce | lFrameinc | lInput | lVsyncOn | lVsyncOff | lAudio =>
    obtain ⟨-, -, -, ⟨⟩⟩ := lfsmOp_next_iff.1 h; rfl

end Sys2Proof.Machine

namespace Sys2Proof.Proofs

open Sys2Proof.Machine Sys2Proof.Safety

/-- Settles O52: the next state is the old one with the operation's own fields changed, so a field that differs is one of
them. -/
theorem everyFieldHasItsWriters : Obligations.EveryFieldHasItsWriters := by
  intro i s t h
  obtain ⟨w, rfl⟩ : ∃ w, t = written i s w := ⟨t, exec_written h⟩
  clear h
  cases i <;> simp +contextual [written, tickWritten, Instr.agent]

end Sys2Proof.Proofs

namespace Sys2Proof.Machine

/-! ### The mark of a refused run (R70, R405) -/

/-- The state with the mark at a given value. -/
def mark (b : Bool) (s : State) : State := { s with refused := b }

/-- A refusal of `refuse(reason)`: it carries the state the run ended in, with the mark set (log 6). -/
def Marked (x : Refusal) : Prop := ∃ why t, x = .refuse why t ∧ t.refused = true

theorem marked_of_refuse {α : Type} {why : Reason} {s : State} {x : Refusal}
    (h : (refuse why s : Host.Outcome α Fault Refusal) = .refused x) : Marked x := by
  cases h
  exact ⟨why, _, rfl, rfl⟩

/-- Under the guard a refusal is the guard's own or the operation's. -/
theorem marked_of_live {α : Type} {s : State} {k : Host.Outcome α Fault Refusal} {x : Refusal}
    (hk : k = .refused x → Marked x) (h : live s k = .refused x) : Marked x := by
  unfold live at h
  split at h
  · split at h
    · exact hk h
    · cases h
  · exact marked_of_refuse h

/-! #### The updates that draw or read do the same whatever the mark -/

theorem drawWord_mark (b : Bool) (s : State) : drawWord (mark b s) = ((drawWord s).1, mark b (drawWord s).2) := by
  cases h : s.draws <;> simp [drawWord, mark, h]

theorem drawBit_mark (b : Bool) (s : State) : drawBit (mark b s) = ((drawBit s).1, mark b (drawBit s).2) := by
  rw [drawBit, drawWord_mark]; rfl

theorem memRead_mark (b c : Bool) (i : Nat) (s : State) :
    memRead c i (mark b s) = ((memRead c i s).1, mark b (memRead c i s).2) := by
  have hcell : cell (mark b s) c i = cell s c i := rfl
  cases h : cell s c i with
  | none => rw [memRead_none h, memRead_none (hcell.trans h), drawPixel, drawWord_mark]; rfl
  | some v => rw [memRead_some h, memRead_some (hcell.trans h)]

theorem movePixel_mark (b : Bool) (s : State) : movePixel (mark b s) = mark b (movePixel s) := by
  have hread : memRead (mark b s).src (mark b s).xidx.toNat (mark b s) =
      ((memRead s.src s.xidx.toNat s).1, mark b (memRead s.src s.xidx.toNat s).2) := memRead_mark b _ _ s
  rw [movePixel_eq, movePixel_eq, hread]
  rfl

theorem flagClearTick_mark (b : Bool) (s : State) : flagClearTick (mark b s) = mark b (flagClearTick s) := by
  have hp : (mark b s).tcClrPend = s.tcClrPend := rfl
  unfold flagClearTick
  rw [drawBit_mark, hp]
  split
  · split <;> rfl
  · rfl

theorem tickEnd_mark (b : Bool) (s : State) : tickEnd (mark b s) = mark b (tickEnd s) := by
  unfold tickEnd
  rw [flagClearTick_mark]
  generalize flagClearTick s = t
  have hl : (mark b t).lfsmActive = t.lfsmActive := rfl
  unfold countLineTick
  rw [hl]
  split <;> rfl

theorem writeTcClear_mark (b : Bool) (s : State) : writeTcClear (mark b s) = mark b (writeTcClear s) := by
  have hf : (mark b s).tcFlag = s.tcFlag := rfl
  unfold writeTcClear
  rw [drawBit_mark, hf]
  split
  · split <;> rfl
  · rfl

theorem spuriousTc_mark (b : Bool) (s : State) : spuriousTc (mark b s) = mark b (spuriousTc s) := by
  unfold spuriousTc
  rw [drawBit_mark]
  split <;> rfl

theorem recordLine_mark (b : Bool) (s : State) : recordLine (mark b s) = mark b (recordLine s) := by
  have hd : (mark b s).cfg.diag = s.cfg.diag := rfl
  unfold recordLine
  rw [hd]
  split <;> rfl

/-! #### The outcomes -/

/-- `r'` is what `r` is from a state that differs in the mark only, where `r` answers a next state; and where `r` refuses, it
sets the mark. -/
structure MarkBlind (b : Bool) (r r' : Result) : Prop where
  next : ∀ t, r = .next t → r' = .next (mark b t)
  refused : ∀ x, r = .refused x → Marked x

section
variable {b : Bool} {s : State} {r r' q q' : Result}

theorem markBlind_next (s : State) : MarkBlind b (.next s) (.next (mark b s)) :=
  ⟨fun _ h => by cases h; rfl, fun _ h => by cases h⟩

theorem markBlind_refuse (why : Reason) (s : State) : MarkBlind b (refuse why s) r' :=
  ⟨fun _ h => absurd h refuse_ne_next, fun _ h => marked_of_refuse h⟩

theorem markBlind_ite {p : Prop} [Decidable p] (hr : MarkBlind b r r') (hq : MarkBlind b q q') :
    MarkBlind b (if p then r else q) (if p then r' else q') := by
  split
  · exact hr
  · exact hq

theorem markBlind_live (h : MarkBlind b r r') : MarkBlind b (live s r) (live (mark b s) r') where
  next t ht := by
    obtain ⟨hl, ht⟩ := live_next_iff.1 ht
    exact live_next_iff.2 ⟨hl, h.next t ht⟩
  refused x hx := marked_of_live (h.refused x) hx

theorem markBlind_lfsmOp {x : LStep} (h : MarkBlind b r r') : MarkBlind b (lfsmOp x s r) (lfsmOp x (mark b s) r') :=
  markBlind_live (markBlind_ite (markBlind_ite h (markBlind_refuse _ _)) (markBlind_refuse _ _))

theorem markBlind_tchOp {x : TStep} (h : MarkBlind b r r') : MarkBlind b (tchOp x s r) (tchOp x (mark b s) r') :=
  markBlind_live (markBlind_ite h (markBlind_refuse _ _))

theorem markBlind_pseClock (s : State) : MarkBlind b (pseClock s) (pseClock (mark b s)) := by
  have hedge : ∀ u, MarkBlind b (pseEdge u) (pseEdge (mark b u)) := fun u => by
    have hmove : MarkBlind b (.next (movePixel u)) (.next (movePixel (mark b u))) := by
      rw [movePixel_mark]; exact markBlind_next _
    exact markBlind_ite (markBlind_ite hmove (markBlind_refuse _ _)) (markBlind_next u)
  exact markBlind_ite (markBlind_ite (markBlind_next _) (hedge _)) (markBlind_next s)

theorem markBlind_tickEnd (s : State) : MarkBlind b (.next (tickEnd s)) (.next (tickEnd (mark b s))) := by
  rw [tickEnd_mark]
  exact markBlind_next _

theorem markBlind_pseTrigger (s : State) : MarkBlind b (pseTrigger s) (pseTrigger (mark b s)) := by
  have ha : (mark b s).arm = s.arm := rfl
  unfold pseTrigger
  rw [ha]
  cases s.arm
  case idle => exact markBlind_tickEnd s
  case armed => exact markBlind_tickEnd (startStreaming s)
  case streaming => exact markBlind_next (raiseFault .triggerWhileStreaming s)

theorem markBlind_tickEngine (h : Nat) (s : State) : MarkBlind b (tickEngine h s) (tickEngine h (mark b s)) := by
  have hclk := markBlind_pseClock (b := b) s
  unfold tickEngine
  cases hp : pseClock s with
  | next t =>
    rw [hclk.next t hp]
    exact markBlind_ite (markBlind_pseTrigger t) (markBlind_tickEnd t)
  | fault r => exact ⟨fun _ ht => (by cases ht), fun _ hx => by cases hx⟩
  | refused x => exact ⟨fun _ ht => (by cases ht), fun y hy => by cases hy; exact hclk.refused x hp⟩

theorem markBlind_tick1 (s : State) : MarkBlind b (tick1 s) (tick1 (mark b s)) :=
  markBlind_ite
    (markBlind_ite (markBlind_ite (markBlind_next _) (markBlind_tickEngine _ _)) (markBlind_tickEngine _ _))
    (markBlind_next s)

/-- An update that neither reads nor writes the mark keeps an outcome blind to it. -/
theorem markBlind_mapState {f : State → State} (hmark : ∀ c t, f (mark c t) = mark c (f t))
    (hkeep : ∀ t, (f t).refused = t.refused) (h : MarkBlind b r r') : MarkBlind b (mapState f r) (mapState f r') where
  next t ht := by
    obtain ⟨u, hu, rfl⟩ := mapState_next_iff.1 ht
    exact mapState_next_iff.2 ⟨mark b u, h.next u hu, (hmark b u).symm⟩
  refused x hx := by
    cases r with
    | next u => cases hx
    | fault y => cases hx
    | refused y =>
      obtain ⟨why, t, rfl, ht⟩ := h.refused y rfl
      cases hx
      exact ⟨why, f t, rfl, (hkeep t).trans ht⟩

theorem markBlind_execBufr (c : Bool) (i : BitVec 11) (s : State) :
    MarkBlind b (execBufr c i s) (execBufr c i (mark b s)) := by
  refine markBlind_live (markBlind_ite (markBlind_refuse _ _) ?_)
  simp only [memRead_mark]
  exact markBlind_next (answer ((memRead c (indexOperand i) s).1.setWidth 32) (memRead c (indexOperand i) s).2)

theorem markBlind_hostOp {i : Instr} (hi : i.agent = .host) (s : State) : MarkBlind b (exec i s) (exec i (mark b s)) := by
  cases i <;> cases hi
  case nop | rdreg => exact markBlind_live (markBlind_next _)
  case wrctrl d =>
    exact markBlind_live (markBlind_ite (markBlind_refuse _ _) (markBlind_ite (markBlind_refuse _ _) (markBlind_next _)))
  case bufw c j v =>
    exact markBlind_live (markBlind_ite (markBlind_refuse _ _) (markBlind_ite (markBlind_refuse _ _)
      (markBlind_ite (markBlind_next _) (markBlind_next _))))
  case bufr c j => exact markBlind_execBufr c j s
  case cbret k => exact markBlind_live (markBlind_ite (markBlind_next _) (markBlind_refuse _ _))

theorem markBlind_lfsm {i : Instr} (hi : i.agent = .lfsm) (s : State) : MarkBlind b (exec i s) (exec i (mark b s)) := by
  cases i <;> cases hi
  case lEnter => exact markBlind_live (markBlind_ite (markBlind_next _) (markBlind_refuse _ _))
  case lSwap => exact markBlind_lfsmOp (markBlind_ite (markBlind_next _) (markBlind_next _))
  case lArm =>
    exact markBlind_lfsmOp (markBlind_ite (markBlind_next _) (markBlind_ite (markBlind_next _) (markBlind_next _)))
  case lExit =>
    have hrec : recordLine (returnInterrupt .line (mark b s)) = mark b (recordLine (returnInterrupt .line s)) :=
      recordLine_mark b (returnInterrupt .line s)
    refine markBlind_lfsmOp ?_
    rw [hrec]
    exact markBlind_next _
  all_goals exact markBlind_lfsmOp (markBlind_next _)

theorem markBlind_tch {i : Instr} (hi : i.agent = .tch) (s : State) : MarkBlind b (exec i s) (exec i (mark b s)) := by
  cases i <;> cases hi
  case tEnter => exact markBlind_live (markBlind_ite (markBlind_next _) (markBlind_refuse _ _))
  case tClr =>
    refine markBlind_tchOp ?_
    rw [writeTcClear_mark]
    exact markBlind_next { writeTcClear s with tpc := some .poll }
  case tDis =>
    have hspur : spuriousTc (disableEngine (mark b s)) = mark b (spuriousTc (disableEngine s)) :=
      spuriousTc_mark b (disableEngine s)
    refine markBlind_tchOp ?_
    rw [hspur]
    exact markBlind_next { spuriousTc (disableEngine s) with tpc := some .discard }
  all_goals exact markBlind_tchOp (markBlind_next _)

/-- No operation reads the mark, and every refusal of an operation sets it (R70, R405). -/
theorem markBlind_exec (i : Instr) (s : State) : MarkBlind b (exec i s) (exec i (mark b s)) := by
  cases hi : i.agent with
  | host => exact markBlind_hostOp hi s
  | lfsm => exact markBlind_lfsm hi s
  | tch => exact markBlind_tch hi s
  | hw =>
    cases i <;> cases hi
    exact markBlind_live (markBlind_ite (markBlind_refuse _ _)
      (markBlind_mapState (fun _ _ => rfl) (fun _ => rfl) (markBlind_tick1 s)))

end

/-! #### The fetch -/

theorem marked_of_fetchStream {s : State} {x : Refusal} (h : fetchStream s = .refused x) : Marked x := by
  unfold fetchStream at h
  split at h
  · cases h
  split at h
  · cases h
  split at h
  · exact marked_of_refuse h
  split at h
  · exact marked_of_refuse h
  · cases h

/-- In a run that is not refused every refusal of the fetch sets the mark. -/
theorem marked_of_nextOp {s : State} {x : Refusal} (hr : s.refused = false) (h : nextOp s = .refused x) : Marked x := by
  refine marked_of_live (fun h => ?_) h
  rw [hr] at h
  split at h
  · contradiction
  split at h
  · exact marked_of_fetchStream h
  split at h
  · unfold chooseOp at h
    split at h
    · cases h
    · exact marked_of_fetchStream h
  · cases h

/-- In a run that is not refused every refusal of a step sets the mark. -/
theorem marked_of_step {s : State} {x : Refusal} (hr : s.refused = false) (h : step s = .refused x) : Marked x := by
  unfold step at h
  split at h
  · exact (markBlind_exec (b := false) _ _).refused x h
  · cases h
  · cases h
  · rename_i y hn
    cases h
    exact marked_of_nextOp hr hn

/-- From a state whose mark is set no step answers a next state (R405). -/
theorem step_ne_next_of_refused {s : State} (hr : s.refused = true) (t : State) : step s ≠ .next t := by
  intro h
  obtain ⟨o, u, hn⟩ : ∃ o u, nextOp s = .next (o, u) := by
    rcases step_next_iff.1 h with ⟨i, u, hn, -⟩ | hn
    · exact ⟨_, _, hn⟩
    · exact ⟨_, _, hn⟩
  obtain ⟨⟨-, hf⟩, -⟩ := nextOp_cases hn
  simp [hr] at hf

end Sys2Proof.Machine

namespace Sys2Proof.Proofs

open Sys2Proof.Machine Sys2Proof.Safety

/-- Settles O60: every refusal comes from `refuse`, which sets the mark; the fetch stops at it; no operation reads it. -/
theorem refusalSetsTheMarkAndEndsTheRun : Obligations.RefusalSetsTheMarkAndEndsTheRun := by
  refine ⟨fun s r hr h => ?step, fun i s r h => ?exec, fun s t hr => ?ends, fun i s t b h => ?blind⟩
  case step =>
    obtain ⟨why, t, rfl, ht⟩ := marked_of_step hr h
    exact ⟨why, t, rfl, ht, step_ne_next_of_refused ht⟩
  case exec => exact (markBlind_exec (b := false) i s).refused r h
  case ends => exact step_ne_next_of_refused hr t
  case blind => exact (markBlind_exec i s).next t h

end Sys2Proof.Proofs

namespace Sys2Proof.Machine

/-! ### What an operation does to the pixel cells (R103, R106, R343) -/

section
variable {s t : State} {i : Instr} {b c : Bool} {j k : Nat} {v : Pixel}

/-- A cell's content depends on the memory and the configuration only. -/
theorem cell_congr (hm : t.mem = s.mem) (hc : t.cfg = s.cfg) : cell t b j = cell s b j := by
  simp only [cell, hm, hc]

/-- A write leaves every other existing cell as it is (R105). -/
theorem cell_memWrite_ne (hj : j < 2048) (hk : k < 2048) (h : ¬(b = c ∧ j = k)) :
    cell (memWrite c k v s) b j = cell s b j := by
  have hkey : cellKey b j ≠ cellKey c k := mt (cellKey_inj hj hk).1 h
  simp only [cell, memWrite_mem, memWrite_cfg, memFind_memInsert_ne hkey]

/-- An operation that answers a next state ran under the guard. -/
theorem live_of_exec_next (h : exec i s = .next t) : Safety.Live s := by
  rw [← live_exec] at h
  exact (live_next_iff.1 h).1

/-- `BUFW` either faults on the running display buffer or writes one cell below the trailing one (R343). -/
theorem execBufw_cases {n : BitVec 11} (h : execBufw b n v s = .next t) :
    t = raiseFault .ownership s ∨
      indexOperand n < s.cfg.visiblePixels ∧ ¬(s.run = true ∧ b = s.display) ∧ t = memWrite b (indexOperand n) v s := by
  obtain ⟨-, h⟩ := live_next_iff.1 h
  split at h
  · cases h
  split at h
  · cases h
  split at h <;> cases h
  · exact .inl rfl
  · exact .inr ⟨by omega, ‹_›, rfl⟩

/-- An operation leaves every cell as it is, or is a `BUFW` that writes one cell below the trailing one, and not of the display
buffer while running. -/
theorem exec_cells (h : exec i s = .next t) :
    (∀ b j, cell t b j = cell s b j) ∨
      ∃ c k v, k < s.cfg.visiblePixels ∧ ¬(s.run = true ∧ c = s.display) ∧ t = memWrite c k v s := by
  by_cases hi : ∃ c n v, i = .bufw c n v
  case pos =>
    obtain ⟨c, n, v, rfl⟩ := hi
    rcases execBufw_cases h with rfl | hw
    · exact .inl fun _ _ => rfl
    · exact .inr ⟨c, _, v, hw⟩
  case neg =>
    obtain ⟨hcfg, -, -, -, -, -, -, -, -, -, hmem, -⟩ := Proofs.everyFieldHasItsWriters i s t h
    exact .inl fun _ _ => cell_congr (by_contra fun hne => hi (hmem hne)) hcfg

/-- R9 item (5): the index of every existing cell fits the index bits of a key. -/
theorem visiblePixels_lt_of_configOk {c : Config} (hc : configOk c = true) : c.visiblePixels < 2048 := by
  obtain ⟨-, -, -, -, ⟨-, hlen⟩, -⟩ := configOk_iff.1 hc
  exact hlen

/-- An existing cell keeps its content through every operation if it is a trailing cell, or one of the display buffer while
running. -/
theorem cell_exec_of_protected (h : exec i s = .next t) (hj : j ≤ s.cfg.visiblePixels)
    (hp : j = s.cfg.visiblePixels ∨ s.run = true ∧ b = s.display) : cell t b j = cell s b j := by
  have hvis := visiblePixels_lt_of_configOk (live_of_exec_next h).1
  rcases exec_cells h with hsame | ⟨c, k, v, hk, hown, rfl⟩
  · exact hsame b j
  · refine cell_memWrite_ne (by omega) (by omega) fun ⟨hbc, hjk⟩ => ?_
    rcases hp with htrailing | ⟨hrun, hdisplay⟩
    · omega
    · exact hown ⟨hrun, hbc ▸ hdisplay⟩

/-- While the engine is armed or streams, the generator runs and the transfer's source is the display buffer (R50, R53). -/
theorem source_of_engineBusy (hs : Safety.MachineInv s) (ha : s.arm ≠ .idle) : s.run = true ∧ s.src = s.display := by
  obtain ⟨-, -, hsrc, -⟩ := hs.engine
  refine ⟨?_, hsrc ha⟩
  by_contra hrun
  obtain ⟨-, harm, -⟩ := hs.stopped (by simpa using hrun)
  exact ha harm

end

end Sys2Proof.Machine

namespace Sys2Proof.Proofs

open Sys2Proof.Machine Sys2Proof.Safety

/-- Settles O56: no listed cell is a trailing one, so it reads `BLANK_VALUE`; and no operation writes a trailing cell. -/
theorem trailingCellIsAlwaysBlank : Obligations.TrailingCellIsAlwaysBlank :=
  ⟨fun _ b hc hm => cell_trailing hm (visiblePixels_lt_of_configOk hc) b,
    fun _ _ _ _ h => cell_exec_of_protected h le_rfl (.inl rfl)⟩

/-- Settles O57: `BUFW` is the only writer and its ownership check keeps it off the display buffer, which is the source of an
armed or streaming transfer. -/
theorem nothingWritesTheDisplayBuffer : Obligations.NothingWritesTheDisplayBuffer := by
  intro i s t j h hj
  have hdisplay : s.run = true → cell t s.display j = cell s s.display j := fun hr =>
    cell_exec_of_protected h hj (.inr ⟨hr, rfl⟩)
  refine ⟨hdisplay, fun hs ha => ?_⟩
  obtain ⟨hr, hsrc⟩ := source_of_engineBusy hs ha
  rw [hsrc]
  exact hdisplay hr

end Sys2Proof.Proofs

namespace Sys2Proof.Machine

/-! ### A tick with other contents of the line buffers (R106, R234, R238) -/

/-- The state with other contents of the line buffers. -/
def withMem (m : Memory) (s : State) : State := { s with mem := m }

/-- While the transfer is enabled, the contents `m` agree with the state's own on the buffer it reads. -/
def AgreesOnSource (m : Memory) (s : State) : Prop :=
  s.xferEn = true → ∀ j ≤ s.cfg.visiblePixels, cell (withMem m s) s.src j = cell s s.src j

section
variable {m : Memory} {s : State}

/-! #### The updates that draw or read -/

theorem drawWord_withMem (s : State) : drawWord (withMem m s) = ((drawWord s).1, withMem m (drawWord s).2) := by
  cases h : s.draws <;> simp [drawWord, withMem, h]

theorem drawBit_withMem (s : State) : drawBit (withMem m s) = ((drawBit s).1, withMem m (drawBit s).2) := by
  rw [drawBit, drawWord_withMem]; rfl

/-- A read of a cell on which the contents agree gives the same value (R104). -/
theorem memRead_withMem {b : Bool} {i : Nat} (h : cell (withMem m s) b i = cell s b i) :
    memRead b i (withMem m s) = ((memRead b i s).1, withMem m (memRead b i s).2) := by
  cases hv : cell s b i with
  | none => rw [memRead_none hv, memRead_none (h.trans hv), drawPixel, drawWord_withMem]; rfl
  | some v => rw [memRead_some hv, memRead_some (h.trans hv)]

/-- The move of a pixel reads the one cell it moves (R234). -/
theorem movePixel_withMem (h : cell (withMem m s) s.src s.xidx.toNat = cell s s.src s.xidx.toNat) :
    movePixel (withMem m s) = withMem m (movePixel s) := by
  have hread : memRead (withMem m s).src (withMem m s).xidx.toNat (withMem m s) =
      ((memRead s.src s.xidx.toNat s).1, withMem m (memRead s.src s.xidx.toNat s).2) := memRead_withMem h
  rw [movePixel_eq, movePixel_eq, hread]
  rfl

theorem flagClearTick_withMem (s : State) : flagClearTick (withMem m s) = withMem m (flagClearTick s) := by
  have hp : (withMem m s).tcClrPend = s.tcClrPend := rfl
  unfold flagClearTick
  rw [drawBit_withMem, hp]
  split
  · split <;> rfl
  · rfl

theorem countLineTick_withMem (s : State) : countLineTick (withMem m s) = withMem m (countLineTick s) := by
  have hl : (withMem m s).lfsmActive = s.lfsmActive := rfl
  unfold countLineTick
  rw [hl]
  split <;> rfl

theorem tickEnd_withMem (s : State) : tickEnd (withMem m s) = withMem m (tickEnd s) := by
  rw [tickEnd, flagClearTick_withMem, countLineTick_withMem, tickEnd]

/-! #### The outcomes -/

/-- Two branches changed alike are the changed branch. -/
theorem ite_mapState {f : State → State} {p : Prop} [Decidable p] {q q' r r' : Result} (hq : p → q' = mapState f q)
    (hr : ¬p → r' = mapState f r) : (if p then q' else r') = mapState f (if p then q else r) := by
  split
  · exact hq ‹_›
  · exact hr ‹_›

/-- Two updates that commute change an outcome in either order. -/
theorem mapState_comm {f g : State → State} (h : ∀ t, f (g t) = g (f t)) (r : Result) :
    mapState f (mapState g r) = mapState g (mapState f r) := by
  rcases r with t | _ | (⟨_, t⟩ | _ | _) <;> simp only [mapState, h]

/-- The guard does not read the line buffers. -/
theorem live_withMem {k k' : Result} (h : k' = mapState (withMem m) k) :
    live (withMem m s) k' = mapState (withMem m) (live s k) :=
  ite_mapState (fun _ => ite_mapState (fun _ => h) fun _ => rfl) fun _ => rfl

/-- A pixel edge reads no cell but the source's (R234, R236). -/
theorem pseEdge_withMem (h : AgreesOnSource m s) : pseEdge (withMem m s) = mapState (withMem m) (pseEdge s) := by
  refine ite_mapState (fun hx => ite_mapState (fun hi => ?_) fun _ => rfl) fun _ => rfl
  exact congrArg Host.Outcome.next (movePixel_withMem (h hx _ hi))

theorem pseClock_withMem (h : AgreesOnSource m s) : pseClock (withMem m s) = mapState (withMem m) (pseClock s) :=
  ite_mapState (fun _ => ite_mapState (fun _ => rfl) fun _ => pseEdge_withMem (s := { s with pdiv := 0 }) h) fun _ => rfl

theorem pseTrigger_withMem (s : State) : pseTrigger (withMem m s) = mapState (withMem m) (pseTrigger s) := by
  have ha : (withMem m s).arm = s.arm := rfl
  unfold pseTrigger
  rw [ha]
  cases s.arm
  case idle => exact congrArg Host.Outcome.next (tickEnd_withMem s)
  case armed => exact congrArg Host.Outcome.next (tickEnd_withMem (startStreaming s))
  case streaming => rfl

theorem tickEngine_withMem (n : Nat) (h : AgreesOnSource m s) :
    tickEngine n (withMem m s) = mapState (withMem m) (tickEngine n s) := by
  unfold tickEngine
  rw [pseClock_withMem h]
  rcases pseClock s with t | _ | (_ | _ | _)
  case next => exact ite_mapState (fun _ => pseTrigger_withMem t) fun _ => congrArg Host.Outcome.next (tickEnd_withMem t)
  all_goals rfl

/-- The count and the period interrupt read no cell (R202, R203), so a tick's one read is the transfer's. -/
theorem tickRunning_withMem (h : AgreesOnSource m s) :
    tickRunning (withMem m s) = mapState (withMem m) (tickRunning s) :=
  ite_mapState
    (fun _ => ite_mapState (fun _ => rfl) fun _ =>
      tickEngine_withMem _ (s := latchLine { s with hcnt := BitVec.ofNat 16 (nextHcnt s) }) h)
    fun _ => tickEngine_withMem _ (s := { s with hcnt := BitVec.ofNat 16 (nextHcnt s) }) h

theorem tick1_withMem (h : AgreesOnSource m s) : tick1 (withMem m s) = mapState (withMem m) (tick1 s) :=
  ite_mapState (fun _ => tickRunning_withMem h) fun _ => rfl

/-- A tick with other contents does the same and leaves those contents, where they agree on the buffer the transfer reads. -/
theorem execTick_withMem (n : BitVec 16) (h : AgreesOnSource m s) :
    execTick n (withMem m s) = mapState (withMem m) (execTick n s) := by
  refine live_withMem (ite_mapState (fun _ => rfl) fun _ => ?_)
  rw [tick1_withMem h]
  apply mapState_comm
  exact fun _ => rfl

/-- Contents that agree on the display buffer agree on the buffer an enabled transfer reads (R53, R230). -/
theorem agreesOnSource_of_display (hs : Safety.MachineInv s)
    (h : ∀ j, j ≤ s.cfg.visiblePixels → cell (withMem m s) s.display j = cell s s.display j) : AgreesOnSource m s := by
  intro hx
  obtain ⟨-, hxfer, -⟩ := hs.engine
  obtain ⟨hbusy, -⟩ := hxfer hx
  obtain ⟨-, hsrc⟩ := source_of_engineBusy hs hbusy
  rw [hsrc]
  exact h

end

end Sys2Proof.Machine

namespace Sys2Proof.Proofs

open Sys2Proof.Machine Sys2Proof.Safety

/-- Settles O58: a tick's one read of the line buffers is of the cell an enabled transfer moves, in the display buffer. -/
theorem tickReadsOnlyTheDisplayBuffer : Obligations.TickReadsOnlyTheDisplayBuffer := fun _ _ n hs h =>
  execTick_withMem n (agreesOnSource_of_display hs h)

end Sys2Proof.Proofs

namespace Sys2Proof

/-! ### The words of the operations, field by field (R142 to R149) -/

section
variable {k m n p : Nat}

/-- Three parts make a word exactly when each is the number the word has at its place. -/
theorem append3_eq_iff {a : BitVec m} {b : BitVec n} {c : BitVec p} {x : BitVec (m + n + p)} :
    a ++ b ++ c = x ↔
      (x.extractLsb' (p + n) m).toNat = a.toNat ∧ (x.extractLsb' p n).toNat = b.toNat ∧
        (x.extractLsb' 0 p).toNat = c.toNat := by
  simp only [BitVec.toNat_inj]
  constructor
  · rintro rfl
    simp [BitVec.extractLsb'_append_eq_of_le, BitVec.extractLsb'_append_eq_right]
  · rintro ⟨rfl, rfl, rfl⟩
    rw [BitVec.extractLsb'_append_extractLsb'_eq_extractLsb' rfl, BitVec.extractLsb'_append_extractLsb']

/-- Four parts make a word exactly when each is the number the word has at its place. -/
theorem append4_eq_iff {a : BitVec k} {b : BitVec m} {c : BitVec n} {d : BitVec p} {x : BitVec (k + m + n + p)} :
    a ++ b ++ c ++ d = x ↔
      (x.extractLsb' (p + n + m) k).toNat = a.toNat ∧ (x.extractLsb' (p + n) m).toNat = b.toNat ∧
        (x.extractLsb' p n).toNat = c.toNat ∧ (x.extractLsb' 0 p).toNat = d.toNat := by
  simp only [BitVec.toNat_inj]
  constructor
  · rintro rfl
    simp [BitVec.extractLsb'_append_eq_of_le, BitVec.extractLsb'_append_eq_right, Nat.add_assoc]
  · rintro ⟨rfl, rfl, rfl, rfl⟩
    rw [BitVec.extractLsb'_append_extractLsb'_eq_extractLsb' rfl,
      BitVec.extractLsb'_append_extractLsb'_eq_extractLsb' rfl, BitVec.extractLsb'_append_extractLsb']

end

section
variable {w : Word}

/-- Format N (R143). -/
theorem encode_tick_eq_iff {n : BitVec 16} :
    encode (.tick n) = w ↔ field w 31 28 = 0x1 ∧ field w 27 16 = 0 ∧ field w 15 0 = n.toNat :=
  append3_eq_iff

/-- Format C (R144). -/
theorem encode_wrctrl_eq_iff {d : BitVec 16} :
    encode (.wrctrl d) = w ↔ field w 31 28 = 0x2 ∧ field w 27 16 = 0 ∧ field w 15 0 = d.toNat :=
  append3_eq_iff

/-- Format R (R146). -/
theorem encode_rdreg_eq_iff {r : Reg} :
    encode (.rdreg r) = w ↔
      field w 31 28 = 0x3 ∧ field w 27 24 = 0 ∧ field w 23 16 = r.number ∧ field w 15 0 = 0 := by
  have hr : (BitVec.ofNat 8 r.number).toNat = r.number := by cases r <;> rfl
  rw [← hr]
  exact append4_eq_iff

/-- Format B of `BUFW` (R147). -/
theorem encode_bufw_eq_iff {b : Bool} {j : BitVec 11} {v : BitVec 16} :
    encode (.bufw b j v) = w ↔
      field w 31 28 = 0x4 ∧ field w 27 27 = b.toNat ∧ field w 26 16 = j.toNat ∧ field w 15 0 = v.toNat := by
  rw [← BitVec.toNat_ofBool]
  exact append4_eq_iff

/-- Format B of `BUFR` (R147). -/
theorem encode_bufr_eq_iff {b : Bool} {j : BitVec 11} :
    encode (.bufr b j) = w ↔
      field w 31 28 = 0x5 ∧ field w 27 27 = b.toNat ∧ field w 26 16 = j.toNat ∧ field w 15 0 = 0 := by
  rw [← BitVec.toNat_ofBool]
  exact append4_eq_iff

/-- Format K (R148). -/
theorem encode_cbret_eq_iff {k : Callback} :
    encode (.cbret k) = w ↔ field w 31 28 = 0x6 ∧ field w 27 2 = 0 ∧ field w 1 0 = k.code := by
  have hk : (BitVec.ofNat 2 k.code).toNat = k.code := by cases k <;> rfl
  rw [← hk]
  exact append3_eq_iff

/-- Format S (R149). -/
theorem encodeMicro_eq_iff {opc sub : BitVec 4} :
    encodeMicro opc sub = w ↔ field w 31 28 = opc.toNat ∧ field w 27 24 = sub.toNat ∧ field w 23 0 = 0 :=
  append3_eq_iff

/-! ### Fields of fields (R152) -/

/-- A field of one bit is that bit. -/
theorem field_bit (w : Word) (n : Nat) : field w n n = (w.getLsbD n).toNat := by
  rw [field, BitVec.extractLsb'_toNat, Nat.shiftRight_eq_div_pow, Nat.sub_self, BitVec.getLsbD, Nat.toNat_testBit]

theorem bit_of_field {n : Nat} {b : Bool} (h : field w n n = b.toNat) : w.getLsbD n = b := by
  rw [field_bit] at h
  cases b <;> simpa using h

/-- The reserved bits of a `WRCTRL` word, in the two parts R144 and R145 name. -/
theorem field_27_3_eq_zero_iff : field w 27 3 = 0 ↔ field w 27 16 = 0 ∧ field w 15 3 = 0 := by
  simp only [field, BitVec.extractLsb'_toNat, Nat.shiftRight_eq_div_pow]
  omega

/-- Format Z (R142), as the opcode and the bits below it. -/
theorem eq_zero_iff_fields : w = 0 ↔ field w 31 28 = 0 ∧ field w 27 0 = 0 := by
  simp only [field, BitVec.extractLsb'_toNat, Nat.shiftRight_eq_div_pow, BitVec.toNat_eq, BitVec.ofNat_eq_ofNat,
    BitVec.toNat_ofNat]
  omega

theorem wellFormed_tick_iff {n : BitVec 16} : (Instr.tick n).wellFormed = true ↔ n.toNat ≠ 0 := by
  simp [Instr.wellFormed, BitVec.toNat_eq]

/-- The operand `D` of a word is well formed exactly when the word's own bits `[15:3]` are 0 (R145). -/
theorem wellFormed_wrctrl_iff {d : BitVec 16} (hd : field w 15 0 = d.toNat) :
    (Instr.wrctrl d).wellFormed = true ↔ field w 15 3 = 0 := by
  simp only [Instr.wellFormed, beq_iff_eq, BitVec.toNat_eq, BitVec.extractLsb'_toNat, ← hd, field,
    Nat.shiftRight_eq_div_pow, BitVec.ofNat_eq_ofNat, BitVec.toNat_ofNat]
  omega

/-! ### The registers, callbacks and sub-operations that numbers name (R79, R148, R149) -/

theorem regOfNumber_number (r : Reg) : regOfNumber r.number = some r := by
  cases r <;> rfl

theorem callbackOfCode_code (k : Callback) : callbackOfCode k.code = some k := by
  cases k <;> rfl

section
variable {n : Nat} {i : Instr}

theorem number_of_regOfNumber {r : Reg} (h : regOfNumber n = some r) : n = r.number := by
  unfold regOfNumber at h
  split at h <;> cases h <;> rfl

theorem code_of_callbackOfCode {k : Callback} (h : callbackOfCode n = some k) : n = k.code := by
  unfold callbackOfCode at h
  split at h <;> cases h <;> rfl

theorem encode_of_lfsmOfSub (h : lfsmOfSub n = some i) :
    i.wellFormed = true ∧ encode i = encodeMicro 0xE (BitVec.ofNat 4 n) := by
  unfold lfsmOfSub at h
  split at h <;> cases h <;> exact ⟨rfl, rfl⟩

theorem encode_of_tchOfSub (h : tchOfSub n = some i) :
    i.wellFormed = true ∧ encode i = encodeMicro 0xF (BitVec.ofNat 4 n) := by
  unfold tchOfSub at h
  split at h <;> cases h <;> exact ⟨rfl, rfl⟩

theorem regOfNumber_eq_none_iff : regOfNumber n = none ↔ 9 < n := by
  fun_cases regOfNumber n
  case case11 => grind
  all_goals decide

/-- The one value of the two-bit field `K` that names no callback (R150). -/
theorem callbackOfCode_eq_none_iff (hn : n < 4) : callbackOfCode n = none ↔ n = 0 := by
  fun_cases callbackOfCode n
  case case4 => grind
  all_goals decide

theorem lfsmOfSub_eq_none_iff : lfsmOfSub n = none ↔ 0xB < n := by
  fun_cases lfsmOfSub n
  case case13 => grind
  all_goals decide

theorem tchOfSub_eq_none_iff : tchOfSub n = none ↔ 0x6 < n := by
  fun_cases tchOfSub n
  case case8 => grind
  all_goals decide

end

/-! ### The two answers of a format's decoder (R150, R153) -/

section
variable {q : Prop} [Decidable q] {d : Decoded} {o : Option Instr} {i : Instr}

@[simp] theorem guarded_eq_operation_iff : (if q then d else .illegal) = .operation i ↔ q ∧ d = .operation i := by
  split <;> simp [*]

@[simp] theorem guarded_eq_illegal_iff : (if q then d else .illegal) = .illegal ↔ ¬q ∨ d = .illegal := by
  split <;> simp [*]

@[simp] theorem spelled_eq_operation_iff : spelled o = .operation i ↔ o = some i := by
  cases o <;> simp [spelled]

@[simp] theorem spelled_eq_illegal_iff : spelled o = .illegal ↔ o = none := by
  cases o <;> simp [spelled]

end

/-! ### A decoded word is well formed, and the one word of its operation -/

section
variable {i : Instr}

theorem encode_of_decodeNop (h : decodeNop w = .operation i) : i.wellFormed = true ∧ encode i = w := by
  obtain ⟨rfl, rfl⟩ : w = 0 ∧ .nop = i := by simpa [decodeNop] using h
  exact ⟨rfl, rfl⟩

theorem encode_of_decodeTick (hopc : field w 31 28 = 0x1) (h : decodeTick w = .operation i) :
    i.wellFormed = true ∧ encode i = w := by
  obtain ⟨⟨hz, hn⟩, rfl⟩ : (field w 27 16 = 0 ∧ field w 15 0 ≠ 0) ∧ .tick (w.extractLsb' 0 16) = i := by
    simpa [decodeTick] using h
  exact ⟨wellFormed_tick_iff.2 hn, encode_tick_eq_iff.2 ⟨hopc, hz, rfl⟩⟩

theorem encode_of_decodeWrctrl (hopc : field w 31 28 = 0x2) (h : decodeWrctrl w = .operation i) :
    i.wellFormed = true ∧ encode i = w := by
  obtain ⟨⟨hz, hd⟩, rfl⟩ : (field w 27 16 = 0 ∧ field w 15 3 = 0) ∧ .wrctrl (w.extractLsb' 0 16) = i := by
    simpa [decodeWrctrl, field_27_3_eq_zero_iff] using h
  exact ⟨(wellFormed_wrctrl_iff rfl).2 hd, encode_wrctrl_eq_iff.2 ⟨hopc, hz, rfl⟩⟩

theorem encode_of_decodeRdreg (hopc : field w 31 28 = 0x3) (h : decodeRdreg w = .operation i) :
    i.wellFormed = true ∧ encode i = w := by
  obtain ⟨⟨hz, hz'⟩, r, hr, rfl⟩ :
      (field w 27 24 = 0 ∧ field w 15 0 = 0) ∧ ∃ r, regOfNumber (field w 23 16) = some r ∧ .rdreg r = i := by
    simpa [decodeRdreg] using h
  exact ⟨rfl, encode_rdreg_eq_iff.2 ⟨hopc, hz, number_of_regOfNumber hr, hz'⟩⟩

theorem encode_of_decodeBufw (hopc : field w 31 28 = 0x4) (h : decodeBufw w = .operation i) :
    i.wellFormed = true ∧ encode i = w := by
  obtain rfl : .bufw (w.getLsbD 27) (w.extractLsb' 16 11) (w.extractLsb' 0 16) = i := Decoded.operation.inj h
  exact ⟨rfl, encode_bufw_eq_iff.2 ⟨hopc, field_bit w 27, rfl, rfl⟩⟩

theorem encode_of_decodeBufr (hopc : field w 31 28 = 0x5) (h : decodeBufr w = .operation i) :
    i.wellFormed = true ∧ encode i = w := by
  obtain ⟨hz, rfl⟩ : field w 15 0 = 0 ∧ .bufr (w.getLsbD 27) (w.extractLsb' 16 11) = i := by
    simpa only [decodeBufr, guarded_eq_operation_iff, Decoded.operation.injEq] using h
  exact ⟨rfl, encode_bufr_eq_iff.2 ⟨hopc, field_bit w 27, rfl, hz⟩⟩

theorem encode_of_decodeCbret (hopc : field w 31 28 = 0x6) (h : decodeCbret w = .operation i) :
    i.wellFormed = true ∧ encode i = w := by
  obtain ⟨hz, k, hk, rfl⟩ : field w 27 2 = 0 ∧ ∃ k, callbackOfCode (field w 1 0) = some k ∧ .cbret k = i := by
    simpa [decodeCbret] using h
  exact ⟨rfl, encode_cbret_eq_iff.2 ⟨hopc, hz, code_of_callbackOfCode hk⟩⟩

/-- A format S word is its opcode and its sub-operation. -/
theorem encodeMicro_of_fields {opc : BitVec 4} (hopc : field w 31 28 = opc.toNat) (hz : field w 23 0 = 0) :
    encodeMicro opc (BitVec.ofNat 4 (field w 27 24)) = w :=
  encodeMicro_eq_iff.2 ⟨hopc, (Nat.mod_eq_of_lt (BitVec.isLt _)).symm, hz⟩

theorem encode_of_decodeLfsm (hopc : field w 31 28 = 0xE) (h : decodeLfsm w = .operation i) :
    i.wellFormed = true ∧ encode i = w := by
  obtain ⟨hz, hi⟩ : field w 23 0 = 0 ∧ lfsmOfSub (field w 27 24) = some i := by simpa [decodeLfsm] using h
  obtain ⟨hwf, he⟩ := encode_of_lfsmOfSub hi
  exact ⟨hwf, he.trans (encodeMicro_of_fields hopc hz)⟩

theorem encode_of_decodeTch (hopc : field w 31 28 = 0xF) (h : decodeTch w = .operation i) :
    i.wellFormed = true ∧ encode i = w := by
  obtain ⟨hz, hi⟩ : field w 23 0 = 0 ∧ tchOfSub (field w 27 24) = some i := by simpa [decodeTch] using h
  obtain ⟨hwf, he⟩ := encode_of_tchOfSub hi
  exact ⟨hwf, he.trans (encodeMicro_of_fields hopc hz)⟩

end

/-! ### The words each format's decoder finds illegal (R150) -/

theorem decodeNop_eq_illegal_iff (hopc : field w 31 28 = 0x0) : decodeNop w = .illegal ↔ field w 27 0 ≠ 0 := by
  rw [decodeNop, guarded_eq_illegal_iff, eq_zero_iff_fields]
  simp [hopc]

theorem decodeTick_eq_illegal_iff : decodeTick w = .illegal ↔ field w 27 16 ≠ 0 ∨ field w 15 0 = 0 := by
  simp [decodeTick, imp_iff_not_or]

theorem decodeWrctrl_eq_illegal_iff : decodeWrctrl w = .illegal ↔ field w 27 16 ≠ 0 ∨ field w 15 3 ≠ 0 := by
  simp [decodeWrctrl, field_27_3_eq_zero_iff, imp_iff_not_or]

theorem decodeRdreg_eq_illegal_iff :
    decodeRdreg w = .illegal ↔ field w 27 24 ≠ 0 ∨ field w 15 0 ≠ 0 ∨ 9 < field w 23 16 := by
  simp [decodeRdreg, regOfNumber_eq_none_iff, imp_iff_not_or, or_assoc]

theorem decodeBufw_ne_illegal : decodeBufw w ≠ .illegal := Decoded.noConfusion

theorem decodeBufr_eq_illegal_iff : decodeBufr w = .illegal ↔ field w 15 0 ≠ 0 := by
  simp [decodeBufr]

theorem decodeCbret_eq_illegal_iff : decodeCbret w = .illegal ↔ field w 27 2 ≠ 0 ∨ field w 1 0 = 0 := by
  have hk : callbackOfCode (field w 1 0) = none ↔ field w 1 0 = 0 := callbackOfCode_eq_none_iff (BitVec.isLt _)
  simp [decodeCbret, hk, imp_iff_not_or]

theorem decodeLfsm_eq_illegal_iff : decodeLfsm w = .illegal ↔ field w 23 0 ≠ 0 ∨ 0xB < field w 27 24 := by
  simp [decodeLfsm, lfsmOfSub_eq_none_iff, imp_iff_not_or]

theorem decodeTch_eq_illegal_iff : decodeTch w = .illegal ↔ field w 23 0 ≠ 0 ∨ 0x6 < field w 27 24 := by
  simp [decodeTch, tchOfSub_eq_none_iff, imp_iff_not_or]

end

/-! ### The decoder reads an encoded operation back -/

theorem decode_encode_tick {n : BitVec 16} (hn : (Instr.tick n).wellFormed = true) :
    decode (encode (.tick n)) = .operation (.tick n) := by
  obtain ⟨hopc, hz, hd⟩ := encode_tick_eq_iff.1 (Eq.refl (encode (.tick n)))
  have hne : field (encode (.tick n)) 15 0 ≠ 0 := hd ▸ wellFormed_tick_iff.1 hn
  rw [decode, hopc]
  simp [decodeTick, hz, hne, BitVec.eq_of_toNat_eq hd]

theorem decode_encode_wrctrl {d : BitVec 16} (hd : (Instr.wrctrl d).wellFormed = true) :
    decode (encode (.wrctrl d)) = .operation (.wrctrl d) := by
  obtain ⟨hopc, hz, hf⟩ := encode_wrctrl_eq_iff.1 (Eq.refl (encode (.wrctrl d)))
  rw [decode, hopc]
  simp [decodeWrctrl, field_27_3_eq_zero_iff, hz, (wellFormed_wrctrl_iff hf).1 hd, BitVec.eq_of_toNat_eq hf]

theorem decode_encode_rdreg (r : Reg) : decode (encode (.rdreg r)) = .operation (.rdreg r) := by
  obtain ⟨hopc, hz, hr, hz'⟩ := encode_rdreg_eq_iff.1 (Eq.refl (encode (.rdreg r)))
  rw [decode, hopc]
  simp [decodeRdreg, hz, hr, hz', regOfNumber_number]

theorem decode_encode_bufw (b : Bool) (j : BitVec 11) (v : BitVec 16) :
    decode (encode (.bufw b j v)) = .operation (.bufw b j v) := by
  obtain ⟨hopc, hb, hj, hv⟩ := encode_bufw_eq_iff.1 (Eq.refl (encode (.bufw b j v)))
  rw [decode, hopc]
  simp only [decodeBufw, bit_of_field hb, BitVec.eq_of_toNat_eq hj, BitVec.eq_of_toNat_eq hv]

theorem decode_encode_bufr (b : Bool) (j : BitVec 11) : decode (encode (.bufr b j)) = .operation (.bufr b j) := by
  obtain ⟨hopc, hb, hj, hz⟩ := encode_bufr_eq_iff.1 (Eq.refl (encode (.bufr b j)))
  rw [decode, hopc]
  simp only [decodeBufr, bit_of_field hb, BitVec.eq_of_toNat_eq hj, hz, if_pos]

theorem decode_encode_cbret (k : Callback) : decode (encode (.cbret k)) = .operation (.cbret k) := by
  obtain ⟨hopc, hz, hk⟩ := encode_cbret_eq_iff.1 (Eq.refl (encode (.cbret k)))
  rw [decode, hopc]
  simp [decodeCbret, hz, hk, callbackOfCode_code]

end Sys2Proof

namespace Sys2Proof.Machine

/-! ### Words the stream refuses (R150, R151) -/

section
variable {s u : State} {w : Word} {rest : List Word} {why : Reason}

/-- A word that spells no operation (R150). -/
theorem fetchStream_illegal (ht : s.ticksLeft = 0) (hw : s.stream = w :: rest) (hd : decode w = .illegal) :
    fetchStream s = refuse .illegal s := by
  rw [fetchStream, if_neg (not_not.2 ht), hw]
  simp only [hd]

/-- A class S word (R151). -/
theorem fetchStream_seqWord {i : Instr} (ht : s.ticksLeft = 0) (hw : s.stream = w :: rest)
    (hd : decode w = .operation i) (hc : i.opClass = .sequencer) : fetchStream s = refuse .seqWord s := by
  rw [fetchStream, if_neg (not_not.2 ht), hw]
  simp only [hd, if_pos hc]

/-- A step whose fetch refuses refuses the same. -/
theorem step_of_nextOp_refuse (h : nextOp s = refuse why u) : step s = refuse why u := by
  rw [step, h]
  rfl

/-- A word the stream's fetch refuses in every state is refused by every step in which the stream has the turn. -/
theorem step_refuses_of_fetchStream (hs : Safety.CanStep s) (ht : s.ticksLeft = 0) (hw : s.stream = w :: rest)
    (hfetch : ∀ v : State, v.ticksLeft = 0 → v.stream = w :: rest → fetchStream v = refuse why v) :
    (sequencerOp s = none → step s = refuse why s) ∧
    (∀ u, sequencerOp s ≠ none → drawTurn s = (.stream, u) → step s = refuse why u) := by
  constructor
  · intro hq
    exact step_of_nextOp_refuse ((nextOp_of_sequencerOp_none hs hq).trans (hfetch s ht hw))
  · intro u hq hturn
    obtain ⟨hticks, hstream⟩ := stream_of_drawTurn hturn
    have hb : streamBusy s = true := by simp [streamBusy, hw]
    exact step_of_nextOp_refuse
      ((nextOp_of_streamTurn hs hq hb hturn).trans (hfetch u (hticks.trans ht) (hstream.trans hw)))

end

end Sys2Proof.Machine

namespace Sys2Proof.Proofs

open Sys2Proof.Machine Sys2Proof.Safety

/-- Settles O1: each format's fields are read back from its word; the words without operands are single words. -/
theorem decodeOfEncodeIsTheOperation : Obligations.DecodeOfEncodeIsTheOperation := by
  intro i hi
  cases i with
  | tick n => exact decode_encode_tick hi
  | wrctrl d => exact decode_encode_wrctrl hi
  | rdreg r => exact decode_encode_rdreg r
  | bufw b j v => exact decode_encode_bufw b j v
  | bufr b j => exact decode_encode_bufr b j
  | cbret k => exact decode_encode_cbret k
  | _ => rfl

/-- Settles O2: for each opcode, the fields its decoder has checked are all the fields of the word. -/
theorem encodeOfDecodeIsTheWord : Obligations.EncodeOfDecodeIsTheWord := by
  intro w i h
  unfold decode at h
  split at h
  case h_1 => exact encode_of_decodeNop h
  case h_2 hopc => exact encode_of_decodeTick hopc h
  case h_3 hopc => exact encode_of_decodeWrctrl hopc h
  case h_4 hopc => exact encode_of_decodeRdreg hopc h
  case h_5 hopc => exact encode_of_decodeBufw hopc h
  case h_6 hopc => exact encode_of_decodeBufr hopc h
  case h_7 hopc => exact encode_of_decodeCbret hopc h
  case h_8 hopc => exact encode_of_decodeLfsm hopc h
  case h_9 hopc => exact encode_of_decodeTch hopc h
  case h_10 => cases h

/-- Settles O4: each opcode's decoder answers `ILLEGAL` for R150's words of that opcode, and the stream's fetch refuses
what the decoder finds illegal. -/
theorem illegalWordsAreTheListedOnesAndRefuse : Obligations.IllegalWordsAreTheListedOnesAndRefuse := by
  refine ⟨fun w => ?words, fun s w rest hs ht hw hd => ?refuses⟩
  case words =>
    unfold decode
    split
    case h_1 hopc => simp [hopc, decodeNop_eq_illegal_iff hopc]
    case h_2 hopc => simp [hopc, decodeTick_eq_illegal_iff]
    case h_3 hopc => simp [hopc, decodeWrctrl_eq_illegal_iff]
    case h_4 hopc => simp [hopc, decodeRdreg_eq_illegal_iff]
    case h_5 hopc => simp [hopc, decodeBufw_ne_illegal]
    case h_6 hopc => simp [hopc, decodeBufr_eq_illegal_iff]
    case h_7 hopc => simp [hopc, decodeCbret_eq_illegal_iff]
    case h_8 hopc => simp [hopc, decodeLfsm_eq_illegal_iff]
    case h_9 hopc => simp [hopc, decodeTch_eq_illegal_iff]
    case h_10 =>
      have hlt : field w 31 28 < 16 := BitVec.isLt _
      have hreserved : 0x7 ≤ field w 31 28 ∧ field w 31 28 ≤ 0xD := by grind
      simp [hreserved]
  case refuses => exact step_refuses_of_fetchStream hs ht hw fun v hv hvw => fetchStream_illegal hv hvw hd

/-- Settles O3: the decoder computes each word's row of the table. -/
theorem specWordsDecodeAsWritten : Obligations.SpecWordsDecodeAsWritten := by
  unfold Obligations.SpecWordsDecodeAsWritten
  decide

/-- Settles O7: the stream's fetch refuses a class S word wherever the stream has the turn. -/
theorem sequencerWordFromTheHostIsRefused : Obligations.SequencerWordFromTheHostIsRefused :=
  fun _ _ _ _ hs ht hw hd hc =>
    step_refuses_of_fetchStream hs ht hw fun _ hv hvw => fetchStream_seqWord hv hvw hd hc

end Sys2Proof.Proofs

namespace Sys2Proof.Machine

/-! ### One tick of a running generator, sub-step by sub-step (R200)

`countTick` and `triggered` name the states between the sub-steps: after the count and the period start, and after the trigger.
Between them stands `pseClock`, and after them `tickEnd`. -/

/-- The count and the period start of a tick that meets its deadline (R202, R203). -/
def countTick (s : State) : State :=
  { s with
    hcnt := BitVec.ofNat 16 (nextHcnt s)
    lineFlag := if nextHcnt s = 0 then true else s.lineFlag
    linePend := if nextHcnt s = 0 ∧ s.lineIe = true then true else s.linePend }

/-- The trigger of a tick at count `h`, where it finds no streaming engine (R232). -/
def triggered (h : Nat) (s : State) : State :=
  if h = s.cfg.triggerOffset ∧ s.arm = .armed then startStreaming s else s

/-- The flag-clear sub-step as one update of the state: a pending clear takes effect or not (R206). -/
theorem flagClearTick_eq (s : State) :
    flagClearTick s =
      { s with
        tcFlag := s.tcFlag && !(s.tcClrPend && (drawBit s).1)
        tcClrPend := s.tcClrPend && !(drawBit s).1
        draws := if s.tcClrPend then (drawWord s).2.draws else s.draws
        drawn := if s.tcClrPend then (drawWord s).2.drawn else s.drawn } := by
  obtain ⟨d, n, h⟩ : ∃ d n, (drawWord s).2 = { s with draws := d, drawn := n } := ⟨_, _, drawWord_only s⟩
  unfold flagClearTick
  simp only [clearTc, drawBit_snd, h]
  cases hp : s.tcClrPend
  case false =>
    have hkept : s = { s with tcClrPend := false } := by rw [← hp]
    simpa using hkept
  case true => cases hb : (drawBit s).1 <;> simp

/-- The end of a tick as one update of the state: the flag clear, and the line's duration (R206, R207). -/
theorem tickEnd_eq (s : State) :
    tickEnd s =
      { s with
        tcFlag := s.tcFlag && !(s.tcClrPend && (drawBit s).1)
        tcClrPend := s.tcClrPend && !(drawBit s).1
        lineTicks := if s.lfsmActive = true ∧ s.lineTicks ≠ BitVec.allOnes 32 then s.lineTicks + 1 else s.lineTicks
        draws := if s.tcClrPend then (drawWord s).2.draws else s.draws
        drawn := if s.tcClrPend then (drawWord s).2.drawn else s.drawn } := by
  rw [tickEnd, flagClearTick_eq, countLineTick]
  by_cases hl : s.lfsmActive = true <;> by_cases hm : s.lineTicks = BitVec.allOnes 32 <;> simp [hl, hm]

/-- The diagnostics count is incremented up to `2^32 - 1` (R207). -/
theorem toNat_saturating_succ (x : BitVec 32) :
    (if x ≠ BitVec.allOnes 32 then x + 1 else x).toNat = min (x.toNat + 1) (2 ^ 32 - 1) := by
  by_cases hmax : x = BitVec.allOnes 32
  · simp [hmax]
  · have hne : x.toNat ≠ 2 ^ 32 - 1 := by
      rw [← BitVec.toNat_allOnes]
      exact mt BitVec.eq_of_toNat_eq hmax
    rw [if_pos hmax, BitVec.toNat_add_of_lt (by simp; omega)]
    change x.toNat + 1 = _
    omega

section
variable {s t u v : State} {h : Nat}

/-! #### What each sub-step leaves -/

/-- The counter takes values below `H_PERIOD` (R46, R202). -/
theorem nextHcnt_lt (hc : configOk s.cfg = true) : nextHcnt s < s.cfg.hPeriod := by
  obtain ⟨⟨hperiod, -⟩, -⟩ := configOk_iff.1 hc
  exact Nat.mod_lt _ (by omega)

/-- Every value of the counter fits its 16 bits (R9 item (1)). -/
theorem toNat_ofNat_nextHcnt (hc : configOk s.cfg = true) : (BitVec.ofNat 16 (nextHcnt s)).toNat = nextHcnt s := by
  obtain ⟨⟨-, hperiod⟩, -⟩ := configOk_iff.1 hc
  have := nextHcnt_lt hc
  exact Nat.mod_eq_of_lt (by omega)

/-- A stopped pixel clock does nothing (R233). -/
theorem pseClock_of_stopped (hp : s.pclkRun = false) : pseClock s = .next s := by
  rw [pseClock, hp]
  rfl

/-- With the transfer disabled the pixel clock moves its divider only (R236). -/
theorem pseClock_of_disabled (hv : pseClock u = .next v) (hx : u.xferEn = false) : v = { u with pdiv := v.pdiv } := by
  rcases pseClock_cases hv with ⟨-, rfl⟩ | ⟨-, -, rfl⟩ | ⟨-, -, -, rfl⟩ | ⟨-, -, hx', -⟩
  · rfl
  · rfl
  · rfl
  · simp [hx] at hx'

/-- The pixel clock sets the completion flag or leaves it (R235). -/
theorem tcFlag_of_pseClock (hv : pseClock u = .next v) (hf : u.tcFlag = true) : v.tcFlag = true := by
  rcases pseClock_cases hv with ⟨-, rfl⟩ | ⟨-, -, rfl⟩ | ⟨-, -, -, rfl⟩ | ⟨-, -, -, -, rfl⟩
  · exact hf
  · exact hf
  · exact hf
  · simp [movePixel_eq, hf]

theorem cfg_arm_of_pseClock (hv : pseClock u = .next v) : v.cfg = u.cfg ∧ v.arm = u.arm := by
  rw [pseClock_only hv]
  exact ⟨rfl, rfl⟩

/-- Away from the trigger point nothing is triggered. -/
theorem triggered_of_ne (hn : h ≠ s.cfg.triggerOffset) : triggered h s = s := by
  simp [triggered, hn]

/-- An idle engine is not triggered (R232). -/
theorem triggered_of_idle (ha : s.arm = .idle) : triggered h s = s := by
  simp [triggered, ha]

/-- The trigger writes the engine's state, its clock and the divider only (R232). -/
theorem triggered_only (h : Nat) (s : State) :
    triggered h s = { s with
      arm := (triggered h s).arm, pclkRun := (triggered h s).pclkRun, pdiv := (triggered h s).pdiv } := by
  unfold triggered
  split <;> rfl

/-- The pixel clock and the trigger write only the engine's fields and the completion's flags (R238). -/
theorem triggered_pseClock_only (hv : pseClock u = .next v) :
    triggered h v = { u with
      arm := (triggered h v).arm, pclkRun := (triggered h v).pclkRun, pdiv := (triggered h v).pdiv
      out := v.out, xidx := v.xidx, xferEn := v.xferEn, tcFlag := v.tcFlag, tcPend := v.tcPend
      draws := v.draws, drawn := v.drawn } := by
  rw [triggered_only, pseClock_only hv]

/-! #### The tick, put together -/

/-- A tick that meets its deadline is the count and the period start, and then the engine's part. -/
theorem tickRunning_of_deadlineMet (hd : nextHcnt s = 0 → ¬DeadlineMissed s) :
    tickRunning s = tickEngine (nextHcnt s) (countTick s) := by
  unfold tickRunning
  by_cases h0 : nextHcnt s = 0
  · have hlatch : latchLine { s with hcnt := BitVec.ofNat 16 (nextHcnt s) } = countTick s := by
      simp [latchLine, countTick, h0]
    rw [if_pos h0, if_neg (hd h0), hlatch]
  · have hcount : countTick s = { s with hcnt := BitVec.ofNat 16 (nextHcnt s) } := by simp [countTick, h0]
    rw [if_neg h0, hcount]

/-- A tick that misses its deadline faults (R203). -/
theorem tickRunning_of_deadlineMissed (h0 : nextHcnt s = 0) (hd : DeadlineMissed s) :
    tickRunning s = .next (raiseFault .deadlineMiss { s with hcnt := 0 }) := by
  rw [tickRunning, if_pos h0, if_pos hd, h0]
  rfl

/-- Where the pixel clock answers and the trigger finds no streaming engine, the tick goes to its end. -/
theorem tickEngine_of_pseClock (hv : pseClock u = .next v) (ha : h = v.cfg.triggerOffset → v.arm ≠ .streaming) :
    tickEngine h u = .next (tickEnd (triggered h v)) := by
  simp only [tickEngine, hv]
  by_cases ht : h = v.cfg.triggerOffset
  · cases harm : v.arm with
    | idle => simp [ht, triggered, pseTrigger, harm]
    | armed => simp [ht, triggered, pseTrigger, harm]
    | streaming => exact absurd harm (ha ht)
  · rw [if_neg ht, triggered_of_ne ht]

/-- Before start a tick changes nothing (R201). -/
theorem tick1_of_stopped (hr : s.run = false) : tick1 s = .next s := by
  rw [tick1, hr]
  rfl

theorem tick1_of_running (hr : s.run = true) : tick1 s = tickRunning s := if_pos hr

/-- A tick that answers a next state is one of a stopped or of a running generator. -/
theorem tick1_cases (ht : tick1 s = .next t) : t = s ∨ tickRunning s = .next t := by
  cases hr : s.run with
  | false => rw [tick1_of_stopped hr] at ht; cases ht; exact .inl rfl
  | true => rw [tick1_of_running hr] at ht; exact .inr ht

/-- A tick with no violation goes to its end. -/
theorem tick1_of_tickClear (hs : Safety.TickClear s) :
    ∃ v, pseClock (countTick s) = .next v ∧ tick1 s = .next (tickEnd (triggered (nextHcnt s) v)) := by
  obtain ⟨⟨hr, hd, hx⟩, ha⟩ := hs
  obtain ⟨v, hv⟩ := pseClock_total (s := countTick s) hx
  have hfit : nextHcnt s = v.cfg.triggerOffset → v.arm ≠ .streaming := by
    obtain ⟨hcfg, harm⟩ := cfg_arm_of_pseClock hv
    rw [hcfg, harm]
    exact ha
  exact ⟨v, hv, by rw [tick1_of_running hr, tickRunning_of_deadlineMet hd, tickEngine_of_pseClock hv hfit]⟩

/-- With the engine idle and its clock stopped a tick that meets its deadline counts, and ends. -/
theorem tick1_of_idle (hr : s.run = true) (ha : s.arm = .idle) (hp : s.pclkRun = false)
    (hd : nextHcnt s = 0 → ¬DeadlineMissed s) : tick1 s = .next (tickEnd (countTick s)) := by
  have ha' : (countTick s).arm = .idle := ha
  have hv : pseClock (countTick s) = .next (countTick s) := pseClock_of_stopped hp
  rw [tick1_of_running hr, tickRunning_of_deadlineMet hd, tickEngine_of_pseClock hv (fun _ => by simp [ha']),
    triggered_of_idle ha']

/-- Everything a running tick can do: it faults at the period start, goes to its end, or faults at the trigger. -/
theorem tickRunning_outcomes (ht : tickRunning s = .next t) :
    (nextHcnt s = 0 ∧ t = raiseFault .deadlineMiss { s with hcnt := 0 }) ∨
    ∃ v, pseClock (countTick s) = .next v ∧
      (t = tickEnd (triggered (nextHcnt s) v) ∨ t = raiseFault .triggerWhileStreaming v) := by
  rcases tickRunning_cases ht with ⟨h0, -, rfl⟩ | ⟨u, v, hu, -, hv, hcases⟩
  · exact .inl ⟨h0, rfl⟩
  have hcount : u = countTick s := by
    rw [hu]
    split <;> simp_all [countTick, latchLine]
  rw [hcount] at hv
  refine .inr ⟨v, hv, ?_⟩
  obtain ⟨hcfg, harm⟩ : v.cfg = s.cfg ∧ v.arm = s.arm := cfg_arm_of_pseClock (u := countTick s) hv
  rcases hcases with ⟨hn, rfl⟩ | ⟨-, ha, rfl⟩ | ⟨hn, ha, rfl⟩ | ⟨-, -, rfl⟩
  · exact .inl (by rw [triggered_of_ne (by rwa [hcfg])])
  · exact .inl (by rw [triggered_of_idle (harm.trans ha)])
  · exact .inl (by simp [triggered, hcfg, harm, hn, ha])
  · exact .inr rfl

/-- Every running tick moves the counter on, also where it faults (R202). -/
theorem hcnt_of_tickRunning (ht : tickRunning s = .next t) : t.hcnt = BitVec.ofNat 16 (nextHcnt s) := by
  rcases tickRunning_outcomes ht with ⟨h0, rfl⟩ | ⟨v, hv, rfl | rfl⟩
  · simp [h0]
  · rw [tickEnd_only, triggered_pseClock_only hv]; rfl
  · rw [pseClock_only hv]; rfl

/-- Away from a period start no tick writes the line interrupt (R203). -/
theorem lineIrq_of_tick1 (ht : tick1 s = .next t) (hn : nextHcnt s ≠ 0) :
    t.lineFlag = s.lineFlag ∧ t.linePend = s.linePend := by
  rcases tick1_cases ht with rfl | ht
  · exact ⟨rfl, rfl⟩
  have hcount : (countTick s).lineFlag = s.lineFlag ∧ (countTick s).linePend = s.linePend := by simp [countTick, hn]
  rcases tickRunning_outcomes ht with ⟨h0, -⟩ | ⟨v, hv, rfl | rfl⟩
  · exact absurd h0 hn
  · rw [tickEnd_only, triggered_pseClock_only hv]; exact hcount
  · rw [pseClock_only hv]; exact hcount

/-- Away from the trigger point no tick writes the engine's state or its clock (R232). -/
theorem engine_of_tick1 (ht : tick1 s = .next t) (hn : nextHcnt s ≠ s.cfg.triggerOffset) :
    t.arm = s.arm ∧ t.pclkRun = s.pclkRun := by
  rcases tick1_cases ht with rfl | ht
  · exact ⟨rfl, rfl⟩
  rcases tickRunning_outcomes ht with ⟨-, rfl⟩ | ⟨v, hv, rfl | rfl⟩
  · exact ⟨rfl, rfl⟩
  · obtain ⟨hcfg, -⟩ : v.cfg = s.cfg ∧ v.arm = s.arm := cfg_arm_of_pseClock (u := countTick s) hv
    rw [triggered_of_ne (by rwa [hcfg]), tickEnd_only, pseClock_only hv]; exact ⟨rfl, rfl⟩
  · rw [pseClock_only hv]; exact ⟨rfl, rfl⟩

/-! #### `TICK n` -/

/-- `TICK n` answers a next state exactly where its one tick does, in a live state, for the `n` a word spells. -/
theorem exec_tick_next_iff {n : BitVec 16} :
    exec (.tick n) s = .next t ↔
      Safety.Live s ∧ n ≠ 0 ∧ ∃ u, tick1 s = .next u ∧ t = { u with ticksLeft := n - 1 } := by
  change live s _ = _ ↔ _
  rw [live_next_iff]
  refine and_congr_right fun _ => ?_
  by_cases hn : n = 0
  · simp [hn]
  · rw [if_neg hn, mapState_next_iff]
    simp only [ne_eq, hn, not_false_eq_true, true_and]

theorem exec_tick_of_tick1 {n : BitVec 16} (hs : Safety.Live s) (hn : n ≠ 0) (hu : tick1 s = .next u) :
    exec (.tick n) s = .next { u with ticksLeft := n - 1 } :=
  exec_tick_next_iff.2 ⟨hs, hn, u, hu, rfl⟩

/-- No operation stops the generator: once it runs, `WRCTRL` is refused (R341). -/
theorem run_of_exec {i : Instr} (ht : exec i s = .next t) (hr : s.run = true) : t.run = true := by
  by_contra hstop
  obtain ⟨-, -, -, -, hrun, -⟩ := Proofs.everyFieldHasItsWriters i s t ht
  obtain ⟨d, rfl⟩ := hrun (.inl fun hsame => hstop (hsame.trans hr))
  obtain ⟨-, ht⟩ := live_next_iff.1 ht
  rw [if_pos hr] at ht
  split at ht <;> cases ht

/-! #### Consecutive ticks -/

/-- One more tick after `k` ticks. -/
theorem ticks_succ_of_ticks {k : Nat} (ht : Safety.ticks k s = .next t) : Safety.ticks (k + 1) s = tick1 t := by
  induction k generalizing s with
  | zero =>
    cases ht
    simp only [Safety.ticks]
    cases tick1 t <;> rfl
  | succ k ih =>
    rw [Safety.ticks] at ht ⊢
    cases hu : tick1 s with
    | next u => rw [hu] at ht; exact ih ht
    | fault r => rw [hu] at ht; cases ht
    | refused r => rw [hu] at ht; cases ht

/-- With the engine idle and its clock stopped, ticks inside one period count, and write nothing else but the completion's
clear and the diagnostics. -/
theorem ticks_of_idle {k : Nat} (hr : s.run = true) (ha : s.arm = .idle) (hp : s.pclkRun = false)
    (hk : s.hcnt.toNat + k < s.cfg.hPeriod) (hperiod : s.cfg.hPeriod ≤ 65536) :
    ∃ t, Safety.ticks k s = .next t ∧
      t = { s with
        hcnt := BitVec.ofNat 16 (s.hcnt.toNat + k), tcFlag := t.tcFlag, tcClrPend := t.tcClrPend
        lineTicks := t.lineTicks, draws := t.draws, drawn := t.drawn } := by
  induction k with
  | zero => exact ⟨s, rfl, by simp⟩
  | succ k ih =>
    obtain ⟨t, ht, hts⟩ := ih (by omega)
    obtain ⟨hcfg, hrun, harm, hclk, hcnt⟩ : t.cfg = s.cfg ∧ t.run = true ∧ t.arm = .idle ∧ t.pclkRun = false ∧
        t.hcnt = BitVec.ofNat 16 (s.hcnt.toNat + k) := by
      rw [hts]; exact ⟨rfl, hr, ha, hp, rfl⟩
    have hnext : nextHcnt t = s.hcnt.toNat + (k + 1) := by
      rw [nextHcnt, hcnt, hcfg, BitVec.toNat_ofNat, Nat.mod_eq_of_lt (by omega), Nat.mod_eq_of_lt (by omega)]
      rfl
    have hne : nextHcnt t ≠ 0 := by omega
    have hcount : countTick t = { t with hcnt := BitVec.ofNat 16 (s.hcnt.toNat + (k + 1)) } := by
      simp [countTick, hnext]
    have htick : tick1 t = .next (tickEnd (countTick t)) := tick1_of_idle hrun harm hclk fun h0 => absurd h0 hne
    refine ⟨tickEnd (countTick t), (ticks_succ_of_ticks ht).trans htick, ?_⟩
    rw [tickEnd_only, hcount, hts]

end

end Sys2Proof.Machine

namespace Sys2Proof.Proofs

open Sys2Proof.Machine Sys2Proof.Safety

/-- Settles O20: a tick answers the state itself before start, and the invariant's stopped states have an idle engine. -/
theorem tickBeforeStartChangesNothing : Obligations.TickBeforeStartChangesNothing := by
  intro s n hs hn hr
  refine ⟨exec_tick_of_tick1 hs hn (tick1_of_stopped hr), fun hinv => ?_⟩
  obtain ⟨-, harm, -⟩ := hinv.stopped hr
  obtain ⟨hclk, hxfer, -⟩ := hinv.engine
  exact ⟨harm, Bool.eq_false_iff.2 fun hx => (hxfer hx).1 harm, by simp [← Bool.not_eq_true, hclk, harm]⟩

/-- Settles O21: every outcome of a running tick has the next count, and only a tick writes it; only `WRCTRL` writes `run`,
and it is refused once the generator runs. -/
theorem tickCountsModuloThePeriod : Obligations.TickCountsModuloThePeriod := by
  refine ⟨fun s t n hr h => ?tick, fun i s t h => ⟨fun hi => ?other, run_of_exec h⟩⟩
  case tick =>
    obtain ⟨⟨hc, -⟩, -, u, hu, rfl⟩ := exec_tick_next_iff.1 h
    rw [tick1_of_running hr] at hu
    refine ⟨?_, rfl⟩
    change u.hcnt.toNat = nextHcnt s
    rw [hcnt_of_tickRunning hu, toNat_ofNat_nextHcnt hc]
  case other =>
    obtain ⟨-, -, -, -, -, hcnt, -⟩ := everyFieldHasItsWriters i s t h
    by_contra hne
    obtain ⟨n, rfl⟩ := hcnt (.inl hne)
    exact hi n rfl

/-- Settles O22: the tick goes to its end, where the duration is counted; before it only the count writes the counter and
nothing writes the fault record. -/
theorem tickCompletesAndCountsTheLineDuration : Obligations.TickCompletesAndCountsTheLineDuration := by
  intro s n hs hn hclear
  obtain ⟨v, hv, ht⟩ := tick1_of_tickClear hclear
  refine ⟨_, exec_tick_of_tick1 hs hn ht, ?_⟩
  obtain ⟨hfault, hcnt, hactive, hticks⟩ :
      (triggered (nextHcnt s) v).fault = s.fault ∧
      (triggered (nextHcnt s) v).hcnt = BitVec.ofNat 16 (nextHcnt s) ∧
      (triggered (nextHcnt s) v).lfsmActive = s.lfsmActive ∧ (triggered (nextHcnt s) v).lineTicks = s.lineTicks := by
    rw [triggered_pseClock_only hv]; exact ⟨rfl, rfl, rfl, rfl⟩
  obtain ⟨hc, hf⟩ := hs
  simp only [tickEnd_eq, hfault, hcnt, hactive, hticks]
  refine ⟨hf, toNat_ofNat_nextHcnt hc, trivial, fun hl => ?counts, fun hl => by simp [hl]⟩
  case counts =>
    simp only [hl, true_and]
    exact toNat_saturating_succ s.lineTicks

/-- Settles O23: a missed deadline is the fault of the period start; else the tick goes to its end, a period start being no
trigger point, and the latched flag stays. -/
theorem periodStartLatchesOrFaults : Obligations.PeriodStartLatchesOrFaults := by
  intro s n hs hn hr h0
  obtain ⟨hc, hf⟩ := hs
  refine ⟨fun hd => ?missed, fun hruns => ?latched⟩
  case missed =>
    have ht := (tick1_of_running hr).trans (tickRunning_of_deadlineMissed h0 hd)
    rw [exec_tick_of_tick1 ⟨hc, hf⟩ hn ht, raiseFault]
    simp [hf, faultBit]
  case latched =>
    obtain ⟨-, -, ⟨htrig, -⟩, -⟩ := configOk_iff.1 hc
    obtain ⟨v, hv, ht⟩ := tick1_of_tickClear ⟨hruns, fun h => absurd h (by omega)⟩
    refine ⟨_, exec_tick_of_tick1 ⟨hc, hf⟩ hn ht, ?_⟩
    rw [tickEnd_only, triggered_pseClock_only hv]
    simp +contextual [countTick, h0]

/-- Settles O27: the tick's end draws where a clear is pending; before it the flag is at most set, and with the transfer
disabled neither the flag nor the free inputs are touched. -/
theorem pendingClearTakesEffectAtADraw : Obligations.PendingClearTakesEffectAtADraw := by
  intro s n hs hn hclear
  obtain ⟨v, hv, ht⟩ := tick1_of_tickClear hclear
  refine ⟨_, exec_tick_of_tick1 hs hn ht, ?_⟩
  obtain ⟨hpend, hvflag, hvdraws, hvdrawn⟩ :
      (triggered (nextHcnt s) v).tcClrPend = s.tcClrPend ∧ (triggered (nextHcnt s) v).tcFlag = v.tcFlag ∧
      (triggered (nextHcnt s) v).draws = v.draws ∧ (triggered (nextHcnt s) v).drawn = v.drawn := by
    rw [triggered_pseClock_only hv]; exact ⟨rfl, rfl, rfl, rfl⟩
  have hset : s.tcFlag = true → v.tcFlag = true := tcFlag_of_pseClock (u := countTick s) hv
  have hstill : s.xferEn = false → v.tcFlag = s.tcFlag ∧ v.draws = s.draws ∧ v.drawn = s.drawn := fun hx => by
    rw [pseClock_of_disabled hv hx]; exact ⟨rfl, rfl, rfl⟩
  simp only [tickEnd_eq, hpend, hvflag, hvdraws, hvdrawn]
  refine ⟨fun hp => ?none, fun hp => ⟨(drawBit (triggered (nextHcnt s) v)).1, ?taken, ?kept, fun hx => ?listed⟩⟩
  case none => simpa [hp] using ⟨hset, hstill⟩
  case taken => simp +contextual [hp]
  case kept => simpa +contextual [hp] using fun _ => hset
  case listed =>
    obtain ⟨hflag, hdraws, hdrawn⟩ := hstill hx
    refine ⟨fun hb => by simp [hb, hflag], fun x rest hlist => ?_⟩
    have hcons : (triggered (nextHcnt s) v).draws = x :: rest := by rw [hvdraws, hdraws, hlist]
    simp [hp, drawBit, drawWord, hcons, hvdrawn, hdrawn]

/-- Settles O28: a tick writes the fields `tickWritten` names, and the memory is none of them; the period start alone writes
the line interrupt, and the trigger alone the engine's state. -/
theorem tickFrame : Obligations.TickFrame := by
  intro s t n h
  have hframe : t = tickWritten s t := exec_written h
  have hmem : t.mem = s.mem := by rw [hframe]; rfl
  have hcfg : t.cfg = s.cfg := by rw [hframe]; rfl
  refine ⟨hframe, ?_, ?_, fun _ _ => cell_congr hmem hcfg⟩ <;> obtain ⟨-, -, u, hu, rfl⟩ := exec_tick_next_iff.1 h
  · exact lineIrq_of_tick1 (t := u) hu
  · exact engine_of_tick1 (t := u) hu

/-- Settles O30: the ticks before the last stay inside the period and count; the `H_PERIOD`-th is the period start, and
latches. -/
theorem firstLineInterruptAfterStart : Obligations.FirstLineInterruptAfterStart := by
  rintro s k ⟨hc, hf⟩ ⟨hr, ha, hp, hl, hflag, hpend⟩ h0 hie hk
  obtain ⟨⟨hperiod, hperiod'⟩, -⟩ := configOk_iff.1 hc
  have hcnt : s.hcnt.toNat = 0 := by rw [h0]; rfl
  rcases Nat.lt_or_eq_of_le hk with hk | rfl
  case inl =>
    obtain ⟨t, ht, hts⟩ := ticks_of_idle (k := k) hr ha hp (by omega) hperiod'
    refine ⟨t, ht, ?_⟩
    rw [hts]
    have hmod : k % 65536 = k := Nat.mod_eq_of_lt (by omega)
    simp [hf, ha, hflag, hpend, hcnt, hk.ne, Nat.mod_eq_of_lt hk, hmod]
  case inr =>
    obtain ⟨k, hk⟩ : ∃ k, s.cfg.hPeriod = k + 1 := ⟨s.cfg.hPeriod - 1, by omega⟩
    obtain ⟨t, ht, hts⟩ := ticks_of_idle (k := k) hr ha hp (by omega) hperiod'
    have hnext : nextHcnt t = 0 := by
      have hmod : k % 65536 = k := Nat.mod_eq_of_lt (by omega)
      rw [hts]
      simp [nextHcnt, hcnt, hk, hmod]
    have htick : tick1 t = .next (tickEnd (countTick t)) := by
      rw [hts]
      exact tick1_of_idle hr ha hp fun _ => by simp [hl, hflag]
    refine ⟨_, by rw [hk, ticks_succ_of_ticks ht, htick], ?_⟩
    rw [tickEnd_only]
    simp only [countTick, hnext]
    rw [hts]
    simp [hf, ha, hie]

end Sys2Proof.Proofs

namespace Sys2Proof.Machine

/-! ### The pixel engine in a tick (R230 to R238) -/

/-- What a tick of `s` leaves in `t` of what its pixel clock left in `v`: the trigger of an armed engine touches only the
engine's state, its clock and the divider (R232), and the end of the tick only the completion flag (R206). -/
structure KeepsPixel (s v t : State) : Prop where
  port : t.out = v.out
  index : t.xidx = v.xidx
  enabled : t.xferEn = v.xferEn
  pending : t.tcPend = v.tcPend
  flag : s.tcClrPend = false → t.tcFlag = v.tcFlag
  clock : ¬(nextHcnt s = s.cfg.triggerOffset ∧ s.arm = .armed) → t.arm = s.arm ∧ t.pclkRun = s.pclkRun ∧ t.pdiv = v.pdiv

section
variable {s t u v : State}

@[simp] theorem countTick_cfg (s : State) : (countTick s).cfg = s.cfg := rfl
@[simp] theorem countTick_arm (s : State) : (countTick s).arm = s.arm := rfl
@[simp] theorem countTick_pclkRun (s : State) : (countTick s).pclkRun = s.pclkRun := rfl
@[simp] theorem countTick_pdiv (s : State) : (countTick s).pdiv = s.pdiv := rfl
@[simp] theorem countTick_out (s : State) : (countTick s).out = s.out := rfl
@[simp] theorem countTick_xidx (s : State) : (countTick s).xidx = s.xidx := rfl
@[simp] theorem countTick_xferEn (s : State) : (countTick s).xferEn = s.xferEn := rfl
@[simp] theorem countTick_tcFlag (s : State) : (countTick s).tcFlag = s.tcFlag := rfl
@[simp] theorem countTick_tcPend (s : State) : (countTick s).tcPend = s.tcPend := rfl

/-- A stopped pixel clock leaves the state as it is (R233). -/
theorem eq_of_pseClock_stopped (hv : pseClock u = .next v) (hp : u.pclkRun = false) : v = u := by
  rw [pseClock_of_stopped hp] at hv
  cases hv
  rfl

/-- The state in which a tick of `s` reaches an edge of the pixel clock (R233). -/
def edgeState (s : State) : State := { countTick s with pdiv := 0 }

@[simp] theorem edgeState_cfg (s : State) : (edgeState s).cfg = s.cfg := rfl
@[simp] theorem edgeState_xidx (s : State) : (edgeState s).xidx = s.xidx := rfl
@[simp] theorem edgeState_tcIe (s : State) : (edgeState s).tcIe = s.tcIe := rfl
@[simp] theorem edgeState_tcPend (s : State) : (edgeState s).tcPend = s.tcPend := rfl

/-- Between two edges the pixel clock counts (R233). -/
theorem pseClock_betweenEdges (hp : s.pclkRun = true) (hd : s.pdiv + 1 < s.cfg.pixelDiv) :
    pseClock s = .next { s with pdiv := s.pdiv + 1 } := by
  rw [pseClock, if_pos hp, if_pos hd]

/-- An edge of an enabled transfer moves a pixel (R234). -/
theorem pseClock_edge (hp : s.pclkRun = true) (hd : s.cfg.pixelDiv ≤ s.pdiv + 1) (hx : s.xferEn = true)
    (hi : s.xidx.toNat ≤ s.cfg.visiblePixels) : pseClock s = .next (movePixel { s with pdiv := 0 }) := by
  rw [pseClock, if_pos hp, if_neg (Nat.not_lt.2 hd), pseEdge, if_pos hx, if_pos hi]

/-- The index of an existing cell counts on without a wrap (R9 item (5)). -/
theorem toNat_xidx_succ (hc : configOk s.cfg = true) (hx : s.xidx.toNat ≤ s.cfg.visiblePixels) :
    (s.xidx + 1).toNat = s.xidx.toNat + 1 := by
  have := visiblePixels_lt_of_configOk hc
  exact BitVec.toNat_add_of_lt (by simp; omega)

/-- A pixel draw takes the low bits of the listed input (R104). -/
theorem toNat_drawPixel_of_listed {x : BitVec 16} {rest : List (BitVec 16)} (h : s.draws = x :: rest) :
    (drawPixel s).1.toNat = x.toNat % 2 ^ s.cfg.pixelBits := by
  have hle : x.toNat % 2 ^ s.cfg.pixelBits ≤ x.toNat := Nat.mod_le _ _
  simp only [drawPixel, drawWord, h, BitVec.toNat_ofNat]
  exact Nat.mod_eq_of_lt (by omega)

/-- The transfer goes on to the next cell (R234). -/
@[simp] theorem movePixel_xidx (s : State) : (movePixel s).xidx = s.xidx + 1 := by rw [movePixel_eq]

/-- One pixel moved writes the port, the index, the enable, the completion and the free inputs (R234, R235). -/
theorem movePixel_only (s : State) :
    movePixel s = { s with
      out := (movePixel s).out, xidx := (movePixel s).xidx, xferEn := (movePixel s).xferEn, tcFlag := (movePixel s).tcFlag
      tcPend := (movePixel s).tcPend, draws := (movePixel s).draws, drawn := (movePixel s).drawn } := by
  rw [movePixel_eq]

/-- The moved pixel is the cell's value (R234). -/
theorem movePixel_out_of_some {w : Pixel} (h : cell s s.src s.xidx.toNat = some w) : (movePixel s).out = w := by
  rw [movePixel_eq, memRead_some h]

/-- For an UNDEF cell the moved pixel is a draw (R104, R234). -/
theorem movePixel_out_of_none (h : cell s s.src s.xidx.toNat = none) : (movePixel s).out = (drawPixel s).1 := by
  rw [movePixel_eq, memRead_none h]

/-- The move of the `LEN`-th pixel completes the transfer (R235). -/
theorem movePixel_completes (h : (s.xidx + 1).toNat = len s.cfg) :
    (movePixel s).xferEn = false ∧ (movePixel s).tcFlag = true ∧ (movePixel s).tcPend = (s.tcIe || s.tcPend) := by
  rw [movePixel_eq]
  simp only [h, if_true, true_and]
  cases s.tcIe <;> rfl

/-- The move of an earlier pixel leaves the transfer enabled and the completion as it was (R234). -/
theorem movePixel_goesOn (h : (s.xidx + 1).toNat ≠ len s.cfg) :
    (movePixel s).xferEn = s.xferEn ∧ (movePixel s).tcFlag = s.tcFlag ∧ (movePixel s).tcPend = s.tcPend := by
  rw [movePixel_eq]
  simp only [h, false_and, if_false, and_self]

/-- A tick that finds a streaming engine at its trigger point faults there (R232). -/
theorem tick1_of_triggerFault (hs : Safety.TickRuns s) (hn : nextHcnt s = s.cfg.triggerOffset) (ha : s.arm = .streaming) :
    ∃ v, pseClock (countTick s) = .next v ∧ tick1 s = .next (raiseFault .triggerWhileStreaming v) := by
  obtain ⟨hr, hd, hx⟩ := hs
  obtain ⟨v, hv⟩ := pseClock_total (s := countTick s) hx
  obtain ⟨hcfg, harm⟩ := cfg_arm_of_pseClock hv
  refine ⟨v, hv, ?_⟩
  rw [tick1_of_running hr, tickRunning_of_deadlineMet hd, tickEngine, hv]
  simp only [hcfg, countTick_cfg, if_pos hn, pseTrigger, harm, countTick_arm, ha]

/-- The end of a tick that finds no clear pending counts the line's duration, and no more (R206, R207). -/
theorem tickEnd_of_noClear (hc : s.tcClrPend = false) : tickEnd s = { s with lineTicks := (tickEnd s).lineTicks } := by
  rw [tickEnd_eq]
  simp [hc]

/-- A tick past its period start answers, and the pixel clock's result stands in it. -/
theorem tick1_of_tickRuns (hs : Safety.TickRuns s) :
    ∃ v t, pseClock (countTick s) = .next v ∧ tick1 s = .next t ∧ KeepsPixel s v t := by
  by_cases hfault : nextHcnt s = s.cfg.triggerOffset ∧ s.arm = .streaming
  case pos =>
    obtain ⟨hn, ha⟩ := hfault
    obtain ⟨v, hv, ht⟩ := tick1_of_triggerFault hs hn ha
    obtain ⟨harm, hclk⟩ : v.arm = s.arm ∧ v.pclkRun = s.pclkRun := by rw [pseClock_only hv]; exact ⟨rfl, rfl⟩
    exact ⟨v, _, hv, ht, rfl, rfl, rfl, rfl, fun _ => rfl, fun _ => ⟨harm, hclk, rfl⟩⟩
  case neg =>
    obtain ⟨v, hv, ht⟩ := tick1_of_tickClear ⟨hs, fun hn ha => hfault ⟨hn, ha⟩⟩
    obtain ⟨hcfg, harm, hclk, hclr⟩ :
        v.cfg = s.cfg ∧ v.arm = s.arm ∧ v.pclkRun = s.pclkRun ∧ v.tcClrPend = s.tcClrPend := by
      rw [pseClock_only hv]; exact ⟨rfl, rfl, rfl, rfl⟩
    refine ⟨v, _, hv, ht, ?_⟩
    rw [tickEnd_eq, triggered_only]
    refine ⟨rfl, rfl, rfl, rfl, fun hc => by simp [hclr, hc], fun hn => ?_⟩
    have hstill : triggered (nextHcnt s) v = v := if_neg (by rwa [hcfg, harm])
    rw [hstill]
    exact ⟨harm, hclk, rfl⟩

end

end Sys2Proof.Machine

namespace Sys2Proof.Proofs

open Sys2Proof.Machine Sys2Proof.Safety

/-- Settles O24: at a streaming engine the tick ends in the trigger's fault; else it goes to its end, the trigger starting an
armed engine only. A stopped clock has moved no pixel before. -/
theorem triggerStartsAnArmedEngine : Obligations.TriggerStartsAnArmedEngine := by
  intro s n hs hn hruns htrig
  obtain ⟨hc, hf⟩ := hs
  have hcnt : (BitVec.ofNat 16 (nextHcnt s)).toNat = s.cfg.triggerOffset := by rw [toNat_ofNat_nextHcnt hc, htrig]
  by_cases ha : s.arm = .streaming
  case pos =>
    obtain ⟨v, hv, ht⟩ := tick1_of_triggerFault hruns htrig ha
    refine ⟨_, exec_tick_of_tick1 ⟨hc, hf⟩ hn ht, ?_⟩
    rw [pseClock_only hv]
    simp [countTick, hcnt, ha, hf, faultBit]
  case neg =>
    obtain ⟨v, hv, ht⟩ := tick1_of_tickClear ⟨hruns, fun _ => ha⟩
    obtain ⟨hcfg, harm⟩ := cfg_arm_of_pseClock hv
    have hstop : s.pclkRun = false → v = countTick s := eq_of_pseClock_stopped hv
    refine ⟨_, exec_tick_of_tick1 ⟨hc, hf⟩ hn ht, ?_, fun hi => ?idle, fun hi => ?armed, fun hi => absurd hi ha⟩
    · rw [tickEnd_only, triggered_pseClock_only hv]; exact hcnt
    case idle =>
      rw [triggered_of_idle (harm.trans hi), tickEnd_only]
      refine ⟨harm.trans hi, ?_, ?_, fun hp => ?_⟩
      · rw [pseClock_only hv]; rfl
      · rw [pseClock_only hv]; exact hf
      · rw [hstop hp]; exact ⟨rfl, rfl⟩
    case armed =>
      have hstart : triggered (nextHcnt s) v = startStreaming v := if_pos ⟨by rw [hcfg]; exact htrig, harm.trans hi⟩
      rw [hstart, tickEnd_only]
      refine ⟨rfl, rfl, rfl, ?_, fun hp => ?_⟩
      · rw [pseClock_only hv]; exact hf
      · rw [hstop hp]; exact ⟨rfl, rfl, rfl⟩

/-- Settles O25: the tick keeps what its pixel clock left, and the pixel clock does one of four things. -/
theorem pixelClockDividesTheBaseClock : Obligations.PixelClockDividesTheBaseClock := by
  intro s n hs hn hruns hnot
  obtain ⟨v, t, hv, ht, hkeep⟩ := tick1_of_tickRuns hruns
  refine ⟨_, exec_tick_of_tick1 hs hn ht, ?_⟩
  obtain ⟨-, hclk, hdiv⟩ := hkeep.clock hnot
  simp only [hclk, hdiv, hkeep.port, hkeep.index, hkeep.enabled, hkeep.pending, true_and]
  rcases pseClock_cases hv with ⟨hp, rfl⟩ | ⟨hp, hd, rfl⟩ | ⟨hp, hd, hx, rfl⟩ | ⟨hp, hd, hx, -, rfl⟩ <;>
    simp only [countTick_cfg, countTick_pclkRun, countTick_pdiv, countTick_xferEn] at *
  · simpa [hp] using hkeep.flag
  · simpa [hp, hd] using hkeep.flag
  · simpa [hp, Nat.not_lt.2 hd] using fun _ => hkeep.flag
  · simp [hp, Nat.not_lt.2 hd, hx, movePixel_eq]

/-- Settles O26: the tick's pixel clock moves the pixel of the cell the transfer points at, and the rest of the tick keeps it. -/
theorem pixelEdgeMovesOneCell : Obligations.PixelEdgeMovesOneCell := by
  intro s n hs hn hruns hp hd hx
  have hc : configOk s.cfg = true := hs.1
  have hcell : s.xidx.toNat ≤ s.cfg.visiblePixels := hruns.2.2 hx
  have hnext : (s.xidx + 1).toNat = s.xidx.toNat + 1 := toNat_xidx_succ hc hcell
  have hedge : pseClock (countTick s) = .next (movePixel (edgeState s)) :=
    pseClock_edge (s := countTick s) hp hd hx hcell
  obtain ⟨v, t, hv, ht, hkeep⟩ := tick1_of_tickRuns hruns
  obtain rfl : movePixel (edgeState s) = v := by rw [hedge] at hv; cases hv; rfl
  have hsame : cell (edgeState s) s.src s.xidx.toNat = cell s s.src s.xidx.toNat := cell_congr rfl rfl
  refine ⟨_, exec_tick_of_tick1 hs hn ht, ?_⟩
  simp only [hkeep.port, hkeep.index, hkeep.enabled, hkeep.pending]
  refine ⟨?index, fun w hw => ?value, fun hundef => ?drawn, fun hlast => ?last, fun hmore => ?more⟩
  case index => exact movePixel_xidx (edgeState s) ▸ hnext
  case value => exact movePixel_out_of_some (hsame.trans hw)
  case drawn =>
    obtain ⟨-, -, -, -, -, -, -, -, -, ⟨-, hbits, -⟩, -⟩ := configOk_iff.1 hc
    rw [movePixel_out_of_none (hsame.trans hundef)]
    exact ⟨drawPixel_lt (edgeState s) hbits, fun x rest hlist => toNat_drawPixel_of_listed (s := edgeState s) hlist⟩
  case last =>
    obtain ⟨hen, hflag, hpend⟩ := movePixel_completes (s := edgeState s) (hnext.trans hlast)
    refine ⟨hen, fun hclr => (hkeep.flag hclr).trans hflag, fun hie => ?_, fun hie => ?_, fun ha => ?_⟩
    · rw [hpend]; simp [hie]
    · rw [hpend]; simp [hie]
    · obtain ⟨harm, hclk, -⟩ := hkeep.clock (by simp [ha])
      exact ⟨harm.trans ha, hclk.trans hp⟩
  case more =>
    obtain ⟨hen, hflag, hpend⟩ := movePixel_goesOn (s := edgeState s) fun h => hmore (hnext.symm.trans h)
    exact ⟨hen.trans hx, hpend, fun hclr => (hkeep.flag hclr).trans hflag⟩

end Sys2Proof.Proofs

namespace Sys2Proof.Machine

/-! ### What changes the engine's state, and what moves a pixel (R230) -/

section
variable {s t : State}

/-- The pixel clock moves the transfer only where it runs and the transfer is enabled (R233, R236). -/
theorem transfer_of_pseClock (hv : pseClock s = .next t) :
    (t.xidx = s.xidx ∧ t.xferEn = s.xferEn) ∨ (s.pclkRun = true ∧ s.xferEn = true) := by
  rcases pseClock_cases hv with ⟨-, rfl⟩ | ⟨-, -, rfl⟩ | ⟨-, -, -, rfl⟩ | ⟨hclk, -, hen, -, -⟩
  · exact .inl ⟨rfl, rfl⟩
  · exact .inl ⟨rfl, rfl⟩
  · exact .inl ⟨rfl, rfl⟩
  · exact .inr ⟨hclk, hen⟩

/-- A tick moves the transfer only where the pixel clock runs and the transfer is enabled. -/
theorem transfer_of_tick1 (ht : tick1 s = .next t) :
    (t.xidx = s.xidx ∧ t.xferEn = s.xferEn) ∨ (s.pclkRun = true ∧ s.xferEn = true) := by
  rcases tick1_cases ht with rfl | ht
  · exact .inl ⟨rfl, rfl⟩
  rcases tickRunning_outcomes ht with ⟨-, rfl⟩ | ⟨v, hv, rfl | rfl⟩
  · exact .inl ⟨rfl, rfl⟩
  · have hclock := transfer_of_pseClock hv
    rw [tickEnd_only, triggered_only]
    exact hclock
  · exact transfer_of_pseClock (s := countTick s) (t := v) hv

/-- A tick changes the engine's state only by the trigger of an armed one (R232). -/
theorem arm_of_tick1 (ht : tick1 s = .next t) :
    t.arm = s.arm ∨ (nextHcnt s = s.cfg.triggerOffset ∧ s.arm = .armed ∧ t.arm = .streaming) := by
  rcases tick1_cases ht with rfl | ht
  · exact .inl rfl
  rcases tickRunning_outcomes ht with ⟨-, rfl⟩ | ⟨v, hv, hend⟩
  · exact .inl rfl
  obtain ⟨hcfg, harm⟩ : v.cfg = s.cfg ∧ v.arm = s.arm := cfg_arm_of_pseClock (u := countTick s) hv
  rcases hend with rfl | rfl
  · rw [tickEnd_only]
    by_cases htrig : nextHcnt s = v.cfg.triggerOffset ∧ v.arm = .armed
    · rw [triggered, if_pos htrig, ← hcfg, ← harm]
      exact .inr ⟨htrig.1, htrig.2, rfl⟩
    · rw [triggered, if_neg htrig]
      exact .inl harm
  · exact .inl harm

/-- `L_ARM` arms an idle engine; where it faults, the engine is as it was (R267). -/
theorem engine_of_lArm (h : exec .lArm s = .next t) :
    (t.arm = s.arm ∧ t.xferEn = s.xferEn) ∨ (s.arm = .idle ∧ t.arm = .armed) := by
  obtain ⟨-, -, -, h⟩ := lfsmOp_next_iff.1 h
  split at h
  · cases h; exact .inl ⟨rfl, rfl⟩
  · rename_i hidle
    split at h
    · cases h; exact .inl ⟨rfl, rfl⟩
    · cases h; exact .inr ⟨not_not.1 hidle, rfl⟩

/-- `T_DIS` leaves the engine idle and its transfer disabled (R314). -/
theorem engine_of_tDis (h : exec .tDis s = .next t) : s.tpc = some .dis ∧ t.arm = .idle ∧ t.xferEn = false := by
  obtain ⟨-, ⟨-, hpc⟩, h⟩ := tchOp_next_iff.1 h
  cases h
  rw [spuriousTc_eq]
  exact ⟨hpc, rfl, rfl⟩

/-- Every change of the engine's state is `L_ARM`'s, the trigger's or `T_DIS`'s (R230). -/
theorem arm_of_exec {i : Instr} (hs : Safety.MachineInv s) (h : exec i s = .next t) :
    t.arm = s.arm ∨
      (i = .lArm ∧ s.arm = .idle ∧ t.arm = .armed) ∨
      ((∃ n, i = .tick n) ∧ nextHcnt s = s.cfg.triggerOffset ∧ s.arm = .armed ∧ t.arm = .streaming) ∨
      (i = .tDis ∧ s.arm = .streaming ∧ t.arm = .idle) := by
  by_cases hsame : t.arm = s.arm
  · exact .inl hsame
  refine .inr ?_
  obtain ⟨-, -, -, -, -, -, -, -, -, -, -, hwriter, -⟩ := Proofs.everyFieldHasItsWriters i s t h
  rcases hwriter hsame with rfl | rfl | ⟨n, rfl⟩
  · exact .inl ⟨rfl, (engine_of_lArm h).resolve_left fun hkept => hsame hkept.1⟩
  · obtain ⟨hpc, hidle, -⟩ := engine_of_tDis h
    obtain ⟨-, hbusy, -⟩ := hs.tch
    exact .inr (.inr ⟨rfl, (hbusy (by simp [hpc])).1, hidle⟩)
  · obtain ⟨-, -, u, hu, rfl⟩ := exec_tick_next_iff.1 h
    exact .inr (.inl ⟨⟨n, rfl⟩, (arm_of_tick1 hu).resolve_left hsame⟩)

/-- No other operation than `L_ARM` enables the transfer (R319). -/
theorem xferEn_of_exec {i : Instr} (h : exec i s = .next t) (hi : i ≠ .lArm) (hen : s.xferEn = false) :
    t.xferEn = false := by
  by_contra hset
  obtain ⟨-, -, -, -, -, -, -, -, -, -, -, -, -, -, hwriter, -⟩ := Proofs.everyFieldHasItsWriters i s t h
  rcases hwriter (.inl fun hkept => hset (hkept.trans hen)) with rfl | rfl | ⟨n, rfl⟩
  · exact hi rfl
  · obtain ⟨-, -, hoff⟩ := engine_of_tDis h
    exact hset hoff
  · obtain ⟨-, -, u, hu, rfl⟩ := exec_tick_next_iff.1 h
    rcases transfer_of_tick1 hu with ⟨-, hkept⟩ | ⟨-, hon⟩
    · exact hset (hkept.trans hen)
    · simp [hen] at hon

end

end Sys2Proof.Machine

namespace Sys2Proof.Proofs

open Sys2Proof.Machine Sys2Proof.Safety

/-- Settles O53: the writers of the engine's state, taken one by one; a tick moves the transfer only where the pixel clock
runs, which the invariant ties to STREAMING. -/
theorem engineTransitions : Obligations.EngineTransitions := by
  intro i s t hs h
  have hmoves := arm_of_exec hs h
  refine ⟨hmoves, ?pixel, fun hstr hi => ?stays, fun hstr hen hstr' => ?disabled⟩
  case pixel =>
    rintro ⟨n, rfl⟩ hne
    obtain ⟨-, -, u, hu, rfl⟩ := exec_tick_next_iff.1 h
    obtain ⟨hclk, -⟩ := hs.engine
    rcases transfer_of_tick1 hu with ⟨hkept, -⟩ | ⟨hrun, hen⟩
    · exact absurd hkept hne
    · exact ⟨hclk.1 hrun, hen⟩
  case stays =>
    rcases hmoves with hkept | ⟨-, hidle, -⟩ | ⟨-, -, harmed, -⟩ | ⟨hdis, -⟩
    · exact hkept.trans hstr
    · simp [hstr] at hidle
    · simp [hstr] at harmed
    · exact absurd hdis hi
  case disabled =>
    by_cases hi : i = .lArm
    · subst hi
      rcases engine_of_lArm h with ⟨-, hkept⟩ | ⟨hidle, -⟩
      · exact hkept.trans hen
      · simp [hstr] at hidle
    · exact xferEn_of_exec h hi hen

end Sys2Proof.Proofs

namespace Sys2Proof.Machine

/-! ### The transfer of one line, tick by tick (R237) -/

/-- `t` is the state of the line's transfer that was triggered in `s`, `q` pixels and `p` ticks after the trigger: so far it
has moved the first `q` cells of the latched buffer, and it has no violation. -/
structure Streamed (s : State) (q p : Nat) (t : State) : Prop where
  cfg : t.cfg = s.cfg
  mem : t.mem = s.mem
  src : t.src = s.src
  run : t.run = true
  fault : t.fault = 0
  arm : t.arm = .streaming
  clock : t.pclkRun = true
  hcnt : t.hcnt.toNat = s.cfg.triggerOffset + (s.cfg.pixelDiv * q + p)
  pdiv : t.pdiv = p
  xidx : t.xidx.toNat = q
  enabled : t.xferEn = true ↔ q < len s.cfg
  flag : t.tcFlag = true ↔ q = len s.cfg
  noClear : t.tcClrPend = false
  held : q = 0 → t.out = s.out
  shown : ∀ i v, i + 1 = q → cell s s.src i = some v → t.out = v

section
variable {s t : State} {q p : Nat}

/-- The trigger of an armed engine begins the line's transfer (R232). -/
theorem streamed_of_trigger (hs : Safety.Live s) (hr : s.run = true) (ha : s.arm = .armed) (hp : s.pclkRun = false)
    (hx : s.xferEn = true) (hi : s.xidx = 0) (hh : s.hcnt.toNat + 1 = s.cfg.triggerOffset) (hf : s.tcFlag = false)
    (hclr : s.tcClrPend = false) : ∃ t, tick1 s = .next t ∧ Streamed s 0 0 t := by
  obtain ⟨hc, hfault⟩ := hs
  obtain ⟨-, -, ⟨htrig, htrig'⟩, -⟩ := configOk_iff.1 hc
  have hn : nextHcnt s = s.cfg.triggerOffset := by
    rw [nextHcnt, hh, Nat.mod_eq_of_lt htrig']
  have hclear : Safety.TickClear s := ⟨⟨hr, fun h0 => by omega, fun _ => by simp [hi]⟩, fun _ => by simp [ha]⟩
  obtain ⟨v, hv, ht⟩ := tick1_of_tickClear hclear
  obtain rfl : v = countTick s := eq_of_pseClock_stopped hv hp
  have hstart : triggered (nextHcnt s) (countTick s) = startStreaming (countTick s) := if_pos ⟨hn, ha⟩
  refine ⟨_, ht, ?_⟩
  rw [hstart, tickEnd_of_noClear (s := startStreaming (countTick s)) hclr]
  exact {
    cfg := rfl, mem := rfl, src := rfl, run := hr, fault := hfault, arm := rfl, clock := rfl, pdiv := rfl, noClear := hclr
    hcnt := by
      change (BitVec.ofNat 16 (nextHcnt s)).toNat = _
      rw [toNat_ofNat_nextHcnt hc, hn]; rfl
    xidx := by simp [hi]
    enabled := by simp [hx, len]
    flag := by simp [hf, len]
    held := fun _ => rfl
    shown := fun _ _ h => by omega }

/-- While pixels are left, no tick of the transfer is a period start or a trigger point (R9 item (6)): it is the pixel clock,
and the diagnostics count. -/
theorem tick1_of_streamed (hc : configOk s.cfg = true) (hst : Streamed s q p t) (hq : q < len s.cfg)
    (hp : p < s.cfg.pixelDiv) :
    ∃ v n, pseClock (countTick t) = .next v ∧ tick1 t = .next { v with lineTicks := n } ∧
      v.hcnt.toNat = s.cfg.triggerOffset + (s.cfg.pixelDiv * q + p + 1) := by
  have hc' : configOk t.cfg = true := by rw [hst.cfg]; exact hc
  obtain ⟨-, -, ⟨htrig, -⟩, -, -, hfits, -⟩ := configOk_iff.1 hc
  have hle : s.cfg.pixelDiv * (q + 1) ≤ s.cfg.pixelDiv * len s.cfg := Nat.mul_le_mul_left _ hq
  rw [Nat.mul_succ, Nat.mul_comm _ (len s.cfg)] at hle
  have hn : nextHcnt t = s.cfg.triggerOffset + (s.cfg.pixelDiv * q + p + 1) := by
    rw [nextHcnt, hst.hcnt, hst.cfg]
    exact Nat.mod_eq_of_lt (by omega)
  have hcell : t.xidx.toNat ≤ t.cfg.visiblePixels := by rw [hst.xidx, hst.cfg]; exact Nat.le_of_lt_succ hq
  have hclear : Safety.TickClear t :=
    ⟨⟨hst.run, fun h0 => by omega, fun _ => hcell⟩, fun h => by rw [hst.cfg] at h; omega⟩
  obtain ⟨v, hv, ht⟩ := tick1_of_tickClear hclear
  obtain ⟨hcfg, hclr, hcnt⟩ :
      v.cfg = s.cfg ∧ v.tcClrPend = false ∧ v.hcnt = BitVec.ofNat 16 (nextHcnt t) := by
    rw [pseClock_only hv]; exact ⟨hst.cfg, hst.noClear, rfl⟩
  rw [triggered_of_ne (by rw [hcfg]; omega), tickEnd_of_noClear hclr] at ht
  exact ⟨v, _, hv, ht, by rw [hcnt, toNat_ofNat_nextHcnt hc', hn]⟩

/-- Between two edges a tick counts, and the port keeps its value (R233). -/
theorem streamed_betweenEdges (hc : configOk s.cfg = true) (hst : Streamed s q p t) (hq : q < len s.cfg)
    (hp : p + 1 < s.cfg.pixelDiv) : ∃ u, tick1 t = .next u ∧ Streamed s q (p + 1) u ∧ u.out = t.out := by
  obtain ⟨v, n, hv, ht, hcnt⟩ := tick1_of_streamed hc hst hq (by omega)
  have hstep := pseClock_betweenEdges (s := countTick t) hst.clock
    (by rw [countTick_pdiv, hst.pdiv, countTick_cfg, hst.cfg]; exact hp)
  rw [hv] at hstep
  cases hstep
  exact ⟨_, ht, { hst with hcnt := hcnt, pdiv := congrArg (· + 1) hst.pdiv }, rfl⟩

/-- An edge moves the next cell, and the `LEN`-th completes the transfer (R234, R235). -/
theorem streamed_edge (hc : configOk s.cfg = true) (hst : Streamed s q p t) (hq : q < len s.cfg)
    (hp : p + 1 = s.cfg.pixelDiv) : ∃ u, tick1 t = .next u ∧ Streamed s (q + 1) 0 u := by
  obtain ⟨v, n, hv, ht, hcnt⟩ := tick1_of_streamed hc hst hq (by omega)
  have hcell : t.xidx.toNat ≤ t.cfg.visiblePixels := by rw [hst.xidx, hst.cfg]; exact Nat.le_of_lt_succ hq
  have hstep : pseClock (countTick t) = .next (movePixel (edgeState t)) := pseClock_edge (s := countTick t) hst.clock
    (by rw [countTick_pdiv, hst.pdiv, countTick_cfg, hst.cfg]; exact hp.ge) (hst.enabled.2 hq) hcell
  rw [hv] at hstep
  cases hstep
  have hnext : (t.xidx + 1).toNat = q + 1 := by rw [toNat_xidx_succ (by rw [hst.cfg]; exact hc) hcell, hst.xidx]
  have hshown : ∀ w, cell s s.src q = some w → (movePixel (edgeState t)).out = w := fun w hw =>
    movePixel_out_of_some <| by
      rw [← hw, edgeState_xidx, hst.xidx, ← hst.src]
      exact cell_congr hst.mem hst.cfg
  have hdone : ((movePixel (edgeState t)).xferEn = true ↔ q + 1 < len s.cfg) ∧
      ((movePixel (edgeState t)).tcFlag = true ↔ q + 1 = len s.cfg) := by
    by_cases hlast : q + 1 = len s.cfg
    · obtain ⟨hen, hflag, -⟩ := movePixel_completes (s := edgeState t)
        (by rw [edgeState_xidx, hnext, edgeState_cfg, hst.cfg]; exact hlast)
      simp [hen, hflag, hlast]
    · obtain ⟨hen, hflag, -⟩ := movePixel_goesOn (s := edgeState t)
        (by rw [edgeState_xidx, hnext, edgeState_cfg, hst.cfg]; exact hlast)
      rw [hen, hflag]
      exact ⟨(hst.enabled).trans (by omega), hst.flag.trans (by omega)⟩
  rw [movePixel_only] at ht hcnt
  exact ⟨_, ht, {
    cfg := hst.cfg, mem := hst.mem, src := hst.src, run := hst.run, fault := hst.fault, arm := hst.arm, clock := hst.clock
    hcnt := hcnt.trans (by rw [Nat.mul_succ]; omega)
    pdiv := rfl
    xidx := by rwa [movePixel_xidx]
    enabled := hdone.1, flag := hdone.2, noClear := hst.noClear
    held := fun h => absurd h (Nat.succ_ne_zero q)
    shown := fun i w h hw => hshown w (by rwa [← Nat.succ.inj h]) }⟩

/-- `k` ticks after the trigger the transfer has moved `k / PIXEL_DIV` cells; between two edges the port keeps its value. -/
theorem streamed_ticks {k : Nat} (hc : configOk s.cfg = true) (h0 : ∃ t, tick1 s = .next t ∧ Streamed s 0 0 t)
    (hk : k ≤ len s.cfg * s.cfg.pixelDiv) :
    ∃ t, Safety.ticks (k + 1) s = .next t ∧ Streamed s (k / s.cfg.pixelDiv) (k % s.cfg.pixelDiv) t ∧
      ∀ t', k % s.cfg.pixelDiv ≠ 0 → Safety.ticks k s = .next t' → t.out = t'.out := by
  obtain ⟨-, -, -, hpos, -⟩ := configOk_iff.1 hc
  induction k with
  | zero =>
    obtain ⟨t, ht, hst⟩ := h0
    refine ⟨t, (ticks_succ_of_ticks rfl).trans ht, by simpa using hst, fun _ h => absurd (Nat.zero_mod _) h⟩
  | succ k ih =>
    obtain ⟨t, ht, hst, -⟩ := ih (by omega)
    have hq : k / s.cfg.pixelDiv < len s.cfg := (Nat.div_lt_iff_lt_mul hpos).2 hk
    have hsum := Nat.div_add_mod k s.cfg.pixelDiv
    rcases Nat.lt_or_eq_of_le (Nat.mod_lt k hpos) with hp | hp
    case inl =>
      have hk' : k % s.cfg.pixelDiv + 1 + s.cfg.pixelDiv * (k / s.cfg.pixelDiv) = k + 1 := by omega
      obtain ⟨hdiv, hmod⟩ := (Nat.div_mod_unique hpos).2 ⟨hk', hp⟩
      obtain ⟨u, hu, hst', hout⟩ := streamed_betweenEdges hc hst hq hp
      refine ⟨u, (ticks_succ_of_ticks ht).trans hu, by rwa [hdiv, hmod], fun t' _ ht' => ?_⟩
      rw [ht] at ht'
      cases ht'
      exact hout
    case inr =>
      have hk' : 0 + s.cfg.pixelDiv * (k / s.cfg.pixelDiv + 1) = k + 1 := by rw [Nat.mul_succ]; omega
      obtain ⟨hdiv, hmod⟩ := (Nat.div_mod_unique hpos).2 ⟨hk', hpos⟩
      obtain ⟨u, hu, hst'⟩ := streamed_edge hc hst hq hp
      exact ⟨u, (ticks_succ_of_ticks ht).trans hu, by rwa [hdiv, hmod], fun _ h => absurd hmod h⟩

end

end Sys2Proof.Machine

namespace Sys2Proof.Proofs

open Sys2Proof.Machine Sys2Proof.Safety

/-- Settles O29: `k` ticks after the trigger the line's transfer stands at pixel `k / PIXEL_DIV` and divider
`k % PIXEL_DIV`; the statement is what it then shows. -/
theorem outputTimelineOfALine : Obligations.OutputTimelineOfALine := by
  intro s k hs hr ha hp hx hi hh hf hclr hk
  have hc : configOk s.cfg = true := hs.1
  obtain ⟨-, -, -, hpos, -, hfits, -⟩ := configOk_iff.1 hc
  obtain ⟨t, ht, hst, hheld⟩ := streamed_ticks hc (streamed_of_trigger hs hr ha hp hx hi hh hf hclr) hk
  have hfirst : k < s.cfg.pixelDiv → k / s.cfg.pixelDiv = 0 := Nat.div_eq_of_lt
  have hlt : k / s.cfg.pixelDiv < len s.cfg ↔ k < len s.cfg * s.cfg.pixelDiv := Nat.div_lt_iff_lt_mul hpos
  have hlast : k / s.cfg.pixelDiv = len s.cfg ↔ k = len s.cfg * s.cfg.pixelDiv := by
    have := Nat.div_le_of_le_mul (Nat.mul_comm _ _ ▸ hk : k ≤ s.cfg.pixelDiv * len s.cfg)
    omega
  refine ⟨t, ht, hst.fault, hst.arm, ?_, by omega, hst.xidx, fun h => hst.held (hfirst h), hst.shown, hheld,
    hst.flag.trans hlast, hst.enabled.trans hlt⟩
  rw [hst.hcnt, Nat.div_add_mod]

end Sys2Proof.Proofs

namespace Sys2Proof.Machine

open Safety

/-! ### The micro-operation that is enabled (R262, R317) -/

/-- The sequencers' one micro-operation is the one whose enabling condition holds: the conditions exclude each other, and those
of the TCH come first. -/
theorem sequencerOp_eq_some_iff {s : State} {i : Instr} :
    sequencerOp s = some i ↔
      (i = .lEnter ∧ LEnterEnabled s) ∨ (∃ x, i = lfsmInstr x ∧ LfsmEnabled x s) ∨
      (i = .tEnter ∧ TEnterEnabled s) ∨ ∃ x, i = tchInstr x ∧ TchEnabled x s := by
  unfold sequencerOp LEnterEnabled LfsmEnabled TEnterEnabled TchEnabled LfsmFree
  cases ht : s.tchActive
  case true => simp [@eq_comm _ i, and_comm]
  by_cases htc : s.tcPend = true ∧ s.tcIe = true
  case pos => simp [htc, @eq_comm _ i]
  have htc' : (s.tcPend && s.tcIe) = false := by simpa using htc
  cases hl : s.lfsmActive
  case true => by_cases hcb : s.cbreq = none <;> simp [htc, htc', hcb, @eq_comm _ i, and_comm]
  case false => simp [htc, htc', @eq_comm _ i, and_comm]

/-- With an idle stream the fetch finds a micro-operation, and leaves the state as it is, exactly where no fault is recorded and
that micro-operation is enabled. -/
theorem nextOp_eq_micro_iff {s : State} {i : Instr} (hc : configOk s.cfg = true) (hr : s.refused = false)
    (hb : streamBusy s = false) : nextOp s = .next (some i, s) ↔ s.fault = 0 ∧ sequencerOp s = some i := by
  refine ⟨fun h => ?_, fun ⟨hf, hq⟩ => nextOp_of_streamIdle ⟨⟨hc, hf⟩, hr⟩ hq hb⟩
  obtain ⟨⟨⟨-, hf⟩, -⟩, -⟩ := nextOp_cases h
  refine ⟨hf, ?_⟩
  cases hq : sequencerOp s with
  | some j =>
    rw [nextOp_of_streamIdle ⟨⟨hc, hf⟩, hr⟩ hq hb] at h
    cases h; rfl
  | none =>
    obtain ⟨hticks, hstream⟩ : s.ticksLeft = 0 ∧ s.stream = [] := by simpa [streamBusy] using hb
    rw [nextOp_of_sequencerOp_none ⟨⟨hc, hf⟩, hr⟩ hq, fetchStream, if_neg (not_not.2 hticks), hstream] at h
    cases h

/-- Drawing a turn enables and disables nothing. -/
theorem sequencerOp_of_drawTurn {s u : State} {t : Turn} (h : drawTurn s = (t, u)) : sequencerOp u = sequencerOp s := by
  rw [drawTurn_snd h]
  rfl

theorem lfsmInstr_ne_tchInstr (x : LStep) (y : TStep) : lfsmInstr x ≠ tchInstr y := by
  cases x <;> cases y <;> nofun

/-! ### The lines of each step (R260, R261) -/

theorem region_eq_visible_iff {c : Config} {l : Nat} : region c l = .visible ↔ l < c.vVisible := by
  unfold region
  split_ifs <;> simp [*]

/-- In a well-formed configuration the three bounds of the regions rise, so the first test that succeeds names the region. -/
theorem region_intervals {c : Config} {l : Nat} (hc : configOk c = true) :
    (region c l = .frontPorch ↔ c.vVisible ≤ l ∧ l < c.vsyncOnLine) ∧
    (region c l = .sync ↔ c.vsyncOnLine ≤ l ∧ l < c.vsyncOffLine) ∧
    (region c l = .backPorch ↔ c.vsyncOffLine ≤ l) := by
  obtain ⟨-, -, -, -, -, -, -, ⟨hon, hoff⟩, -⟩ := configOk_iff.1 hc
  unfold region
  split_ifs <;> simp <;> omega

theorem performs_of_visible {x : LStep} {s : State} (hl : s.line.toNat < s.cfg.vVisible)
    (hx : x = .swap ∨ x = .arm ∨ x = .produce) : Performs x s := by
  rcases hx with rfl | rfl | rfl <;> simp [Performs, lineSteps, hl]

theorem performs_frameinc_iff {s : State} : Performs .frameinc s ↔ s.line.toNat = s.cfg.vVisible := by
  simp [Performs, lineSteps]

theorem performs_input_iff {s : State} : Performs .input s ↔ InWindow s.cfg s.line.toNat := by
  simp [Performs, lineSteps]

/-- The line after a line of the frame is the next modulo `TOTAL` (R265). -/
theorem lineAfter_eq_mod {c : Config} {l : Nat} (hl : l < total c) : lineAfter c l = (l + 1) % total c := by
  unfold lineAfter
  split
  case isTrue h => rw [h, Nat.mod_self]
  case isFalse h => rw [Nat.mod_eq_of_lt (by omega)]

/-- Every line of the frame fits its 16 bits (R9 item (7)). -/
theorem toNat_ofNat_line {c : Config} (hc : configOk c = true) {l : Nat} (hl : l < total c) :
    (BitVec.ofNat 16 l).toNat = l := by
  obtain ⟨-, -, -, -, -, -, ⟨-, -, -, -, htotal⟩, -⟩ := configOk_iff.1 hc
  exact Nat.mod_eq_of_lt (by omega)

/-- The first step of a line (R261, R265). -/
theorem head_lineSteps_eq (c : Config) (l : Nat) :
    (lineSteps c l).head? = some
      (if l < c.vVisible then .swap
      else if l = c.vVisible then .frameinc
      else if InWindow c l then .input
      else if l = c.vsyncOnLine then .vsyncOn
      else if l = c.vsyncOffLine then .vsyncOff
      else .audio) := by
  unfold lineSteps
  split_ifs <;> rfl

/-! ### What each micro-operation of the LFSM does (R263 to R274) -/

/-- The diagnostics maximum, as one update of the state (R71). -/
theorem recordLine_eq (s : State) :
    recordLine s =
      { s with maxline := if s.cfg.diag = true ∧ s.maxline < s.lineTicks then s.lineTicks else s.maxline } := by
  unfold recordLine
  cases hd : s.cfg.diag <;> simp

section
variable {s : State} (hs : Live s)
include hs

/-- The first fault of a run is the only one on record (R69, R403). -/
theorem raiseFault_of_live (f : FaultCode) : raiseFault f s = { s with fault := faultBit f } := by
  rw [raiseFault, hs.2]
  simp

/-- An LFSM micro-operation that is enabled, on a line that performs it, does its own part (R261, R262). -/
theorem lfsmOp_of_enabled {x : LStep} (he : LfsmEnabled x s) (hp : Performs x s) (k : Result) : lfsmOp x s k = k := by
  rw [lfsmOp, live_eq hs.1 hs.2, if_pos he, if_pos hp]

theorem exec_lEnter (he : LEnterEnabled s) :
    exec .lEnter s = .next { s with linePend := false, lfsmActive := true, lpc := some .ack, lineTicks := 0 } :=
  (live_eq hs.1 hs.2 _).trans (if_pos he)

theorem exec_lAck (he : LfsmEnabled .ack s) :
    exec .lAck s = .next { s with lineFlag := false, out := s.cfg.blankValue, lpc := some .adv } :=
  lfsmOp_of_enabled hs he (.inl rfl) _

theorem exec_lAdv (he : LfsmEnabled .adv s) :
    exec .lAdv s =
      .next { s with
        line := BitVec.ofNat 16 (lineAfter s.cfg s.line.toNat)
        lpc := (lineSteps s.cfg (lineAfter s.cfg s.line.toNat)).head? } :=
  lfsmOp_of_enabled hs he (.inr (.inl rfl)) _

theorem exec_lSwap_streaming (he : LfsmEnabled .swap s) (hp : Performs .swap s) (ha : s.arm = .streaming) :
    exec .lSwap s = .next { s with fault := faultBit .swapWhileStreaming } := by
  rw [← raiseFault_of_live hs]
  exact (lfsmOp_of_enabled hs he hp _).trans (if_pos ha)

theorem exec_lSwap (he : LfsmEnabled .swap s) (hp : Performs .swap s) (ha : s.arm ≠ .streaming) :
    exec .lSwap s = .next { s with display := !s.display, lpc := some .arm } :=
  (lfsmOp_of_enabled hs he hp _).trans (if_neg ha)

theorem exec_lArm_notIdle (he : LfsmEnabled .arm s) (hp : Performs .arm s) (ha : s.arm ≠ .idle) :
    exec .lArm s = .next { s with fault := faultBit .armNotIdle } := by
  rw [← raiseFault_of_live hs]
  exact (lfsmOp_of_enabled hs he hp _).trans (if_pos ha)

theorem exec_lArm_late (he : LfsmEnabled .arm s) (hp : Performs .arm s) (ha : s.arm = .idle)
    (hh : s.cfg.triggerOffset ≤ s.hcnt.toNat) : exec .lArm s = .next { s with fault := faultBit .lateArm } := by
  rw [← raiseFault_of_live hs]
  exact (lfsmOp_of_enabled hs he hp _).trans ((if_neg (not_not.2 ha)).trans (if_pos hh))

theorem exec_lArm (he : LfsmEnabled .arm s) (hp : Performs .arm s) (ha : s.arm = .idle)
    (hh : s.hcnt.toNat < s.cfg.triggerOffset) :
    exec .lArm s =
      .next { s with
        src := s.display, xidx := 0, xferEn := true, pdiv := 0, arm := .armed, lpc := some .produce } :=
  (lfsmOp_of_enabled hs he hp _).trans ((if_neg (not_not.2 ha)).trans (if_neg (Nat.not_le.2 hh)))

theorem exec_lProduce (he : LfsmEnabled .produce s) (hp : Performs .produce s) :
    exec .lProduce s = .next { s with cbreq := some .produce, lpc := some .audio } := by
  rw [← nextLStep_produce hs.1 hp]
  exact lfsmOp_of_enabled hs he hp _

theorem exec_lFrameinc (he : LfsmEnabled .frameinc s) (hp : Performs .frameinc s) :
    exec .lFrameinc s =
      .next { s with
        frame := s.frame + 1
        lpc := some (if InWindow s.cfg s.line.toNat then .input else .audio) } := by
  rw [← nextLStep_frameinc hs.1 hp]
  exact lfsmOp_of_enabled hs he hp _

theorem exec_lInput (he : LfsmEnabled .input s) (hp : Performs .input s) :
    exec .lInput s = .next { s with cbreq := some .input, lpc := some .audio } := by
  rw [← nextLStep_input hs.1 hp]
  exact lfsmOp_of_enabled hs he hp _

theorem exec_lVsyncOn (he : LfsmEnabled .vsyncOn s) (hp : Performs .vsyncOn s) :
    exec .lVsyncOn s = .next { s with vsync := true, lpc := some .audio } := by
  rw [← nextLStep_vsyncOn hs.1 hp]
  exact lfsmOp_of_enabled hs he hp _

theorem exec_lVsyncOff (he : LfsmEnabled .vsyncOff s) (hp : Performs .vsyncOff s) :
    exec .lVsyncOff s = .next { s with vsync := false, lpc := some .audio } := by
  rw [← nextLStep_vsyncOff hs.1 hp]
  exact lfsmOp_of_enabled hs he hp _

theorem exec_lAudio (he : LfsmEnabled .audio s) :
    exec .lAudio s = .next { s with cbreq := some .audio, lpc := some .exit } :=
  lfsmOp_of_enabled hs he (performs_audio s) _

theorem exec_lExit (he : LfsmEnabled .exit s) :
    exec .lExit s = .next (recordLine { s with lfsmActive := false, lpc := none }) :=
  lfsmOp_of_enabled hs he (performs_exit s) _

theorem exec_cbret {k : Callback} (h : s.cbreq = some k) : exec (.cbret k) s = .next { s with cbreq := none } :=
  (live_eq hs.1 hs.2 _).trans (if_pos h)

end

end Sys2Proof.Machine

namespace Sys2Proof.Proofs

open Sys2Proof.Machine Sys2Proof.Safety

/-- Settles O6: with an idle stream the fetch finds what `sequencerOp` does, which is the micro-operation whose condition
holds; a step whose turn is the stream's performs its tick (O5), and drawing the turn enables and disables nothing. -/
theorem microOperationsEnabledExactlyWhen : Obligations.MicroOperationsEnabledExactlyWhen := by
  refine ⟨fun s i hc hr hb => ?_, fun s u hs hq hn ht => ⟨?_, sequencerOp_of_drawTurn ht⟩⟩
  · rw [nextOp_eq_micro_iff hc hr hb, sequencerOp_eq_some_iff]
  · have hb : streamBusy s = true := by rw [streamBusy, bne_iff_ne.2 hn, Bool.true_or]
    obtain ⟨htick, -⟩ := stepRunsTheOperationWhoseTurnItIs.1 s u hs (.inr ⟨hq, hb, ht⟩)
    exact htick hn

/-- Settles O34: the operation's next state, whose line is the next modulo `TOTAL`, with the head of that line's steps. -/
theorem lAdvAdvancesTheLine : Obligations.LAdvAdvancesTheLine := by
  intro s hs he hl
  have hline := toNat_ofNat_line hs.1 (lineAfter_lt hl)
  refine ⟨_, exec_lAdv hs he, rfl, hline.trans (lineAfter_eq_mod hl), ?_⟩
  rw [hline, head_lineSteps_eq]

/-- Settles O54: the invariant at reset, and kept by every step; with the LFSM not running its pointer is NONE, so neither of
the two vertical-sync steps is to come. -/
theorem vsyncExactlyInTheSyncRegion : Obligations.VsyncExactlyInTheSyncRegion := by
  have hrest : ∀ t, MachineInv t → t.lfsmActive = false → (t.vsync = true ↔ region t.cfg t.line.toNat = .sync) := by
    intro t ht hl
    obtain ⟨hlpc, -⟩ := ht.pointers
    have hnone : t.lpc = none := by simpa [hl] using hlpc
    have hv := ht.vsync
    rwa [VsyncFits, hnone, if_neg nofun, if_neg nofun] at hv
  exact ⟨fun c hc => ⟨inv_resetWith hc, hrest _ (inv_resetWith hc) rfl⟩,
    fun s t hs h => hrest t (everyStepKeepsTheInvariant s t hs h)⟩

/-- Settles O32: the regions are tested in the order of their lines, and the window lies in the front porch by R9 item (9). -/
theorem regionsAreTheLineCountsIntervals : Obligations.RegionsAreTheLineCountsIntervals := by
  intro c l hc hl
  obtain ⟨hfront, hsync, hback⟩ := region_intervals (l := l) hc
  obtain ⟨-, -, -, -, -, -, -, ⟨hon, -⟩, ⟨-, hstart, hend⟩, -⟩ := configOk_iff.1 hc
  refine ⟨region_eq_visible_iff, hon ▸ hfront, hsync, hback.trans (by simp [hl]), Iff.rfl, fun ⟨hl1, hl2⟩ => ?_⟩
  exact hfront.2 ⟨by omega, by omega⟩

/-- Settles O33: what the two micro-operations do when enabled. -/
theorem lineInterruptIsTakenAndAcknowledged : Obligations.LineInterruptIsTakenAndAcknowledged :=
  fun _ hs => ⟨exec_lEnter hs, exec_lAck hs⟩

/-- Settles O35: a visible line performs the swap, and the engine's state says which way it goes. -/
theorem lSwapFlipsTheDisplayBuffer : Obligations.LSwapFlipsTheDisplayBuffer := by
  intro s hs he hv
  have hp : Performs .swap s := performs_of_visible (region_eq_visible_iff.1 hv) (by simp)
  exact ⟨exec_lSwap_streaming hs he hp, exec_lSwap hs he hp⟩

/-- Settles O36: a visible line performs the arming; the engine's state is asked before the counter. -/
theorem lArmArmsAnIdleEngineInTime : Obligations.LArmArmsAnIdleEngineInTime := by
  intro s hs he hv
  have hp : Performs .arm s := performs_of_visible (region_eq_visible_iff.1 hv) (by simp)
  exact ⟨exec_lArm_notIdle hs he hp, exec_lArm_late hs he hp, exec_lArm hs he hp⟩

/-- Settles O37: what the three micro-operations do when enabled on their lines; and an enabled LFSM step finds no callback
out. -/
theorem callbacksAreRequestedAndWaitedFor : Obligations.CallbacksAreRequestedAndWaitedFor := by
  refine ⟨fun s hs => ⟨fun he hv => ?produce, fun he hw => ?input, exec_lAudio hs⟩, fun s k x hk hq => ?waits⟩
  case produce => exact exec_lProduce hs he (performs_of_visible (region_eq_visible_iff.1 hv) (by simp))
  case input => exact exec_lInput hs he (performs_input_iff.2 hw)
  case waits =>
    rcases sequencerOp_eq_some_iff.1 hq with ⟨h, -⟩ | ⟨y, -, he⟩ | ⟨h, -⟩ | ⟨y, h, -⟩
    · cases x <;> cases h
    · exact nomatch hk.symm.trans (cbreq_of_lfsmEnabled he)
    · cases x <;> cases h
    · exact lfsmInstr_ne_tchInstr x y h

/-- Settles O38: what the micro-operation does on its line; the counter's 32 bits wrap. -/
theorem lFrameincCountsTheFrame : Obligations.LFrameincCountsTheFrame := fun s hs he hl =>
  ⟨_, exec_lFrameinc hs he (performs_frameinc_iff.2 hl), rfl, BitVec.toNat_add s.frame 1, rfl⟩

/-- Settles O39: what the two micro-operations do on their lines. -/
theorem vsyncIsToggledAtItsTwoLines : Obligations.VsyncIsToggledAtItsTwoLines := fun _ hs =>
  ⟨fun he hl => exec_lVsyncOn hs he (performs_vsyncOn_iff.2 hl),
    fun he hl => exec_lVsyncOff hs he (performs_vsyncOff_iff.2 hl)⟩

/-- Settles O40: the return from the interrupt, and the record as an update of `MAXLINE` alone. -/
theorem lExitReturnsAndRecords : Obligations.LExitReturnsAndRecords := by
  intro s hs he
  refine ⟨_, exec_lExit hs he, ?_⟩
  rw [recordLine_eq]
  refine ⟨rfl, fun hd => ?_, fun hd => ?_⟩
  · rcases Nat.lt_or_ge s.maxline.toNat s.lineTicks.toNat with hm | hm
    · simp [hd, BitVec.lt_def, hm, hm.le]
    · simp [hd, BitVec.lt_def, Nat.not_lt.2 hm, hm]
  · simp [hd]

end Sys2Proof.Proofs

namespace Sys2Proof.Machine

open Safety

/-! ### A whole line of the LFSM (R261, R275, R276, R278) -/

/-- The state in which the LFSM, having taken the interrupt, stands before the first step of line `l` (R263 to R265). -/
def lineEntered (l : Nat) (s : State) : State :=
  { s with
    linePend := false, lineFlag := false, lfsmActive := true, lineTicks := 0, out := s.cfg.blankValue
    line := BitVec.ofNat 16 l, lpc := (lineSteps s.cfg l).head? }

/-- The state the steps of line `l` lead to, up to `L_AUDIO`: a visible line is displayed and its transfer armed; a blanking
line counts the frame at `V_VISIBLE`, and writes vertical sync at its two lines (R266 to R272). -/
def lineServed (l : Nat) (s : State) : State :=
  { s with
    display := if l < s.cfg.vVisible then !s.display else s.display
    src := if l < s.cfg.vVisible then !s.display else s.src
    xidx := if l < s.cfg.vVisible then 0 else s.xidx
    xferEn := if l < s.cfg.vVisible then true else s.xferEn
    pdiv := if l < s.cfg.vVisible then 0 else s.pdiv
    arm := if l < s.cfg.vVisible then .armed else s.arm
    frame := if l = s.cfg.vVisible then s.frame + 1 else s.frame
    vsync := if l = s.cfg.vsyncOnLine then true else if l = s.cfg.vsyncOffLine then false else s.vsync
    lpc := some .audio, cbreq := none }

theorem performAll_cons {i : Instr} {is : List Instr} {s t : State} (h : exec i s = .next t) :
    performAll (i :: is) s = performAll is t := by
  rw [performAll, h]

section
variable {s : State} {is : List Instr} (hs : Live s)
include hs

/-- Taking the interrupt, acknowledging it and advancing lead to the first step of the next line. -/
theorem performAll_enter (he : LEnterEnabled s) (hcb : s.cbreq = none) :
    performAll (.lEnter :: .lAck :: .lAdv :: is) s = performAll is (lineEntered (lineAfter s.cfg s.line.toNat) s) := by
  obtain ⟨-, -, -, hfree⟩ := id he
  rw [performAll_cons (exec_lEnter hs he), performAll_cons (exec_lAck ?_ ?_), performAll_cons (exec_lAdv ?_ ?_)]
  · rfl
  exacts [hs, ⟨rfl, rfl, hcb, hfree⟩, hs, ⟨rfl, rfl, hcb, hfree⟩]

/-- A callback requested and at once returned only moves the step pointer on (R68, R345). -/
theorem performAll_callback {i : Instr} {k : Callback} {y : Option LStep}
    (h : exec i s = .next { s with cbreq := some k, lpc := y }) :
    performAll (i :: .cbret k :: is) s = performAll is { s with cbreq := none, lpc := y } :=
  (performAll_cons h).trans (performAll_cons (exec_cbret (s := { s with cbreq := some k, lpc := y }) hs rfl))

/-- A visible line's own steps (R266 to R268). -/
theorem performAll_visible {l : Nat} (he : LfsmEnabled .swap s) (hline : s.line.toNat = l) (hl : l < s.cfg.vVisible)
    (ha : s.arm = .idle) (hh : s.hcnt.toNat < s.cfg.triggerOffset) :
    performAll (.lSwap :: .lArm :: .lProduce :: .cbret .produce :: is) s = performAll is (lineServed l s) := by
  obtain ⟨-, -, -, -, -, -, -, ⟨hon, hoff⟩, -⟩ := configOk_iff.1 hs.1
  obtain ⟨hact, -, hcb, hfree⟩ := id he
  have hp {x : LStep} (hx : x = .swap ∨ x = .arm ∨ x = .produce) : Performs x s := performs_of_visible (hline ▸ hl) hx
  rw [performAll_cons (exec_lSwap hs he (hp (by simp)) (by simp [ha])), performAll_cons (exec_lArm ?_ ?_ ?_ ?_ ?_),
    performAll_callback ?_ (exec_lProduce ?_ ?_ ?_)]
  · congr 1; grind [lineServed]
  exacts [hs, hs, ⟨hact, rfl, hcb, hfree⟩, hp (by simp), hs, ⟨hact, rfl, hcb, hfree⟩, hp (by simp), ha, hh]

/-- A blanking line's own steps, on each of the six kinds of such lines (R261, R269 to R272). -/
theorem performAll_blanking {l : Nat} (he : ∀ x ∈ (lineSteps s.cfg l).head?, LfsmEnabled x s) (hline : s.line.toNat = l)
    (hl : s.cfg.vVisible ≤ l) :
    performAll ((lineSteps s.cfg l).flatMap stepAndReturn) s =
      performAll [.lAudio, .cbret .audio, .lExit] (lineServed l s) := by
  subst hline
  obtain ⟨-, -, -, -, -, -, ⟨-, hfront, hsync, -⟩, ⟨hon, hoff⟩, ⟨-, -, hwin⟩, -⟩ := configOk_iff.1 hs.1
  rcases lineSteps_blanking hs.1 hl with
    ⟨h, hl', hw⟩ | ⟨h, hl', hw⟩ | ⟨h, hl', hw⟩ | ⟨h, hl'⟩ | ⟨h, hl'⟩ | ⟨h, hne, -, hne', hne''⟩ <;>
    rw [h] at he ⊢ <;> have hx := he _ rfl
  · obtain ⟨hact, -, hcb, hfree⟩ := id hx
    change performAll (.lFrameinc :: .lInput :: .cbret .input :: _) s = _
    rw [performAll_cons (exec_lFrameinc hs hx (performs_frameinc_iff.2 hl')), if_pos hw,
      performAll_callback ?_ (exec_lInput ?_ ?_ ?_)]
    · congr 1; grind [lineServed]
    exacts [hs, hs, ⟨hact, rfl, hcb, hfree⟩, performs_input_iff.2 hw]
  · change performAll (.lFrameinc :: _) s = _
    rw [performAll_cons (exec_lFrameinc hs hx (performs_frameinc_iff.2 hl')), if_neg hw]
    congr 1; grind [lineServed]
  · change performAll (.lInput :: .cbret .input :: _) s = _
    rw [performAll_callback hs (exec_lInput hs hx (performs_input_iff.2 hw))]
    congr 1; grind [lineServed]
  · change performAll (.lVsyncOn :: _) s = _
    rw [performAll_cons (exec_lVsyncOn hs hx (performs_vsyncOn_iff.2 hl'))]
    congr 1; grind [lineServed]
  · change performAll (.lVsyncOff :: _) s = _
    rw [performAll_cons (exec_lVsyncOff hs hx (performs_vsyncOff_iff.2 hl'))]
    congr 1; grind [lineServed]
  · obtain ⟨-, hlpc, hcb, -⟩ := hx
    have hsame : lineServed s.line.toNat s = { s with lpc := some .audio, cbreq := none } := by grind [lineServed]
    rw [hsame, ← hlpc, ← hcb]
    rfl

/-- Every line ends with the audio callback and the return from the interrupt (R273, R274). -/
theorem performAll_audioExit (he : LfsmEnabled .audio s) :
    performAll [.lAudio, .cbret .audio, .lExit] s =
      .next (recordLine { s with cbreq := none, lfsmActive := false, lpc := none }) := by
  obtain ⟨hact, -, -, hfree⟩ := id he
  rw [performAll_callback hs (exec_lAudio hs he), performAll_cons (exec_lExit ?_ ?_), performAll]
  exacts [hs, ⟨hact, rfl, rfl, hfree⟩]

/-- The steps of line `l`, from the first to `L_EXIT` (R261). -/
theorem performAll_lineSteps {l : Nat} (he : ∀ x ∈ (lineSteps s.cfg l).head?, LfsmEnabled x s) (hline : s.line.toNat = l)
    (hready : l < s.cfg.vVisible → s.arm = .idle ∧ s.hcnt.toNat < s.cfg.triggerOffset) :
    performAll ((lineSteps s.cfg l).flatMap stepAndReturn) s =
      .next (recordLine { lineServed l s with cbreq := none, lfsmActive := false, lpc := none }) := by
  obtain ⟨hact, -, -, hfree⟩ := he _ (head_lineSteps_eq s.cfg l)
  refine Eq.trans ?_ (performAll_audioExit (s := lineServed l s) hs ⟨hact, rfl, rfl, hfree⟩)
  rcases Nat.lt_or_ge l s.cfg.vVisible with hv | hv
  · obtain ⟨ha, hh⟩ := hready hv
    rw [lineSteps_visible hs.1 hv] at he ⊢
    exact performAll_visible hs (he _ rfl) hline hv ha hh
  · exact performAll_blanking hs he hline hv

end

end Sys2Proof.Machine

namespace Sys2Proof.Proofs

open Sys2Proof.Machine Sys2Proof.Safety

/-- Settles O41: the line is entered, and its steps lead to the state `lineServed` describes, from which the LFSM returns. -/
theorem wholeLineRunsToItsEnd : Obligations.WholeLineRunsToItsEnd := by
  intro s l hs he hcb hl hn hready
  obtain ⟨-, -, -, hfree⟩ := id he
  have hafter : lineAfter s.cfg s.line.toNat = l := (lineAfter_eq_mod hl).trans hn.symm
  have hline : (lineEntered l s).line.toNat = l := toNat_ofNat_line hs.1 (hafter ▸ lineAfter_lt hl)
  simp only [region_eq_visible_iff] at hready ⊢
  have hrun : performAll (lineProgram s.cfg l) s =
      .next (recordLine { lineServed l (lineEntered l s) with cbreq := none, lfsmActive := false, lpc := none }) := by
    refine Eq.trans ?_
      (performAll_lineSteps (s := lineEntered l s) hs (fun _ hx => ⟨rfl, hx, hcb, hfree⟩) hline hready)
    rw [← hafter]
    exact performAll_enter hs he hcb
  rw [recordLine_eq] at hrun
  exact ⟨_, hrun, hs.2, rfl, rfl, rfl, rfl, hline, rfl, rfl, rfl, rfl, rfl⟩

end Sys2Proof.Proofs

namespace Sys2Proof.Machine

open Safety

/-! ### What each micro-operation of the TCH does (R310 to R316) -/

/-- A listed free input is what a draw takes, and the list is shorter by it (R12, log 3). -/
theorem drawWord_of_listed {s : State} {x : BitVec 16} {rest : List (BitVec 16)} (h : s.draws = x :: rest) :
    drawWord s = (x, { s with draws := rest }) := by
  rw [drawWord, h]

theorem drawBit_of_listed {s : State} {x : BitVec 16} {rest : List (BitVec 16)} (h : s.draws = x :: rest) :
    drawBit s = (x.getLsbD 0, { s with draws := rest }) := by
  rw [drawBit, drawWord_of_listed h]

/-- Disabling the engine leaves what a draw takes. -/
theorem drawWord_disableEngine (s : State) :
    drawWord (disableEngine s) = ((drawWord s).1, disableEngine (drawWord s).2) := by
  cases h : s.draws <;> simp [drawWord, disableEngine, h]

section
variable {s : State} (hs : Live s)
include hs

/-- A TCH micro-operation that is enabled does its own part (R317). -/
theorem tchOp_of_enabled {x : TStep} (he : TchEnabled x s) (k : Result) : tchOp x s k = k := by
  rw [tchOp, live_eq hs.1 hs.2, if_pos he]

theorem exec_tEnter (he : TEnterEnabled s) :
    exec .tEnter s = .next { s with tcPend := false, tchActive := true, tpc := some .blank } :=
  (live_eq hs.1 hs.2 _).trans (if_pos he)

theorem exec_tBlank (he : TchEnabled .blank s) :
    exec .tBlank s = .next { s with out := s.cfg.blankValue, tpc := some .clr } :=
  tchOp_of_enabled hs he _

theorem exec_tClr (he : TchEnabled .clr s) :
    exec .tClr s =
      .next { s with
        tcFlag := s.tcFlag && !(drawBit s).1
        tcClrPend := s.tcFlag && !(drawBit s).1
        tpc := some .poll
        draws := if s.tcFlag then (drawWord s).2.draws else s.draws
        drawn := if s.tcFlag then (drawWord s).2.drawn else s.drawn } := by
  have h : exec .tClr s = .next { writeTcClear s with tpc := some .poll } := tchOp_of_enabled hs he _
  rw [h, writeTcClear_eq]

/-- A clear whose draw is listed and says now takes effect at the write (R312). -/
theorem exec_tClr_taken {now : BitVec 16} {rest : List (BitVec 16)} (he : TchEnabled .clr s) (hf : s.tcFlag = true)
    (hd : s.draws = now :: rest) (hnow : now.getLsbD 0 = true) :
    exec .tClr s = .next { s with tcFlag := false, tcClrPend := false, tpc := some .poll, draws := rest } := by
  rw [exec_tClr hs he, drawBit_of_listed hd, drawWord_of_listed hd]
  simp [hf, hnow]

theorem exec_tPoll (he : TchEnabled .poll s) :
    exec .tPoll s = .next { s with tpc := if s.tcFlag = true then some .clr else some .dis } := by
  rw [← apply_ite some]
  exact tchOp_of_enabled hs he _

theorem exec_tDis (he : TchEnabled .dis s) :
    exec .tDis s =
      .next { s with
        pclkRun := false, xferEn := false, pdiv := 0, arm := .idle
        tcPend := (drawBit s).1 || s.tcPend
        tpc := some .discard, draws := (drawWord s).2.draws, drawn := (drawWord s).2.drawn } := by
  have h : exec .tDis s = .next { spuriousTc (disableEngine s) with tpc := some .discard } := tchOp_of_enabled hs he _
  rw [h, spuriousTc_eq, drawBit, drawWord_disableEngine]
  rfl

theorem exec_tDiscard (he : TchEnabled .discard s) :
    exec .tDiscard s = .next { s with tcPend := false, tpc := some .exit } :=
  tchOp_of_enabled hs he _

theorem exec_tExit (he : TchEnabled .exit s) : exec .tExit s = .next { s with tchActive := false, tpc := none } :=
  tchOp_of_enabled hs he _

end

/-! ### The TCH's run to its clean state (R318, R319) -/

/-- The state in which the TCH, having taken the interrupt, finds the flag clear at its poll, with the free inputs `rest` left
(R310 to R312). -/
def flagCleared (rest : List (BitVec 16)) (s : State) : State :=
  { s with
    tcPend := false, tchActive := true, out := s.cfg.blankValue, tcFlag := false, tcClrPend := false
    tpc := some .poll, draws := rest }

section
variable {s : State} (hs : Live s)
include hs

/-- Taking the interrupt, blanking the port and writing a clear that takes effect at the write lead to the poll, with the flag
clear. -/
theorem performAll_clearFlag {now : BitVec 16} {rest : List (BitVec 16)} {is : List Instr} (he : TEnterEnabled s)
    (hf : s.tcFlag = true) (hd : s.draws = now :: rest) (hnow : now.getLsbD 0 = true) :
    performAll (.tEnter :: .tBlank :: .tClr :: is) s = performAll is (flagCleared rest s) := by
  rw [performAll_cons (exec_tEnter hs he), performAll_cons (exec_tBlank ?_ ?_),
    performAll_cons (exec_tClr_taken (rest := rest) ?_ ?_ ?_ ?_ hnow)]
  · rfl
  exacts [hs, ⟨rfl, rfl⟩, hf, hd, hs, ⟨rfl, rfl⟩]

/-- With the flag clear the poll ends, and the rest of the TCH leaves the engine idle and nothing pending, whatever `T_DIS`
draws: what it re-asserts, `T_DISCARD` discards. -/
theorem performAll_disableEngine (he : TchEnabled .poll s) (hf : s.tcFlag = false) :
    ∃ d n, performAll [.tPoll, .tDis, .tDiscard, .tExit] s =
      .next { s with
        pclkRun := false, xferEn := false, pdiv := 0, arm := .idle, tcPend := false, tchActive := false, tpc := none
        draws := d, drawn := n } := by
  obtain ⟨hact, -⟩ := id he
  refine ⟨(drawWord { s with tpc := some .dis }).2.draws, (drawWord { s with tpc := some .dis }).2.drawn, ?_⟩
  rw [performAll_cons (exec_tPoll hs he), if_neg (by simp [hf]), performAll_cons (exec_tDis ?_ ?_),
    performAll_cons (exec_tDiscard ?_ ?_), performAll_cons (exec_tExit ?_ ?_)]
  · rfl
  exacts [hs, ⟨hact, rfl⟩, hs, ⟨hact, rfl⟩, hs, ⟨hact, rfl⟩]

end

end Sys2Proof.Machine

namespace Sys2Proof.Proofs

open Sys2Proof.Machine Sys2Proof.Safety

/-- Settles O42: what the five micro-operations do when enabled. -/
theorem tchStepsWithoutADraw : Obligations.TchStepsWithoutADraw := fun _ hs =>
  ⟨exec_tEnter hs, exec_tBlank hs, exec_tPoll hs, exec_tDiscard hs, exec_tExit hs⟩

/-- Settles O43: with the flag set, the bit drawn says which of the two states follows. -/
theorem tClrWritesTheClear : Obligations.TClrWritesTheClear := by
  intro s hs he
  rw [exec_tClr hs he]
  refine ⟨fun hf => by simp [hf],
    fun hf => ⟨(drawBit s).1, (drawWord s).2.draws, (drawWord s).2.drawn, ?_, fun x rest hlist => ?_⟩⟩
  · cases (drawBit s).1 <;> simp [hf]
  · rw [drawBit_of_listed hlist, drawWord_of_listed hlist]
    exact ⟨rfl, rfl, rfl⟩

/-- Settles O44: the bit drawn says whether the completion interrupt is re-asserted. -/
theorem tDisReturnsTheEngineToIdle : Obligations.TDisReturnsTheEngineToIdle := by
  intro s hs he
  refine ⟨(drawBit s).1, (drawWord s).2.draws, (drawWord s).2.drawn, ?_, fun x rest hlist => ?_⟩
  · rw [exec_tDis hs he]
    cases (drawBit s).1 <;> simp
  · rw [drawBit_of_listed hlist, drawWord_of_listed hlist]
    exact ⟨rfl, rfl, rfl⟩

/-- Settles O46: the clear is drawn at the write, so the poll ends at once. -/
theorem tchRunsToItsCleanState : Obligations.TchRunsToItsCleanState := by
  intro s now spur rest hs he hf hd hnow
  obtain ⟨d, n, hrest⟩ := performAll_disableEngine (s := flagCleared (spur :: rest) s) hs ⟨rfl, rfl⟩ rfl
  refine ⟨_, (performAll_clearFlag hs he hf hd hnow).trans hrest, ?_⟩
  exact ⟨hs.2, rfl, rfl, rfl, rfl, rfl, rfl, rfl, rfl, rfl, rfl⟩

end Sys2Proof.Proofs

namespace Sys2Proof.Machine

/-! ### What the TCH writes, and what it does not read (R320) -/

/-- The fields the TCH may write (R320), and the model's free inputs (log 3), taken from `w`; every other field is that of
`s`. -/
def tchWritten (s w : State) : State :=
  { s with
    out := w.out, tcFlag := w.tcFlag, tcClrPend := w.tcClrPend, tcPend := w.tcPend, pclkRun := w.pclkRun
    xferEn := w.xferEn, pdiv := w.pdiv, arm := w.arm, tchActive := w.tchActive, tpc := w.tpc
    draws := w.draws, drawn := w.drawn }

/-- The fields each TCH micro-operation may write are among the TCH's. -/
theorem written_tch {i : Instr} (hi : i.agent = .tch) (s w : State) : written i s w = tchWritten s (written i s w) := by
  cases i <;> cases hi <;> rfl

section
variable {m : Memory} {s : State}

theorem writeTcClear_withMem (s : State) : writeTcClear (withMem m s) = withMem m (writeTcClear s) := by
  rw [writeTcClear_eq, writeTcClear_eq, drawBit_withMem, drawWord_withMem]
  rfl

theorem spuriousTc_withMem (s : State) : spuriousTc (withMem m s) = withMem m (spuriousTc s) := by
  rw [spuriousTc_eq, spuriousTc_eq, drawBit_withMem, drawWord_withMem]
  rfl

/-- Whether a TCH micro-operation is enabled does not depend on the line buffers. -/
theorem tchOp_withMem {x : TStep} {k k' : Result} (h : k' = mapState (withMem m) k) :
    tchOp x (withMem m s) k' = mapState (withMem m) (tchOp x s k) :=
  live_withMem (ite_mapState (fun _ => h) fun _ => rfl)

/-- A TCH micro-operation with other contents of the line buffers does the same and leaves those contents. -/
theorem exec_tch_withMem {i : Instr} (hi : i.agent = .tch) :
    exec i (withMem m s) = mapState (withMem m) (exec i s) := by
  cases i <;> cases hi
  case tEnter => exact live_withMem (ite_mapState (fun _ => rfl) fun _ => rfl)
  case tClr =>
    refine tchOp_withMem ?_
    rw [writeTcClear_withMem]
    rfl
  case tDis =>
    have hdis : disableEngine (withMem m s) = withMem m (disableEngine s) := rfl
    refine tchOp_withMem ?_
    rw [hdis, spuriousTc_withMem]
    rfl
  case tBlank | tPoll | tDiscard | tExit => exact tchOp_withMem rfl

end

end Sys2Proof.Machine

namespace Sys2Proof.Proofs

open Sys2Proof.Machine

/-- Settles O45: the next state has the operation's own fields changed, all of them the TCH's; and no part of a TCH
micro-operation reads the line buffers. -/
theorem tchFrame : Obligations.TchFrame := by
  refine fun i s hi => ⟨fun t h => ?_, fun m => exec_tch_withMem hi⟩
  have hw : written i s t = t := (exec_written h).symm
  have ht := written_tch hi s t
  rwa [hw] at ht

end Sys2Proof.Proofs

namespace Sys2Proof.Machine

/-! ### The clean engine after the TCH (R319) -/

section
variable {s t : State}

/-- After `T_DISCARD` the engine is idle and nothing is pending (R314, R315): so the transfer is disabled, the pixel clock
stopped and no flag set. -/
theorem clean_of_tchExit (hs : Safety.MachineInv s) (h : s.tpc = some .exit) :
    s.arm = .idle ∧ s.tcFlag = false ∧ s.tcClrPend = false ∧ s.tcPend = false ∧ s.xferEn = false ∧ s.pclkRun = false ∧
      s.out = s.cfg.blankValue := by
  obtain ⟨-, -, -, hidle, hpend⟩ := hs.tch
  obtain ⟨harm, hout⟩ := hidle (.inr h)
  obtain ⟨hclk, hxfer, -⟩ := hs.engine
  obtain ⟨hflag, hclr, -⟩ := hs.tcIrq
  have htcFlag : s.tcFlag = false := by simpa [harm] using hflag
  refine ⟨harm, htcFlag, ?_, hpend h, ?_, ?_, hout⟩
  · simpa [htcFlag] using hclr
  · simpa [harm] using hxfer
  · simpa [harm] using hclk

/-- A tick sets the completion flag only where the transfer is enabled (R235). -/
theorem tcFlag_of_tick1_disabled (ht : tick1 s = .next t) (hf : s.tcFlag = false) (hx : s.xferEn = false) :
    t.tcFlag = false := by
  rcases tick1_cases ht with rfl | ht
  · exact hf
  rcases tickRunning_outcomes ht with ⟨-, rfl⟩ | ⟨v, hv, hend⟩
  · exact hf
  have hvf : v.tcFlag = false := by rw [pseClock_of_disabled hv hx]; exact hf
  rcases hend with rfl | rfl
  · rw [tickEnd_eq, triggered_only]
    simp [hvf]
  · exact hvf

/-- Only an enabled transfer sets the completion flag (R319). -/
theorem xferEn_of_tcFlag_set {i : Instr} (h : exec i s = .next t) (hf : s.tcFlag = false) (hset : t.tcFlag = true) :
    s.xferEn = true := by
  by_contra hx
  obtain ⟨-, -, -, -, -, -, -, -, -, -, -, -, -, -, -, -, -, -, -, -, -, -, -, hwriter, -⟩ :=
    Proofs.everyFieldHasItsWriters i s t h
  rcases hwriter (.inl (by simp [hf, hset])) with rfl | ⟨n, rfl⟩
  · obtain ⟨-, -, ⟨⟩⟩ := tchOp_next_iff.1 h
    simp [writeTcClear_eq, hf] at hset
  · obtain ⟨-, -, u, hu, rfl⟩ := exec_tick_next_iff.1 h
    exact absurd hset (by simp [tcFlag_of_tick1_disabled hu hf (by simpa using hx)])

end

end Sys2Proof.Machine

namespace Sys2Proof.Proofs

open Sys2Proof.Machine

/-- Settles O55: the invariant says what `T_EXIT` finds, and it writes the TCH's own fields only; the flag's and the transfer's
writers are the transfer and `L_ARM`. -/
theorem tExitLeavesACleanEngine : Obligations.TExitLeavesACleanEngine := by
  refine ⟨fun s t hs h => ?_, fun i s t h => ⟨xferEn_of_tcFlag_set h, fun hoff hon => ?_⟩⟩
  · obtain ⟨-, ⟨-, hpc⟩, ⟨⟩⟩ := tchOp_next_iff.1 h
    have hclean := clean_of_tchExit hs hpc
    exact hclean
  · by_contra hi
    simp [xferEn_of_exec h hi hoff] at hon

end Sys2Proof.Proofs

namespace Sys2Proof.Machine

open Safety

/-! ### What each host operation does (R340 to R344; `CBRET` of the callback that is out stands with the LFSM's) -/

/-- The reserved data bits of `WRCTRL` (R145), read one by one, are the field the operation checks. -/
theorem extractLsb'_eq_zero_of_bits {d : BitVec 16} (hd : ∀ k, 3 ≤ k → d.getLsbD k = false) :
    d.extractLsb' 3 13 = 0 :=
  BitVec.eq_of_getLsbD_eq fun k _ => by simp [hd (3 + k) (by omega)]

section
variable {s : State} {b : Bool} {i : BitVec 11} {v : Pixel}

/-- A written cell holds the value written (R105). -/
theorem cell_memWrite_self (b : Bool) (j : Nat) (v : Pixel) (s : State) : cell (memWrite b j v s) b j = some v := by
  simp [cell]

variable (hs : Live s)
include hs

theorem exec_nop : exec .nop s = .next s := live_eq hs.1 hs.2 _

theorem exec_wrctrl {d : BitVec 16} (hd : d.extractLsb' 3 13 = 0) (hr : s.run = false) :
    exec (.wrctrl d) s = .next { s with lineIe := d.getLsbD 1, tcIe := d.getLsbD 2, run := d.getLsbD 0 } :=
  (live_eq hs.1 hs.2 _).trans ((if_neg (not_not.2 hd)).trans (if_neg (by simp [hr])))

theorem exec_wrctrl_started {d : BitVec 16} (hd : d.extractLsb' 3 13 = 0) (hr : s.run = true) :
    exec (.wrctrl d) s = refuse .wrctrlAfterStart s :=
  (live_eq hs.1 hs.2 _).trans ((if_neg (not_not.2 hd)).trans (if_pos hr))

theorem exec_rdreg (r : Reg) : exec (.rdreg r) s = .next { s with replies := readReg r s :: s.replies } :=
  live_eq hs.1 hs.2 _

theorem exec_bufw_badIndex (hi : s.cfg.visiblePixels ≤ i.toNat) : exec (.bufw b i v) s = refuse .bufwIndex s :=
  (live_eq hs.1 hs.2 _).trans (if_pos hi)

theorem exec_bufw_badValue (hi : i.toNat < s.cfg.visiblePixels) (hv : 2 ^ s.cfg.pixelBits ≤ v.toNat) :
    exec (.bufw b i v) s = refuse .bufwValue s :=
  (live_eq hs.1 hs.2 _).trans ((if_neg (Nat.not_le.2 hi)).trans (if_pos hv))

/-- An index and a value in range leave `BUFW` the ownership check (R343). -/
theorem exec_bufw_inRange (hi : i.toNat < s.cfg.visiblePixels) (hv : v.toNat < 2 ^ s.cfg.pixelBits) :
    exec (.bufw b i v) s =
      if s.run = true ∧ b = s.display then .next { s with fault := faultBit .ownership }
      else .next (memWrite b i.toNat v s) := by
  rw [← raiseFault_of_live hs]
  exact (live_eq hs.1 hs.2 _).trans ((if_neg (Nat.not_le.2 hi)).trans (if_neg (Nat.not_le.2 hv)))

theorem exec_bufr_badIndex (hi : s.cfg.visiblePixels < i.toNat) : exec (.bufr b i) s = refuse .bufrIndex s :=
  (live_eq hs.1 hs.2 _).trans (if_pos hi)

theorem exec_bufr_inRange (hi : i.toNat ≤ s.cfg.visiblePixels) :
    exec (.bufr b i) s = .next (answer ((memRead b i.toNat s).1.setWidth 32) (memRead b i.toNat s).2) :=
  (live_eq hs.1 hs.2 _).trans (if_neg (Nat.not_lt.2 hi))

theorem exec_bufr_of_some (hi : i.toNat ≤ s.cfg.visiblePixels) (h : cell s b i.toNat = some v) :
    exec (.bufr b i) s = .next { s with replies := v.setWidth 32 :: s.replies } := by
  rw [exec_bufr_inRange hs hi, memRead_some h, answer]

theorem exec_bufr_of_none (hi : i.toNat ≤ s.cfg.visiblePixels) (h : cell s b i.toNat = none) :
    exec (.bufr b i) s =
      .next { s with
        replies := (drawPixel s).1.setWidth 32 :: s.replies
        draws := (drawWord s).2.draws, drawn := (drawWord s).2.drawn } := by
  rw [exec_bufr_inRange hs hi, memRead_none h, drawPixel_snd, answer, drawWord_only]

theorem exec_cbret_mismatch {k : Callback} (h : s.cbreq ≠ some k) : exec (.cbret k) s = refuse .cbretMismatch s :=
  (live_eq hs.1 hs.2 _).trans (if_neg h)

end

/-! ### The bits of the registers (R80, R81) -/

/-- The bits of a bit vector from bit 0 up: those listed, and zeros above them. -/
def HasBits {n : Nat} (x : BitVec n) (bits : List Bool) : Prop := ∀ k, x.getLsbD k = bits.getD k false

section
variable {n : Nat} {x : BitVec n} {bits : List Bool}

theorem hasBits_zero (n : Nat) : HasBits (0 : BitVec n) [] := fun _ => BitVec.getLsbD_zero

theorem HasBits.appendBit (hx : HasBits x bits) (b : Bool) : HasBits (x ++ BitVec.ofBool b) (b :: bits)
  | 0 => BitVec.getLsbD_concat_zero
  | k + 1 => BitVec.getLsbD_concat_succ.trans (hx k)

theorem HasBits.appendPair (hx : HasBits x bits) (y : BitVec 2) :
    HasBits (x ++ y) (y.getLsbD 0 :: y.getLsbD 1 :: bits)
  | 0 | 1 => BitVec.getLsbD_append
  | k + 2 => BitVec.getLsbD_append.trans (hx k)

/-- Above the listed bits every bit is zero. -/
theorem HasBits.getLsbD_of_length_le {k : Nat} (hx : HasBits x bits) (hk : bits.length ≤ k) : x.getLsbD k = false :=
  (hx k).trans (List.getD_eq_default _ _ hk)

end

/-- The bits of `CTRL` (R80). -/
theorem hasBits_ctrlReg (s : State) : HasBits (ctrlReg s) [s.run, s.lineIe, s.tcIe] :=
  (hasBits_zero 29).appendBit s.tcIe |>.appendBit s.lineIe |>.appendBit s.run

/-- The bits of `STATUS` (R81). -/
theorem hasBits_statusReg (s : State) :
    HasBits (statusReg s)
      [s.lineFlag, s.tcFlag, (armCode s.arm).getLsbD 0, (armCode s.arm).getLsbD 1, s.vsync, hsyncAsserted s, s.display,
        s.lfsmActive, s.tchActive, s.linePend, s.tcPend, s.xferEn, s.pclkRun] :=
  (hasBits_zero 19).appendBit s.pclkRun |>.appendBit s.xferEn |>.appendBit s.tcPend |>.appendBit s.linePend
    |>.appendBit s.tchActive |>.appendBit s.lfsmActive |>.appendBit s.display |>.appendBit (hsyncAsserted s)
    |>.appendBit s.vsync |>.appendPair (armCode s.arm) |>.appendBit s.tcFlag |>.appendBit s.lineFlag

/-- The `ARM` field of `STATUS` (R81). -/
theorem extractLsb'_statusReg_arm (s : State) : (statusReg s).extractLsb' 2 2 = armCode s.arm := by
  refine BitVec.eq_of_getLsbD_eq fun k hk => ?_
  rw [BitVec.getLsbD_extractLsb', decide_eq_true hk, hasBits_statusReg]
  interval_cases k <;> rfl

/-- `STATUS` reads 0 after reset (R81). -/
theorem statusReg_resetWith (c : Config) : statusReg (State.resetWith c) = 0 := by
  simp [statusReg, State.resetWith, hsyncAsserted, armCode]

end Sys2Proof.Machine

namespace Sys2Proof.Proofs

open Sys2Proof.Machine Sys2Proof.Safety

/-- Settles O15: the reply is the register's value. `CTRL` and `STATUS` are read bit by bit, the other registers are one
field each, zero-extended. -/
theorem rdregReturnsTheRegister : Obligations.RdregReturnsTheRegister := by
  refine ⟨fun s r hs => ⟨readReg r s, exec_rdreg hs r, ?_⟩, statusReg_resetWith⟩
  cases r
  case ctrl =>
    have hbits := hasBits_ctrlReg s
    exact ⟨hbits 0, hbits 1, hbits 2, fun _ => hbits.getLsbD_of_length_le⟩
  case status =>
    have hbits := hasBits_statusReg s
    have harm : ((statusReg s).extractLsb' 2 2).toNat = (armCode s.arm).toNat :=
      congrArg BitVec.toNat (extractLsb'_statusReg_arm s)
    obtain ⟨hhsync, -⟩ := derivedOutputsOfTheState s
    refine ⟨hbits 0, hbits 1, harm.trans ?_, hbits 4, (Bool.eq_iff_iff.1 (hbits 5)).trans hhsync, hbits 6, hbits 7,
      hbits 8, hbits 9, hbits 10, hbits 11, hbits 12, fun _ => hbits.getLsbD_of_length_le⟩
    cases s.arm <;> rfl
  case line | hcnt | fault | out | xidx => exact BitVec.toNat_setWidth_of_le (by decide)
  case frame | maxline => rfl
  case cbreq =>
    change BitVec.ofNat 32 (cbreqCode s.cbreq) = _
    rcases s.cbreq with _ | (_ | _ | _) <;> rfl

/-- Settles O17: the operation's outcomes in the order of its checks; the last is a write of one cell, whose index, like that
of every existing cell, fits a key. -/
theorem bufwWritesOneCell : Obligations.BufwWritesOneCell := by
  refine fun s b i v hs => ⟨exec_bufw_badIndex hs, fun hi => ⟨exec_bufw_badValue hs hi, fun hv => ?_⟩⟩
  rw [exec_bufw_inRange hs hi hv]
  refine ⟨fun howned => if_pos howned, fun howned =>
    ⟨_, if_neg howned, rfl, cell_memWrite_self b i.toNat v s, fun b' j hj hne => ?_⟩⟩
  have hvis := visiblePixels_lt_of_configOk hs.1
  exact cell_memWrite_ne (by omega) (by omega) hne

/-- Settles O18: the operation's refusal, the cell's value, and the draw for an UNDEF cell. -/
theorem bufrReturnsTheCell : Obligations.BufrReturnsTheCell := by
  refine fun s b i hs => ⟨exec_bufr_badIndex hs, fun hi => ⟨fun v => exec_bufr_of_some hs hi, fun hundef => ?_⟩⟩
  have hreply : ((drawPixel s).1.setWidth 32).toNat = (drawPixel s).1.toNat := BitVec.toNat_setWidth_of_le (by decide)
  refine ⟨_, _, _, exec_bufr_of_none hs hi hundef, ?bound, fun x rest hlist => ?listed⟩
  case bound =>
    obtain ⟨-, -, -, -, -, -, -, -, -, ⟨-, hbits, -⟩, -⟩ := configOk_iff.1 hs.1
    exact hreply ▸ drawPixel_lt s hbits
  case listed =>
    rw [hreply, drawWord_of_listed hlist]
    exact ⟨toNat_drawPixel_of_listed hlist, rfl, rfl⟩

/-- Settles O13: `NOP` is the guard alone. -/
theorem nopChangesNothing : Obligations.NopChangesNothing := fun _ => exec_nop

/-- Settles O14: with the reserved data bits zero, `run` decides between the write and the refusal. -/
theorem wrctrlWritesControl : Obligations.WrctrlWritesControl := by
  intro s d hs hd
  have hreserved := extractLsb'_eq_zero_of_bits hd
  exact ⟨exec_wrctrl hs hreserved, exec_wrctrl_started hs hreserved⟩

/-- Settles O19: the callback is the one that is out, or it is not. -/
theorem cbretReturnsTheRequestedCallback : Obligations.CbretReturnsTheRequestedCallback := fun _ _ hs =>
  ⟨exec_cbret hs, exec_cbret_mismatch hs⟩

end Sys2Proof.Proofs

namespace Sys2Proof.Machine

open Safety

/-! ### A faulted state (R404) -/

/-- In a faulted state the guard answers with the record (R404; log 5). -/
theorem live_faulted {α : Type} {s : State} (hc : configOk s.cfg = true) (hf : s.fault ≠ 0)
    (k : Host.Outcome α Fault Refusal) : live s k = .fault (.quiescent s.fault) := by
  rw [live, if_pos hc, if_neg hf]

/-! ### The poll loop of a flag that does not clear (R312, R313, R422) -/

/-- A clear whose draw says later leaves the flag set, so the poll goes back to `T_CLR`. -/
theorem performAll_clearDelayed {s : State} {rest : List (BitVec 16)} {is : List Instr} (hs : Live s)
    (he : TchEnabled .clr s) (hf : s.tcFlag = true) (hd : s.draws = 0 :: rest) :
    performAll (.tClr :: .tPoll :: is) s = performAll is { s with tcClrPend := true, draws := rest } := by
  obtain ⟨hact, hpc⟩ := id he
  have hclr : exec .tClr s = .next { s with tcClrPend := true, tpc := some .poll, draws := rest } := by
    rw [exec_tClr hs he, drawBit_of_listed hd, drawWord_of_listed hd]
    simp [hf]
  rw [performAll_cons hclr, performAll_cons (exec_tPoll ?_ ?_)]
  · simp only [hf, if_true, ← hpc]
  exacts [hs, ⟨hact, rfl⟩]

/-! ### The causes of the faults (R402) -/

/-- R402: the operation that raises each fault code, and the cause. -/
def Causes (i : Instr) (s : State) : FaultCode → Prop
  | .deadlineMiss => (∃ n, i = .tick n) ∧ s.run = true ∧ nextHcnt s = 0 ∧ DeadlineMissed s
  | .lateArm => i = .lArm ∧ s.arm = .idle ∧ s.cfg.triggerOffset ≤ s.hcnt.toNat
  | .armNotIdle => i = .lArm ∧ s.arm ≠ .idle
  | .swapWhileStreaming => i = .lSwap ∧ s.arm = .streaming
  | .triggerWhileStreaming =>
    (∃ n, i = .tick n) ∧ s.run = true ∧ nextHcnt s = s.cfg.triggerOffset ∧ s.arm = .streaming
  | .ownership => (∃ b j v, i = .bufw b j v ∧ b = s.display) ∧ s.run = true

/-- The record is clear and no cause held, or it is the bit of one code whose cause held. -/
def RecordsCause (i : Instr) (s t : State) : Prop :=
  (t.fault = 0 ∧ ∀ f, ¬Causes i s f) ∨ ∃ f, t.fault = faultBit f ∧ Causes i s f

section
variable {s t : State}

/-- The record a fault leaves is its own bit (R69, R403). -/
theorem raiseFault_fault_of_clear (hf : s.fault = 0) (f : FaultCode) : (raiseFault f s).fault = faultBit f := by
  simp [hf]

/-- `L_SWAP` faults on a streaming engine (R266). -/
theorem recordsCause_lSwap (h : exec .lSwap s = .next t) : RecordsCause .lSwap s t := by
  obtain ⟨⟨-, hf⟩, -, -, h⟩ := lfsmOp_next_iff.1 h
  split at h <;> cases h
  case isTrue ha => exact .inr ⟨.swapWhileStreaming, raiseFault_fault_of_clear hf _, rfl, ha⟩
  case isFalse ha => exact .inl ⟨hf, fun f => by cases f <;> simp [Causes, ha]⟩

/-- `L_ARM` faults on a busy engine, and on an idle one past the trigger point (R267). -/
theorem recordsCause_lArm (h : exec .lArm s = .next t) : RecordsCause .lArm s t := by
  obtain ⟨⟨-, hf⟩, -, -, h⟩ := lfsmOp_next_iff.1 h
  split at h
  case isTrue ha =>
    cases h
    exact .inr ⟨.armNotIdle, raiseFault_fault_of_clear hf _, rfl, ha⟩
  case isFalse ha =>
    have hidle : s.arm = .idle := not_not.1 ha
    split at h <;> cases h
    case isTrue hlate => exact .inr ⟨.lateArm, raiseFault_fault_of_clear hf _, rfl, hidle, hlate⟩
    case isFalse hearly => exact .inl ⟨hf, fun f => by cases f <;> simp [Causes, hidle, hearly]⟩

/-- `BUFW` faults on the display buffer of a running machine (R343). -/
theorem recordsCause_bufw {b : Bool} {j : BitVec 11} {v : BitVec 16} (h : exec (.bufw b j v) s = .next t) :
    RecordsCause (.bufw b j v) s t := by
  obtain ⟨⟨-, hf⟩, h⟩ := live_next_iff.1 h
  split at h
  · cases h
  split at h
  · cases h
  split at h <;> cases h
  next howned => exact .inr ⟨.ownership, raiseFault_fault_of_clear hf _, ⟨b, j, v, rfl, howned.2⟩, howned.1⟩
  next howned =>
    refine .inl ⟨hf, fun f => ?_⟩
    cases f
    case ownership => rintro ⟨⟨_, _, _, ⟨⟩, hb⟩, hr⟩; exact howned ⟨hr, hb⟩
    all_goals simp [Causes]

/-- A tick faults at a period start that misses its deadline, and at the trigger point of a streaming engine; else it leaves
the record clear (R203, R232). -/
theorem recordsCause_tickRunning {n : BitVec 16} (hs : Live s) (hr : s.run = true) (h : tickRunning s = .next t) :
    RecordsCause (.tick n) s t := by
  obtain ⟨-, hf⟩ := hs
  rcases tickRunning_cases h with ⟨h0, hmiss, rfl⟩ | ⟨u, v, hu, hmet, hv, hcases⟩
  · exact .inr ⟨.deadlineMiss, raiseFault_fault_of_clear hf _, ⟨n, rfl⟩, hr, h0, hmiss⟩
  have hvf : v.fault = 0 := by
    rw [pseClock_only hv, hu]
    split <;> exact hf
  have hclear (hno : ¬(nextHcnt s = s.cfg.triggerOffset ∧ s.arm = .streaming)) : ∀ f, ¬Causes (.tick n) s f
    | .deadlineMiss => fun ⟨_, _, h0, hmiss⟩ => hmet h0 hmiss
    | .triggerWhileStreaming => fun ⟨_, _, hn, ha⟩ => hno ⟨hn, ha⟩
    | .lateArm | .armNotIdle | .swapWhileStreaming | .ownership => by simp [Causes]
  have hend (w : State) (hw : w.fault = 0) : (tickEnd w).fault = 0 := by
    rw [tickEnd_only]; exact hw
  rcases hcases with ⟨hn, rfl⟩ | ⟨-, ha, rfl⟩ | ⟨-, ha, rfl⟩ | ⟨hn, ha, rfl⟩
  · exact .inl ⟨hend v hvf, hclear fun h => hn h.1⟩
  · exact .inl ⟨hend v hvf, hclear (by simp [ha])⟩
  · exact .inl ⟨hend (startStreaming v) hvf, hclear (by simp [ha])⟩
  · exact .inr ⟨.triggerWhileStreaming, raiseFault_fault_of_clear hvf _, ⟨n, rfl⟩, hr, hn, ha⟩

theorem recordsCause_tick {n : BitVec 16} (h : exec (.tick n) s = .next t) : RecordsCause (.tick n) s t := by
  obtain ⟨hs, -, u, hu, rfl⟩ := exec_tick_next_iff.1 h
  cases hr : s.run with
  | true => exact recordsCause_tickRunning (t := u) hs hr (tick1_of_running hr ▸ hu)
  | false =>
    rw [tick1_of_stopped hr] at hu
    cases hu
    exact .inl ⟨hs.2, fun f => by cases f <;> simp [Causes, hr]⟩

/-- Only four operations have a cause of a fault. -/
theorem operation_of_causes {i : Instr} {f : FaultCode} (h : Causes i s f) :
    i = .lArm ∨ i = .lSwap ∨ (∃ n, i = .tick n) ∨ ∃ b j v, i = .bufw b j v := by
  cases f with
  | deadlineMiss | triggerWhileStreaming => exact .inr (.inr (.inl h.1))
  | lateArm | armNotIdle => exact .inl h.1
  | swapWhileStreaming => exact .inr (.inl h.1)
  | ownership =>
    obtain ⟨⟨b, j, v, hi, -⟩, -⟩ := h
    exact .inr (.inr (.inr ⟨b, j, v, hi⟩))

/-- Every operation that answers a next state records the cause that held, and no other operation has one. -/
theorem recordsCause_exec {i : Instr} (h : exec i s = .next t) : RecordsCause i s t := by
  by_cases hi : i = .lArm ∨ i = .lSwap ∨ (∃ n, i = .tick n) ∨ ∃ b j v, i = .bufw b j v
  case pos =>
    rcases hi with rfl | rfl | ⟨n, rfl⟩ | ⟨b, j, v, rfl⟩
    · exact recordsCause_lArm h
    · exact recordsCause_lSwap h
    · exact recordsCause_tick h
    · exact recordsCause_bufw h
  case neg =>
    have hsame : t.fault = s.fault := by
      rw [exec_written h]
      cases i <;> simp [written] at hi ⊢
    exact .inl ⟨hsame.trans (live_of_exec_next h).2, fun f hcause => hi (operation_of_causes hcause)⟩

end

end Sys2Proof.Machine

namespace Sys2Proof.Proofs

open Sys2Proof.Machine Sys2Proof.Safety

/-- Settles O9: every step and every operation runs under the guard, which answers the record. -/
theorem faultedStateIsQuiescent : Obligations.FaultedStateIsQuiescent := fun s hc hf =>
  ⟨by rw [← live_step, live_faulted hc hf], fun i => by rw [← live_exec, live_faulted hc hf]⟩

/-- Settles O47: each turn of the loop uses up one draw and leads back to `T_CLR` with the flag set. -/
theorem flagThatNeverClearsLoopsForEver : Obligations.FlagThatNeverClearsLoopsForEver := by
  intro s k rest hs he hf hd
  induction k generalizing s with
  | zero => exact ⟨s, rfl, hs.2, he.1, he.2, hf, rfl⟩
  | succ k ih =>
    rw [List.replicate_succ, List.flatten_cons]
    rw [List.replicate_succ, List.cons_append] at hd
    have hround := performAll_clearDelayed (is := (List.replicate k [Instr.tClr, Instr.tPoll]).flatten) hs he hf hd
    exact hround ▸ ih { s with tcClrPend := true, draws := List.replicate k 0 ++ rest } hs he hf rfl

/-- Settles O51: the six causes one by one; `L_ARM`'s two exclude each other. -/
theorem faultsAreRaisedByTheirCauses : Obligations.FaultsAreRaisedByTheirCauses := by
  intro i s t _ h
  rcases recordsCause_exec h with ⟨hf, hno⟩ | ⟨f, hf, hcause⟩
  case inl =>
    refine .inl ⟨hf, ?_⟩
    rintro (hmiss | ⟨hi, harm⟩ | hswap | htrig | ⟨b, j, v, hi, hr, hb⟩)
    · exact hno .deadlineMiss hmiss
    · by_cases hidle : s.arm = .idle
      · exact hno .lateArm ⟨hi, hidle, harm.resolve_left (not_not.2 hidle)⟩
      · exact hno .armNotIdle ⟨hi, hidle⟩
    · exact hno .swapWhileStreaming hswap
    · exact hno .triggerWhileStreaming htrig
    · exact hno .ownership ⟨⟨b, j, v, hi, hb⟩, hr⟩
  case inr =>
    refine .inr ?_
    cases f with
    | deadlineMiss => exact .inl ⟨hf, hcause⟩
    | lateArm => exact .inr (.inl ⟨hf, hcause⟩)
    | armNotIdle => exact .inr (.inr (.inl ⟨hf, hcause⟩))
    | swapWhileStreaming => exact .inr (.inr (.inr (.inl ⟨hf, hcause⟩)))
    | triggerWhileStreaming => exact .inr (.inr (.inr (.inr (.inl ⟨hf, hcause⟩))))
    | ownership => exact .inr (.inr (.inr (.inr (.inr ⟨hf, hcause⟩))))

end Sys2Proof.Proofs

namespace Sys2Proof.Machine

open Safety

/-! ### What ends a run (R12, R405) -/

/-- The seven reasons for which a word of the stream is refused (R405). -/
def wordReasons : List Reason :=
  [.illegal, .seqWord, .wrctrlAfterStart, .bufwIndex, .bufwValue, .bufrIndex, .cbretMismatch]

/-- The outcome is a next state, or the refusal of a word. -/
def GoesOnOrRefusesWord (r : Result) : Prop :=
  (∃ t, r = .next t) ∨ ∃ why t, r = .refused (.refuse why t) ∧ why ∈ wordReasons

theorem refusesWord_of_eq_refuse {why : Reason} {r : Result} {s : State} (h : r = refuse why s) (hw : why ∈ wordReasons) :
    GoesOnOrRefusesWord r :=
  .inr ⟨why, _, h, hw⟩

section
variable {s u : State} {i : Instr}

/-- An enabled transfer has a cell to move (R54, R104). -/
theorem xidx_le_of_inv (hs : MachineInv s) (hx : s.xferEn = true) : s.xidx.toNat ≤ s.cfg.visiblePixels := by
  obtain ⟨-, hcells, -⟩ := hs.engine
  exact Nat.le_of_lt_succ (hcells hx).2

/-- Every tick answers a next state: at a missed deadline its fault, else what follows it (R200). -/
theorem exec_tick_total {n : BitVec 16} (hs : MachineInv s) (hl : Live s) (hn : n ≠ 0) :
    ∃ t, exec (.tick n) s = .next t := by
  suffices h : ∃ t, tick1 s = .next t by
    obtain ⟨t, ht⟩ := h
    exact ⟨_, exec_tick_of_tick1 hl hn ht⟩
  cases hr : s.run with
  | false => exact ⟨s, tick1_of_stopped hr⟩
  | true =>
    by_cases hd : nextHcnt s = 0 ∧ DeadlineMissed s
    · exact ⟨_, (tick1_of_running hr).trans (tickRunning_of_deadlineMissed hd.1 hd.2)⟩
    · obtain ⟨-, t, -, ht, -⟩ := tick1_of_tickRuns ⟨hr, fun h0 hmiss => hd ⟨h0, hmiss⟩, xidx_le_of_inv hs⟩
      exact ⟨t, ht⟩

/-- An enabled micro-operation of the LFSM answers a next state on a line that performs it (R261 to R274). -/
theorem exec_lfsmInstr_total {x : LStep} (hl : Live s) (he : LfsmEnabled x s) (hp : Performs x s) :
    ∃ t, exec (lfsmInstr x) s = .next t := by
  cases x with
  | ack => exact ⟨_, exec_lAck hl he⟩
  | adv => exact ⟨_, exec_lAdv hl he⟩
  | swap =>
    by_cases ha : s.arm = .streaming
    · exact ⟨_, exec_lSwap_streaming hl he hp ha⟩
    · exact ⟨_, exec_lSwap hl he hp ha⟩
  | arm =>
    by_cases ha : s.arm = .idle
    · rcases Nat.lt_or_ge s.hcnt.toNat s.cfg.triggerOffset with hh | hh
      · exact ⟨_, exec_lArm hl he hp ha hh⟩
      · exact ⟨_, exec_lArm_late hl he hp ha hh⟩
    · exact ⟨_, exec_lArm_notIdle hl he hp ha⟩
  | produce => exact ⟨_, exec_lProduce hl he hp⟩
  | frameinc => exact ⟨_, exec_lFrameinc hl he hp⟩
  | input => exact ⟨_, exec_lInput hl he hp⟩
  | vsyncOn => exact ⟨_, exec_lVsyncOn hl he hp⟩
  | vsyncOff => exact ⟨_, exec_lVsyncOff hl he hp⟩
  | audio => exact ⟨_, exec_lAudio hl he⟩
  | exit => exact ⟨_, exec_lExit hl he⟩

/-- An enabled micro-operation of the TCH answers a next state (R311 to R316). -/
theorem exec_tchInstr_total {x : TStep} (hl : Live s) (he : TchEnabled x s) : ∃ t, exec (tchInstr x) s = .next t := by
  cases x with
  | blank => exact ⟨_, exec_tBlank hl he⟩
  | clr => exact ⟨_, exec_tClr hl he⟩
  | poll => exact ⟨_, exec_tPoll hl he⟩
  | dis => exact ⟨_, exec_tDis hl he⟩
  | discard => exact ⟨_, exec_tDiscard hl he⟩
  | exit => exact ⟨_, exec_tExit hl he⟩

/-- The enabled micro-operation answers a next state: the LFSM's pointer stands at a step of the line (R281). -/
theorem exec_sequencerOp_total (hs : MachineInv s) (hl : Live s) (hq : sequencerOp s = some i) :
    ∃ t, exec i s = .next t := by
  rcases sequencerOp_eq_some_iff.1 hq with ⟨rfl, he⟩ | ⟨x, rfl, he⟩ | ⟨rfl, he⟩ | ⟨x, rfl, he⟩
  · exact ⟨_, exec_lEnter hl he⟩
  · obtain ⟨-, -, hperforms⟩ := hs.pointers
    obtain ⟨-, hpc, -⟩ := id he
    exact exec_lfsmInstr_total hl he (hperforms x hpc)
  · exact ⟨_, exec_tEnter hl he⟩
  · exact exec_tchInstr_total hl he

/-- `TICK 0` spells no operation (R150). -/
theorem exec_tick_zero (hl : Live s) : exec (.tick 0) s = refuse .illegal s :=
  (live_eq hl.1 hl.2 _).trans (if_pos rfl)

/-- A `WRCTRL` with a reserved data bit set spells no operation (R145, R150). -/
theorem exec_wrctrl_reserved {d : BitVec 16} (hl : Live s) (hd : d.extractLsb' 3 13 ≠ 0) :
    exec (.wrctrl d) s = refuse .illegal s :=
  (live_eq hl.1 hl.2 _).trans (if_pos hd)

/-- A host or environment operation goes on, or refuses for one of its own checks (44_host, R150). -/
theorem exec_word (hs : MachineInv s) (hl : Live s) (hi : i.opClass ≠ .sequencer) : GoesOnOrRefusesWord (exec i s) := by
  cases i with
  | nop => exact .inl ⟨_, exec_nop hl⟩
  | tick n =>
    by_cases hn : n = 0
    · subst hn; exact refusesWord_of_eq_refuse (exec_tick_zero hl) (by decide)
    · exact .inl (exec_tick_total hs hl hn)
  | wrctrl d =>
    by_cases hd : d.extractLsb' 3 13 = 0
    · cases hr : s.run with
      | false => exact .inl ⟨_, exec_wrctrl hl hd hr⟩
      | true => exact refusesWord_of_eq_refuse (exec_wrctrl_started hl hd hr) (by decide)
    · exact refusesWord_of_eq_refuse (exec_wrctrl_reserved hl hd) (by decide)
  | rdreg r => exact .inl ⟨_, exec_rdreg hl r⟩
  | bufw b j v =>
    rcases Nat.lt_or_ge j.toNat s.cfg.visiblePixels with hj | hj
    · rcases Nat.lt_or_ge v.toNat (2 ^ s.cfg.pixelBits) with hv | hv
      · rw [exec_bufw_inRange hl hj hv]
        split <;> exact .inl ⟨_, rfl⟩
      · exact refusesWord_of_eq_refuse (exec_bufw_badValue hl hj hv) (by decide)
    · exact refusesWord_of_eq_refuse (exec_bufw_badIndex hl hj) (by decide)
  | bufr b j =>
    rcases Nat.lt_or_ge s.cfg.visiblePixels j.toNat with hj | hj
    · exact refusesWord_of_eq_refuse (exec_bufr_badIndex hl hj) (by decide)
    · exact .inl ⟨_, exec_bufr_inRange hl hj⟩
  | cbret k =>
    by_cases hk : s.cbreq = some k
    · exact .inl ⟨_, exec_cbret hl hk⟩
    · exact refusesWord_of_eq_refuse (exec_cbret_mismatch hl hk) (by decide)
  | _ => exact absurd rfl hi

/-- Drawing a turn keeps the invariant and the guard. -/
theorem inv_live_of_drawTurn {turn : Turn} (hs : MachineInv s) (hl : Live s) (h : drawTurn s = (turn, u)) :
    MachineInv u ∧ Live u := by
  rw [drawTurn_snd h]
  exact ⟨inv_of_unread hs rfl, hl⟩

/-- A step whose fetch is the stream's goes on, or refuses a word that stands there. -/
theorem step_of_streamFetch (hs : MachineInv u) (hl : Live u) (hfetch : nextOp s = fetchStream u) :
    (∃ t, step s = .next t) ∨
      ∃ why t, step s = .refused (.refuse why t) ∧ u.stream ≠ [] ∧ why ∈ wordReasons := by
  by_cases hn : u.ticksLeft = 0
  case neg =>
    rw [step_of_nextOp (hfetch.trans (fetchStream_tick hn))]
    exact .inl (exec_tick_total hs hl hn)
  cases hw : u.stream with
  | nil =>
    have hrest : nextOp s = .next (none, u) := by rw [hfetch, fetchStream, if_neg (not_not.2 hn), hw]
    exact .inl ⟨u, step_next_iff.2 (.inr hrest)⟩
  | cons w rest =>
    suffices h : GoesOnOrRefusesWord (step s) by
      rcases h with hnext | ⟨why, t, hr, hwhy⟩
      · exact .inl hnext
      · exact .inr ⟨why, t, hr, List.cons_ne_nil w rest, hwhy⟩
    cases hd : decode w with
    | illegal =>
      exact refusesWord_of_eq_refuse (step_of_nextOp_refuse (hfetch.trans (fetchStream_illegal hn hw hd))) (by decide)
    | operation i =>
      by_cases hi : i.opClass = .sequencer
      · exact refusesWord_of_eq_refuse (step_of_nextOp_refuse (hfetch.trans (fetchStream_seqWord hn hw hd hi)))
          (by decide)
      · rw [step_of_nextOp (hfetch.trans (fetchStream_word hn hw hd hi))]
        exact exec_word (inv_of_unread hs rfl) hl hi

end

end Sys2Proof.Machine

namespace Sys2Proof.Proofs

open Sys2Proof.Machine Sys2Proof.Safety

/-- Settles O50: a step performs the enabled micro-operation, which goes on, or takes its operation from the stream; drawing
the turn keeps the invariant. -/
theorem onlyTheHostsWordsAreRefused : Obligations.OnlyTheHostsWordsAreRefused := by
  intro s hs hcan
  obtain ⟨hl, -⟩ := id hcan
  cases hq : sequencerOp s with
  | none => exact step_of_streamFetch hs hl (nextOp_of_sequencerOp_none hcan hq)
  | some i =>
    cases hb : streamBusy s with
    | false =>
      rw [step_of_nextOp (nextOp_of_streamIdle hcan hq hb)]
      exact .inl (exec_sequencerOp_total hs hl hq)
    | true =>
      obtain ⟨turn, u, hturn⟩ : ∃ turn u, drawTurn s = (turn, u) := ⟨_, _, rfl⟩
      obtain ⟨hsu, hlu⟩ := inv_live_of_drawTurn hs hl hturn
      cases turn with
      | sequencer =>
        rw [step_of_nextOp (nextOp_of_sequencerTurn hcan hq hb hturn)]
        exact .inl (exec_sequencerOp_total hsu hlu ((sequencerOp_of_drawTurn hturn).trans hq))
      | stream =>
        rw [← (stream_of_drawTurn hturn).2]
        exact step_of_streamFetch hsu hlu (nextOp_of_streamTurn hcan (by simp [hq]) hb hturn)

end Sys2Proof.Proofs

namespace Sys2Proof.Machine

open Safety

section
variable {s t : State} {i : Instr}

/-! ### Operations on time raise no fault (R462) -/

/-- Of an operation on time no fault has a cause: R455 to R457 and R106 exclude five of the six codes, and the invariant the
sixth, since `L_ARM` finds the engine idle (R455, R402). -/
theorem not_causes_of_onTime {f : FaultCode} (hs : MachineInv s) (hon : OnTime i s) (h : exec i s = .next t) :
    ¬Causes i s f := by
  intro hcause
  cases f with
  | deadlineMiss =>
    obtain ⟨⟨n, rfl⟩, hr, h0, hmiss⟩ := hcause
    exact (hon hr).1 h0 hmiss
  | lateArm =>
    obtain ⟨rfl, -, hlate⟩ := hcause
    exact Nat.not_lt.2 hlate hon
  | armNotIdle =>
    obtain ⟨rfl, hbusy⟩ := hcause
    obtain ⟨-, ⟨-, hpc, -⟩, -⟩ := lfsmOp_next_iff.1 h
    obtain ⟨-, -, -, -, hidle, -⟩ := hs.engine
    exact hbusy (hidle hpc)
  | swapWhileStreaming =>
    obtain ⟨rfl, ha⟩ := hcause
    exact hon ha
  | triggerWhileStreaming =>
    obtain ⟨⟨n, rfl⟩, hr, hn, ha⟩ := hcause
    exact (hon hr).2 hn ha
  | ownership =>
    obtain ⟨⟨b, j, v, rfl, hb⟩, hr⟩ := hcause
    exact hon hr hb

/-- An operation on time leaves the fault record clear. -/
theorem fault_exec_of_onTime (hs : MachineInv s) (hon : OnTime i s) (h : exec i s = .next t) : t.fault = 0 := by
  rcases recordsCause_exec h with ⟨hf, -⟩ | ⟨f, -, hcause⟩
  · exact hf
  · exact absurd hcause (not_causes_of_onTime hs hon h)

/-! ### A micro-operation that is not enabled (R262, R317; log 16) -/

theorem lfsmOp_of_not_enabled {x : LStep} (hl : Live s) (he : ¬LfsmEnabled x s) (k : Result) :
    lfsmOp x s k = refuse .notEnabled s :=
  (live_eq hl.1 hl.2 _).trans (if_neg he)

theorem tchOp_of_not_enabled {x : TStep} (hl : Live s) (he : ¬TchEnabled x s) (k : Result) :
    tchOp x s k = refuse .notEnabled s :=
  (live_eq hl.1 hl.2 _).trans (if_neg he)

theorem exec_lfsmInstr_eq_lfsmOp (x : LStep) (s : State) : ∃ k, exec (lfsmInstr x) s = lfsmOp x s k := by
  cases x <;> exact ⟨_, rfl⟩

theorem exec_tchInstr_eq_tchOp (x : TStep) (s : State) : ∃ k, exec (tchInstr x) s = tchOp x s k := by
  cases x <;> exact ⟨_, rfl⟩

/-- A class S operation enters an interrupt or is a step of one of the two sequencers (R149). -/
theorem sequencer_operation_cases (hi : i.opClass = .sequencer) :
    i = .lEnter ∨ (∃ x, i = lfsmInstr x) ∨ i = .tEnter ∨ ∃ x, i = tchInstr x := by
  cases i with
  | lEnter => exact .inl rfl
  | lAck => exact .inr (.inl ⟨.ack, rfl⟩)
  | lAdv => exact .inr (.inl ⟨.adv, rfl⟩)
  | lSwap => exact .inr (.inl ⟨.swap, rfl⟩)
  | lArm => exact .inr (.inl ⟨.arm, rfl⟩)
  | lProduce => exact .inr (.inl ⟨.produce, rfl⟩)
  | lFrameinc => exact .inr (.inl ⟨.frameinc, rfl⟩)
  | lInput => exact .inr (.inl ⟨.input, rfl⟩)
  | lVsyncOn => exact .inr (.inl ⟨.vsyncOn, rfl⟩)
  | lVsyncOff => exact .inr (.inl ⟨.vsyncOff, rfl⟩)
  | lAudio => exact .inr (.inl ⟨.audio, rfl⟩)
  | lExit => exact .inr (.inl ⟨.exit, rfl⟩)
  | tEnter => exact .inr (.inr (.inl rfl))
  | tBlank => exact .inr (.inr (.inr ⟨.blank, rfl⟩))
  | tClr => exact .inr (.inr (.inr ⟨.clr, rfl⟩))
  | tPoll => exact .inr (.inr (.inr ⟨.poll, rfl⟩))
  | tDis => exact .inr (.inr (.inr ⟨.dis, rfl⟩))
  | tDiscard => exact .inr (.inr (.inr ⟨.discard, rfl⟩))
  | tExit => exact .inr (.inr (.inr ⟨.exit, rfl⟩))
  | _ => cases hi

/-- A class S operation other than the enabled one is refused. -/
theorem exec_of_not_enabled (hl : Live s) (hi : i.opClass = .sequencer) (hq : sequencerOp s ≠ some i) :
    exec i s = refuse .notEnabled s := by
  rcases sequencer_operation_cases hi with rfl | ⟨x, rfl⟩ | rfl | ⟨x, rfl⟩
  · exact (live_eq hl.1 hl.2 _).trans (if_neg fun he => hq (sequencerOp_eq_some_iff.2 (.inl ⟨rfl, he⟩)))
  · obtain ⟨k, hk⟩ := exec_lfsmInstr_eq_lfsmOp x s
    exact hk.trans (lfsmOp_of_not_enabled hl (fun he => hq (sequencerOp_eq_some_iff.2 (.inr (.inl ⟨x, rfl, he⟩)))) k)
  · exact (live_eq hl.1 hl.2 _).trans (if_neg fun he => hq (sequencerOp_eq_some_iff.2 (.inr (.inr (.inl ⟨rfl, he⟩)))))
  · obtain ⟨k, hk⟩ := exec_tchInstr_eq_tchOp x s
    exact hk.trans
      (tchOp_of_not_enabled hl (fun he => hq (sequencerOp_eq_some_iff.2 (.inr (.inr (.inr ⟨x, rfl, he⟩))))) k)

/-- With no micro-operation enabled and nothing in the stream the machine rests (log 9). -/
theorem step_of_nothing_to_do (hs : CanStep s) (hq : sequencerOp s = none) (hw : s.stream = []) (ht : s.ticksLeft = 0) :
    step s = .next s := by
  have hrest : nextOp s = .next (none, s) := by
    rw [nextOp_of_sequencerOp_none hs hq, fetchStream, if_neg (not_not.2 ht), hw]
  exact step_next_iff.2 (.inr hrest)

/-! ### A run with the line interrupt disabled (R452) -/

/-- Before the second period start the counter wraps at the first one only (R202). -/
theorem mod_eq_zero_iff_of_lt_two_mul {k p : Nat} (hk : k ≠ 0) (hlt : k < 2 * p) : k % p = 0 ↔ k = p :=
  ⟨fun h => Nat.eq_of_dvd_of_lt_two_mul hk (Nat.dvd_of_mod_eq_zero h) hlt, fun h => by rw [h, Nat.mod_self]⟩

/-- `s` with `k` ticks counted from the start of a period and no line interrupt served: the flag of the first period start
stays set (R202, R203). The completion's clear, the diagnostics count and the free inputs are those of `w`. -/
def countedUnserved (k : Nat) (s w : State) : State :=
  { s with
    hcnt := BitVec.ofNat 16 (k % s.cfg.hPeriod), lineFlag := decide (s.cfg.hPeriod ≤ k)
    tcFlag := w.tcFlag, tcClrPend := w.tcClrPend, lineTicks := w.lineTicks, draws := w.draws, drawn := w.drawn }

theorem nextHcnt_countedUnserved {k : Nat} (w : State) (hc : configOk s.cfg = true) :
    nextHcnt (countedUnserved k s w) = (k + 1) % s.cfg.hPeriod := by
  obtain ⟨⟨hperiod, hperiod'⟩, -⟩ := configOk_iff.1 hc
  have hlt : k % s.cfg.hPeriod < 65536 := (Nat.mod_lt k (by omega)).trans_le hperiod'
  simp [nextHcnt, countedUnserved, Nat.mod_eq_of_lt hlt]

/-- With the line interrupt disabled and everything else idle, every tick before the second period start completes: at the
first one the flag is still clear (R203). -/
theorem ticks_of_lineIe_disabled {k : Nat} (hc : configOk s.cfg = true) (hs : OnlyCounting s) (h0 : s.hcnt = 0)
    (hie : s.lineIe = false) (hk : k < 2 * s.cfg.hPeriod) : ∃ t, ticks k s = .next t ∧ t = countedUnserved k s t := by
  obtain ⟨hr, ha, hp, hl, hflag, hpend⟩ := hs
  induction k with
  | zero =>
    have hlt : ¬s.cfg.hPeriod ≤ 0 := by omega
    exact ⟨s, rfl, by simp [countedUnserved, hlt, ← hflag, ← show s.hcnt = 0#16 from h0]⟩
  | succ k ih =>
    obtain ⟨t, ht, hts⟩ := ih (by omega)
    have hwrap := mod_eq_zero_iff_of_lt_two_mul (Nat.succ_ne_zero k) hk
    have hnext : nextHcnt t = (k + 1) % s.cfg.hPeriod := by rw [hts, nextHcnt_countedUnserved t hc]
    have hmet : nextHcnt t = 0 → ¬DeadlineMissed t := fun h => by
      have : k < s.cfg.hPeriod := by have := hwrap.1 (hnext.symm.trans h); omega
      rw [hts]
      simp [countedUnserved, hl, this]
    have hcount : countTick t = countedUnserved (k + 1) s t := by
      have hlatch : (if (k + 1) % s.cfg.hPeriod = 0 then true else decide (s.cfg.hPeriod ≤ k)) =
          decide (s.cfg.hPeriod ≤ k + 1) := by grind
      rw [countTick, hnext, hts]
      simp [countedUnserved, hie, hlatch]
    refine ⟨tickEnd (countTick t), (ticks_succ_of_ticks ht).trans (tick1_of_idle ?_ ?_ ?_ hmet), ?_⟩
    · rw [hts]; exact hr
    · rw [hts]; exact ha
    · rw [hts]; exact hp
    · rw [tickEnd_only, hcount]; rfl

/-- The second period start finds the first one's flag still set, and faults (R203). -/
theorem ticks_two_periods_of_lineIe_disabled (hc : configOk s.cfg = true) (hf : s.fault = 0) (hs : OnlyCounting s)
    (h0 : s.hcnt = 0) (hie : s.lineIe = false) :
    ∃ t, ticks (2 * s.cfg.hPeriod) s = .next t ∧ t.fault = faultBit .deadlineMiss := by
  obtain ⟨⟨hperiod, -⟩, -⟩ := configOk_iff.1 hc
  obtain ⟨k, hk⟩ : ∃ k, 2 * s.cfg.hPeriod = k + 1 := ⟨2 * s.cfg.hPeriod - 1, by omega⟩
  obtain ⟨t, ht, hts⟩ := ticks_of_lineIe_disabled (k := k) hc hs h0 hie (by omega)
  have hnext : nextHcnt t = 0 := by rw [hts, nextHcnt_countedUnserved t hc, ← hk, Nat.mul_mod_left]
  have hrun : t.run = true := by rw [hts]; exact hs.1
  have hmiss : DeadlineMissed t := .inr (by rw [hts]; exact decide_eq_true (by omega))
  refine ⟨_, ?_, raiseFault_fault_of_clear (s := { t with hcnt := 0 }) (by rw [hts]; exact hf) .deadlineMiss⟩
  rw [hk, ticks_succ_of_ticks ht, tick1_of_running hrun, tickRunning_of_deadlineMissed hnext hmiss]

/-! ### A pending clear of the completion flag (R206, R312, R461) -/

/-- A pending clear that is gone after a tick took effect there (R206). -/
theorem tcFlag_of_tick1_cleared (h : tick1 s = .next t) (hp : s.tcClrPend = true) (hgone : t.tcClrPend = false) :
    t.tcFlag = false := by
  rcases tick1_cases h with rfl | h
  · simp [hp] at hgone
  rcases tickRunning_outcomes h with ⟨-, rfl⟩ | ⟨v, hv, rfl | rfl⟩
  · simp [hp] at hgone
  · have hkept : (triggered (nextHcnt s) v).tcClrPend = true := by rw [triggered_pseClock_only hv]; exact hp
    rcases tickEnd_flags (triggered (nextHcnt s) v) with ⟨-, hsame⟩ | ⟨-, hclear, -⟩
    · simp [hsame, hkept] at hgone
    · exact hclear
  · have hkept : v.tcClrPend = true := by rw [pseClock_only hv]; exact hp
    simp [hkept] at hgone

/-- A pending clear goes only where the flag becomes clear: at a tick, or at a further write of it (R206, R312). -/
theorem tcFlag_of_exec_cleared (h : exec i s = .next t) (hp : s.tcClrPend = true) (hgone : t.tcClrPend = false) :
    t.tcFlag = false := by
  obtain ⟨-, -, -, -, -, -, -, -, -, -, -, -, -, -, -, -, -, -, -, -, -, -, -, hwriter, -⟩ :=
    Proofs.everyFieldHasItsWriters i s t h
  rcases hwriter (.inr (by simp [hp, hgone])) with rfl | ⟨n, rfl⟩
  · obtain ⟨-, -, ⟨⟩⟩ := tchOp_next_iff.1 h
    rw [writeTcClear_eq] at hgone ⊢
    exact hgone
  · obtain ⟨-, -, u, hu, rfl⟩ := exec_tick_next_iff.1 h
    exact tcFlag_of_tick1_cleared (t := u) hu hp hgone

/-- The fetch neither makes nor ends a pending clear, so a step that ends one leaves the flag clear. -/
theorem tcFlag_of_step_cleared (h : step s = .next t) (hp : s.tcClrPend = true) (hgone : t.tcClrPend = false) :
    t.tcFlag = false := by
  have hfetch {o : Option Instr} {u : State} (hn : nextOp s = .next (o, u)) : u.tcClrPend = true := by
    obtain ⟨-, hu, -⟩ := nextOp_cases hn
    rw [hu]; exact hp
  rcases step_next_iff.1 h with ⟨i, u, hn, hu⟩ | hn
  · exact tcFlag_of_exec_cleared hu (hfetch hn) hgone
  · simp [hfetch hn] at hgone

end

end Sys2Proof.Machine

namespace Sys2Proof.Proofs

open Sys2Proof.Machine Sys2Proof.Safety

/-- Settles O49: the fetch and the operation keep the invariant, and the operation, being on time, raises no fault; a machine
that rests raises none either. -/
theorem deadlinesMetMeansNoFault : Obligations.DeadlinesMetMeansNoFault := by
  intro s t hs hf hon h
  refine ⟨everyStepKeepsTheInvariant s t hs h, ?_⟩
  rcases step_next_iff.1 h with ⟨i, u, hn, hu⟩ | hn
  · exact fault_exec_of_onTime (inv_nextOp hs hn) (hon i u hn) hu
  · obtain ⟨-, ht, -⟩ := nextOp_cases hn
    rw [ht]; exact hf

/-- Settles O8: the fetch finds nothing to do, and at reset there is nothing to do; a micro-operation's own check of its
enabling condition refuses it. -/
theorem nothingEnabledMeansNothingDone : Obligations.NothingEnabledMeansNothingDone :=
  ⟨fun _ => step_of_nothing_to_do, step_of_nothing_to_do (by decide) rfl rfl rfl, fun _ _ => exec_of_not_enabled⟩

/-- Settles O31: the ticks before the second period start count with nothing pending, so no sequencer is enabled; that period
start misses its deadline. -/
theorem runWithoutLineInterruptFaults : Obligations.RunWithoutLineInterruptFaults := by
  rintro s ⟨hc, hf⟩ hs h0 hie htch htc
  refine ⟨fun k t hk ht => ?before, ticks_two_periods_of_lineIe_disabled hc hf hs h0 hie⟩
  case before =>
    obtain ⟨u, hu, hus⟩ := ticks_of_lineIe_disabled hc hs h0 hie hk
    obtain ⟨-, -, -, hl, -, hpend⟩ := hs
    obtain rfl : t = u := by simpa [ht] using hu
    rw [hus]
    exact ⟨hf, by simp [sequencerOp, countedUnserved, htch, htc, hl, hpend]⟩

/-- Settles O59: by fairness some later step ends the pending clear, and that step leaves the flag clear. -/
theorem fairClearClearsTheFlag : Obligations.FairClearClearsTheFlag := by
  intro r hrun hfair n hp
  obtain ⟨m, hm, hpm, hgone⟩ := hfair n hp
  exact ⟨m + 1, by omega, tcFlag_of_step_cleared (hrun m) hpm hgone⟩

end Sys2Proof.Proofs
